-- ==== Sys2Proof/Word.lean ====
section
/-! DEFINITION. The two word types of the machine (00_scope.md R25). -/

namespace Sys2Proof

/-- `u8` of R25: one byte of memory, of a program or of a FIFO. -/
abbrev Byte := BitVec 8

/-- `u32` of R25: an address, a register, an immediate. -/
abbrev Word := BitVec 32

end Sys2Proof
end

