-- ==== Sys2Proof/Config.lean ====
section
/-! DEFINITION. What an implementation fixes (00_scope.md section 4, 93_implementation_defined.md section 1)
and the free values: opaque constants that nothing can evaluate, for what the spec leaves at "any value". -/

namespace Sys2Proof

/-- The status codes of R800. -/
inductive Status where
  | success | skipped | nullptr | alignment | noSpace | invalid | noSupport | inUse
  | busy | again | notReady | notFound | range | hwFault
  deriving DecidableEq, Repr

/-- `BOARD_FAMILY` (R21). -/
inductive BoardFamily where
  | de1soc | arria10
  deriving DecidableEq, Repr

/-- The opaque board configuration `HwConfig` of R730: its content is not in the source (N14), so it is
carried as words that no rule reads. -/
structure HwConfig where
  words : List Word
  deriving DecidableEq, Repr

/-- One range of system memory addresses; the range may run over the top of the address space. -/
structure Region where
  base : Word
  size : Nat
  deriving DecidableEq, Repr

/-- The parameters of the platform (00_scope.md section 4; 93_implementation_defined.md section 1), fixed while
the machine runs. They stand in State as plain data, so a claim about every state holds for every
value of them (log 4). -/
structure Platform where
  /-- `BOARD_FAMILY` (R21). -/
  boardFamily : BoardFamily
  /-- `Mapped(addr)` (R200, I26), as the ranges that hold memory. -/
  mapped : List Region
  /-- `PROGRAM_FETCH_COHERENT` (R230, I27). -/
  fetchCoherent : Bool
  /-- `ENGINE_ICACHE_MAY_BE_STALE` (R232, I15). -/
  icacheMayBeStale : Bool
  /-- `STOP_IMPLIES_WRITES_DONE` (R224, I21). -/
  stopImpliesWritesDone : Bool
  /-- `GO_VISIBLE_AT_IDLE` (R617, I14). -/
  goVisibleAtIdle : Bool
  /-- `KILL_FROM_MEMORY` (I3): true = "stops the thread", false = "fault". -/
  killFromMemoryStops : Bool
  /-- I4: a CCR value with a reserved ES faults (true), or the data moved under it are any value (false). -/
  reservedSwapFaults : Bool
  /-- `MFIFO_BYTES` (I23); `none` is the unbounded FIFO of R560. -/
  mfifoBytes : Option Nat
  /-- `SYNTH_PROGRAM_CAPACITY` (R17). -/
  synthCapacity : Word
  deriving DecidableEq, Repr

/-- A security configuration of the engine (R830): what a non-secure thread may use, and which channels a
DMAGO may start, by the security state of the manager thread that issues it and by its `ns` bit (R150;
log 29). Bit n of a mask is event, peripheral, protection value or channel n. -/
structure Security where
  /-- The events a non-secure thread may use (R151 ch_evnt_err, R821). -/
  nsEvents : Word
  /-- The peripherals a non-secure channel may use (R151 ch_periph_err). -/
  nsPeriphs : Word
  /-- The protection values a non-secure channel may access memory with (R151 ch_rdwr_err, R821). -/
  nsProts : BitVec 8
  /-- The channels a secure manager may start secure. -/
  secureStartsSecure : BitVec 8
  /-- The channels a secure manager may start non-secure. -/
  secureStartsNonSecure : BitVec 8
  /-- The channels a non-secure manager may start secure. -/
  nonSecureStartsSecure : BitVec 8
  /-- The channels a non-secure manager may start non-secure. -/
  nonSecureStartsNonSecure : BitVec 8
  deriving DecidableEq, Repr, Inhabited

namespace Config

/-- `NUM_CHANNELS` (R9). -/
def numChannels : Nat := 8
/-- `EVENT_ABORTED` (R10). -/
def eventAborted : Nat := 8
/-- `MAX_BURST_LEN` (R12). -/
def maxBurstLen : Nat := 16
/-- `MAX_LOOP_ITER` (R13). -/
def maxLoopIter : Nat := 256
/-- `MAX_LOOP_JUMP` (R14). -/
def maxLoopJump : Nat := 255
/-- `DEBUG_PROGRAM_CAPACITY` (R18). -/
def debugProgramCapacity : Nat := 8
/-- `REG_BASE_ALIGN` (R22). -/
def regBaseAlign : Nat := 4
/-- The bytes of the engine's register block (R140). -/
def regBlockBytes : Nat := 4096

/-- The platform the machine has at reset: every address mapped, coherent fetch, no stale cache, writes
done at stop, `GO_VISIBLE_AT_IDLE` at its default, an unbounded FIFO and the default capacity. DESIGN
CHOICE (log 4), unsafe for a claim about `State.reset` only. -/
def defaultPlatform : Platform where
  boardFamily := .de1soc
  mapped := [{ base := 0, size := 2 ^ 32 }]
  fetchCoherent := true
  icacheMayBeStale := false
  stopImpliesWritesDone := true
  goVisibleAtIdle := true
  killFromMemoryStops := true
  reservedSwapFaults := true
  mfifoBytes := none
  synthCapacity := 256

/-- The security configuration of the engine at power-on: nothing is restricted, but that a non-secure
manager starts no channel as a secure one. DESIGN CHOICE (log 29), unsafe for a claim about
`State.reset` only. -/
def openSecurity : Security where
  nsEvents := 0xFFFFFFFF
  nsPeriphs := 0xFFFFFFFF
  nsProts := 0xFF
  secureStartsSecure := 0xFF
  secureStartsNonSecure := 0xFF
  nonSecureStartsSecure := 0x00
  nonSecureStartsNonSecure := 0xFF

/-- Free bytes: data moved by a transfer whose result is unspecified (I4, I6, I7, I27). -/
opaque freeByte : Nat → Byte
/-- Free addresses: the addresses used by an access that crosses the top of memory (I6). -/
opaque freeAddr : Nat → Word
/-- Free words: a fault type the spec does not give (I3). -/
opaque freeWord : Nat → Word
/-- Free choices between two effects the spec both allows (I3, I15, I24). -/
opaque freeBool : Nat → Bool
/-- Free byte strings: a FIFO after a DMAEND that found it not empty (I23), debug bytes after a failed
issue (I13). -/
opaque freeBytes : Nat → List Byte
/-- Free register contents after the controller reset (I11, I19), by draw and register offset. -/
opaque freeReg : Nat → Nat → Word
/-- `HwConfigValid` (I25), per board family. -/
opaque hwConfigValid : BoardFamily → HwConfig → Bool
/-- The security configuration the engine has when it leaves reset: set by the board's configuration last
applied, per board family, and by the configuration registers CR0..CR4 and CRD, whose fields are not in
the source (R21, R159, R830; N6, N14). -/
opaque security : BoardFamily → Option HwConfig → Vector Word 5 → Word → Security
/-- The peripheral-ID table of a board family and its mux mapping (R20, R21, R730; N13, N14): the request line
of the peripheral with an identity under the board's configuration last applied, if it reaches one. -/
opaque peripheralLine : BoardFamily → Option HwConfig → Nat → Option (Fin 32)
/-- The magnitude bits of a failure's `STATUS_VALUE` (R23, I8). -/
opaque statusBits : Status → BitVec 31
/-- `STATUS_VALUE(ERR_SKIPPED)`, sign included (I9). -/
opaque skippedValue : Word

/-- `STATUS_VALUE` (R23, R800): success is 0, every failure is negative, nothing else is fixed. -/
def statusValue : Status → Word
  | .success => 0
  | .skipped => skippedValue
  | e => 1#1 ++ statusBits e

end Config

end Sys2Proof
end

