-- ==== Sys2Proof/Syntax.lean ====
section
/-! DEFINITION. The two languages of the machine: `Instr`, the instructions an engine thread executes, one
constructor per row of spec/opcode_table.json; and `Command`, the complete command set of DPES
(60_exceptions.md R803), with the operands as the host passes them, illegal values included. -/

namespace Sys2Proof

/-- A loop counter select (R11, R313). -/
inductive LoopCtr where
  | lc0 | lc1
  deriving DecidableEq, Repr

/-- The move-immediate registers (R312). -/
inductive RegId where
  | sar | ccr | dar
  deriving DecidableEq, Repr

/-- The address register of the excluded DMAADDH and DMAADNH (R340). -/
inductive AddrReg where
  | sar | dar
  deriving DecidableEq, Repr

/-- One instruction of the engine (R335, R340). -/
inductive Instr where
  | dmaend
  | dmakill
  | dmald
  | dmalds
  | dmaldb
  | dmast
  | dmasts
  | dmastb
  | dmastz
  | dmarmb
  | dmawmb
  | dmanop
  /-- `iter` is the iteration count, 1..256 (R314). -/
  | dmalp (c : LoopCtr) (iter : Nat)
  | dmalpend (c : LoopCtr) (jump : Byte)
  | dmalpends (c : LoopCtr) (jump : Byte)
  | dmalpendb (c : LoopCtr) (jump : Byte)
  | dmawfpSingle (periph : Fin 32)
  | dmawfpPeriph (periph : Fin 32)
  | dmawfpBurst (periph : Fin 32)
  | dmasev (event : Fin 32)
  | dmaflushp (periph : Fin 32)
  | dmawfe (event : Fin 32) (invalidate : Bool)
  | dmago (ns : Bool) (cn : Fin 8) (addr : Word)
  | dmamov (rd : RegId) (imm : Word)
  | dmaaddh (ra : AddrReg) (imm : BitVec 16)
  | dmaadnh (ra : AddrReg) (imm : BitVec 16)
  | dmaldps (periph : Fin 32)
  | dmaldpb (periph : Fin 32)
  | dmastps (periph : Fin 32)
  | dmastpb (periph : Fin 32)
  | dmalpfe (c : LoopCtr) (jump : Byte)
  deriving DecidableEq, Repr

/-- The condition of a load, a store or a loop end (R305). -/
inductive Cond where
  | always | single | burst
  deriving DecidableEq, Repr

/-- The request type operand of wait-for-peripheral (R318). -/
inductive WfpType where
  | single | burst | periph
  deriving DecidableEq, Repr

/-- One encoder command of 40_encoder.md R410..R453, without its buffer. An operand of an enumeration is
`none` where it names no member of it (R404); a numeric operand may be out of range. -/
inductive EncOp where
  | mov (rd : Option RegId) (imm : Word)
  | load (cond : Option Cond)
  | store (cond : Option Cond)
  | storeZero
  | loopStart (c n : Nat)
  | loopInsert (c n bodyLen : Nat)
  | loopEnd (cond : Option Cond)
  | chLoop (c n bodyLen : Nat)
  | sendEvent (ev : Nat)
  | waitEvent (ev : Nat) (invalidate : Bool)
  | waitPeriph (periph : Nat) (type : Option WfpType)
  | flushPeriph (periph : Nat)
  | readBarrier
  | writeBarrier
  | endProgram
  | nop
  | go (cn : Nat) (addr : Word) (ns : Bool)
  | kill
  deriving DecidableEq, Repr

/-- Source kinds (R110). -/
inductive SrcType where
  | memory | register | zero | peripheral
  deriving DecidableEq, Repr

/-- Destination kinds (R110). -/
inductive DstType where
  | memory | register | peripheral
  deriving DecidableEq, Repr

/-- Endianness-swap modes (R110, R323). -/
inductive Swap where
  | none | swap16 | swap32 | swap64 | swap128
  deriving DecidableEq, Repr

/-- A channel-control-parameter record (R110); an enumeration field is `none` where its value names no
member. `resolved` (R111) holds the CCR values of the last synthesized program. -/
structure XferParams where
  srcType : Option SrcType
  dstType : Option DstType
  srcProt : Nat
  dstProt : Nat
  srcCache : Nat
  dstCache : Nat
  burstBytes : Nat
  swap : Option Swap
  channel : Nat
  burstEnable : Bool
  completionEvent : Bool
  resolved : List Word
  deriving DecidableEq, Repr

/-- A chunk (R115). -/
structure Chunk where
  readAddr : Word
  writeAddr : Word
  length : Word
  isLast : Bool
  params : Option XferParams
  deriving DecidableEq, Repr

/-- The abort modes (R650). -/
inductive AbortMode where
  | none | safe | force
  deriving DecidableEq, Repr

/-- A buffer operand: `none` is the null pointer (R404), `some h` the buffer of handle `h` (log 8). -/
abbrev Handle := Option Nat

/-- A context operand: null, or the controller's context (R602, log 7). -/
inductive CtxRef where
  | null | ctx
  deriving DecidableEq, Repr

/-- The commands of DPES (R803). -/
inductive Command where
  | allocProgram (size base : Word)
  | freeProgram (p : Handle)
  | setProgramFlags (p : Handle) (nonSecure autoFree : Bool)
  | inst (p : Handle) (op : EncOp)
  | initialise (base : Word) (wordBytes : Nat) (hwInit : Option HwConfig)
  | isInitialised (c : CtxRef)
  | setShortThreshold (c : CtxRef) (n : Word)
  | cleanup (c : CtxRef)
  | initParams (c : CtxRef) (index : Nat)
  | setupTransfer (c : CtxRef) (chk : Option Chunk) (index : Nat) (autoStart : Bool)
  | setupTransferProgram (c : CtxRef) (ch : Nat) (p : Handle) (autoStart : Bool)
  | startTransferCh (c : CtxRef) (ch : Nat)
  | startTransfer (c : CtxRef)
  | busyCh (c : CtxRef) (ch : Nat)
  | busy (c : CtxRef)
  | transferError (c : CtxRef) (ch : Nat)
  | checkState (c : CtxRef) (ch : Nat)
  | managerError (c : CtxRef)
  | completedCh (c : CtxRef) (ch : Nat)
  | completed (c : CtxRef)
  | abortedCh (c : CtxRef) (ch : Nat)
  | aborted (c : CtxRef)
  | abort (c : CtxRef) (mode : Option AbortMode)
  | sendEvent (c : CtxRef) (ev : Nat)
  | irqSetEnable (c : CtxRef) (mask : Word) (enable : Bool)
  | irqFlags (c : CtxRef) (mask : Word)
  | irqClear (c : CtxRef) (mask : Word)
  deriving DecidableEq, Repr

end Sys2Proof
end

