-- ==== Sys2Proof/WellFormed.lean ====
section
/-! DEFINITION. Which instructions are well formed: the operand ranges that `Instr`'s types do not already carry. -/

namespace Sys2Proof

/-- The operand ranges of R300..R318. Events, peripherals, channels, registers and jumps cannot be out of
range by their types; an iteration count is 1 to 256 (R13, R314). -/
def Instr.wellFormed : Instr → Bool
  | .dmalp _ iter => decide (1 ≤ iter ∧ iter ≤ Config.maxLoopIter)
  | .dmaend | .dmakill | .dmald | .dmalds | .dmaldb | .dmast | .dmasts | .dmastb | .dmastz => true
  | .dmarmb | .dmawmb | .dmanop => true
  | .dmalpend _ _ | .dmalpends _ _ | .dmalpendb _ _ | .dmalpfe _ _ => true
  | .dmawfpSingle _ | .dmawfpPeriph _ | .dmawfpBurst _ | .dmaflushp _ => true
  | .dmasev _ | .dmawfe _ _ => true
  | .dmago _ _ _ | .dmamov _ _ => true
  | .dmaaddh _ _ | .dmaadnh _ _ => true
  | .dmaldps _ | .dmaldpb _ | .dmastps _ | .dmastpb _ => true

end Sys2Proof
end

