-- ==== Sys2Proof/Decode.lean ====
section
/-! DEFINITION. The decoder of the instruction bytes (30_encoding.md), total on any byte list and rejecting by
name, and the encoder written from the same tables. -/

namespace Sys2Proof

/-! ## Byte order (R25, R205, R310) -/

/-- Byte `i` of a word, counted from the least significant. -/
def byteOf (v : Word) (i : Nat) : Byte := v.extractLsb' (8 * i) 8

/-- `le32` of R25. -/
def le32 (v : Word) : List Byte := [byteOf v 0, byteOf v 1, byteOf v 2, byteOf v 3]

/-- `le16` of R25. -/
def le16 (v : BitVec 16) : List Byte := [v.extractLsb' 0 8, v.extractLsb' 8 8]

/-- The word whose `le32` is the four bytes (R310). -/
def ofLe32 (b0 b1 b2 b3 : Byte) : Word :=
  b0.setWidth 32 ||| b1.setWidth 32 <<< 8 ||| b2.setWidth 32 <<< 16 ||| b3.setWidth 32 <<< 24

/-- The half word whose `le16` is the two bytes (R310). -/
def ofLe16 (b0 b1 : Byte) : BitVec 16 := b0.setWidth 16 ||| b1.setWidth 16 <<< 8

/-! ## Fields of the operand byte (R304, R316, R317) -/

/-- `b1[7:3]`: an event or a peripheral number. -/
def fieldNum (b1 : Byte) : Fin 32 := (b1.extractLsb' 3 5).toFin

/-- The operand byte of a number in `b1[7:3]` with `b1[2:0] = 0`. -/
def numByte (n : Fin 32) : Byte := BitVec.ofNat 8 (n.val * 8)

/-- `b1[2:0]`: the channel of a DMAGO (R303). -/
def fieldChan (b1 : Byte) : Fin 8 := (b1.extractLsb' 0 3).toFin

/-- Register ids (R312). -/
def RegId.id : RegId → Byte
  | .sar => 0
  | .ccr => 1
  | .dar => 2

/-- The register of an id byte; ids 3..7 and set bits above are reserved (R302, R312). -/
def regOfByte (b1 : Byte) : Option RegId :=
  if b1 = 0 then some .sar else if b1 = 1 then some .ccr else if b1 = 2 then some .dar else none

/-- Counter select in loop-start, `b0[1]` (R313). -/
def LoopCtr.lpBit : LoopCtr → Byte
  | .lc0 => 0x00
  | .lc1 => 0x02

/-- Counter select in loop-end, `b0[2]` (R313). -/
def LoopCtr.lpendBit : LoopCtr → Byte
  | .lc0 => 0x00
  | .lc1 => 0x04

/-- The register select of DMAADDH and DMAADNH, `b0[1]` (R340). -/
def AddrReg.bit : AddrReg → Byte
  | .sar => 0x00
  | .dar => 0x02

/-! ## Length (R345) -/

/-- An instruction's length in bytes from its first byte alone (R345); `none` for an undefined first byte
(R341). -/
def instrLength (b0 : Byte) : Option Nat :=
  if b0 ∈ [0x00, 0x01, 0x04, 0x05, 0x07, 0x08, 0x09, 0x0B, 0x0C, 0x12, 0x13, 0x18] then some 1
  else if b0 ∈ [0x20, 0x22, 0x25, 0x27, 0x28, 0x29, 0x2B, 0x2C, 0x30, 0x31, 0x32, 0x34, 0x35, 0x36,
      0x38, 0x39, 0x3B, 0x3C, 0x3D, 0x3F] then some 2
  else if b0 ∈ [0x54, 0x56, 0x5C, 0x5E] then some 3
  else if b0 ∈ [0xA0, 0xA2, 0xBC] then some 6
  else none

/-! ## Decoding -/

/-- Why bytes are no instruction. -/
inductive DecodeError where
  /-- The bytes end before the instruction does. -/
  | truncated
  /-- A first byte that neither R335 nor R340 lists (R341). -/
  | undefinedOpcode (b0 : Byte)
  /-- A reserved register id or a set must-be-zero bit of the operand byte (R312, R342). -/
  | reservedOperand (b0 b1 : Byte)
  deriving DecidableEq, Repr

/-- The one-byte instructions (R301, R335). -/
def decodeF1 (b0 : Byte) : Option Instr :=
  match b0 with
  | 0x00#8 => some .dmaend
  | 0x01#8 => some .dmakill
  | 0x04#8 => some .dmald
  | 0x05#8 => some .dmalds
  | 0x07#8 => some .dmaldb
  | 0x08#8 => some .dmast
  | 0x09#8 => some .dmasts
  | 0x0B#8 => some .dmastb
  | 0x0C#8 => some .dmastz
  | 0x12#8 => some .dmarmb
  | 0x13#8 => some .dmawmb
  | 0x18#8 => some .dmanop
  | _ => none

/-- An instruction with a number in `b1[7:3]` whose `b1[2:0]` must be 0 (R316, R317, R342). -/
def numInstr (b1 : Byte) (f : Fin 32 → Instr) : Option Instr :=
  if b1.extractLsb' 0 3 = 0 then some (f (fieldNum b1)) else none

/-- The two-byte instructions (R304, R313..R318, R335, R340); `none` is a reserved operand byte. -/
def decodeF2 (b0 b1 : Byte) : Option Instr :=
  match b0 with
  | 0x20#8 => some (.dmalp .lc0 (b1.toNat + 1))
  | 0x22#8 => some (.dmalp .lc1 (b1.toNat + 1))
  | 0x25#8 => numInstr b1 .dmaldps
  | 0x27#8 => numInstr b1 .dmaldpb
  | 0x28#8 => some (.dmalpfe .lc0 b1)
  | 0x29#8 => numInstr b1 .dmastps
  | 0x2B#8 => numInstr b1 .dmastpb
  | 0x2C#8 => some (.dmalpfe .lc1 b1)
  | 0x30#8 => numInstr b1 .dmawfpSingle
  | 0x31#8 => numInstr b1 .dmawfpPeriph
  | 0x32#8 => numInstr b1 .dmawfpBurst
  | 0x34#8 => numInstr b1 .dmasev
  | 0x35#8 => numInstr b1 .dmaflushp
  | 0x36#8 => if b1 &&& 0x05#8 = 0 then some (.dmawfe (fieldNum b1) (b1.getLsbD 1)) else none
  | 0x38#8 => some (.dmalpend .lc0 b1)
  | 0x39#8 => some (.dmalpends .lc0 b1)
  | 0x3B#8 => some (.dmalpendb .lc0 b1)
  | 0x3C#8 => some (.dmalpend .lc1 b1)
  | 0x3D#8 => some (.dmalpends .lc1 b1)
  | 0x3F#8 => some (.dmalpendb .lc1 b1)
  | _ => none

/-- The three-byte instructions (R340). -/
def decodeF3 (b0 b1 b2 : Byte) : Option Instr :=
  match b0 with
  | 0x54#8 => some (.dmaaddh .sar (ofLe16 b1 b2))
  | 0x56#8 => some (.dmaaddh .dar (ofLe16 b1 b2))
  | 0x5C#8 => some (.dmaadnh .sar (ofLe16 b1 b2))
  | 0x5E#8 => some (.dmaadnh .dar (ofLe16 b1 b2))
  | _ => none

/-- The six-byte instructions (R302, R303); `none` is a reserved operand byte. -/
def decodeF6 (b0 b1 : Byte) (imm : Word) : Option Instr :=
  match b0 with
  | 0xA0#8 => if b1.extractLsb' 3 5 = 0 then some (.dmago false (fieldChan b1) imm) else none
  | 0xA2#8 => if b1.extractLsb' 3 5 = 0 then some (.dmago true (fieldChan b1) imm) else none
  | 0xBC#8 => (regOfByte b1).map fun rd => .dmamov rd imm
  | _ => none

/-- What a decoded operand byte gives: the instruction with the bytes after it, or the named rejection. -/
def decoded (b0 b1 : Byte) (i : Option Instr) (rest : List Byte) :
    Except DecodeError (Instr × List Byte) :=
  match i with
  | some i => .ok (i, rest)
  | none => .error (.reservedOperand b0 b1)

/-- Decodes the instruction at the front of a byte list and answers it with the bytes after it (R206,
R345). -/
def decode : List Byte → Except DecodeError (Instr × List Byte)
  | [] => .error .truncated
  | b0 :: rest =>
    match instrLength b0 with
    | some 1 =>
      match decodeF1 b0 with
      | some i => .ok (i, rest)
      | none => .error (.undefinedOpcode b0)
    | some 2 =>
      match rest with
      | b1 :: rest => decoded b0 b1 (decodeF2 b0 b1) rest
      | _ => .error .truncated
    | some 3 =>
      match rest with
      | b1 :: b2 :: rest => decoded b0 b1 (decodeF3 b0 b1 b2) rest
      | _ => .error .truncated
    | some _ =>
      match rest with
      | b1 :: b2 :: b3 :: b4 :: b5 :: rest => decoded b0 b1 (decodeF6 b0 b1 (ofLe32 b2 b3 b4 b5)) rest
      | _ => .error .truncated
    | none => .error (.undefinedOpcode b0)

/-! ## Encoding -/

/-- A loop end's bytes (R304, R313, R315). -/
def encodeLoopEnd (op : Byte) (c : LoopCtr) (jump : Byte) : List Byte := [op ||| c.lpendBit, jump]

/-- The bytes of a well-formed instruction (R300..R318, R340). -/
def encode : Instr → List Byte
  | .dmaend => [0x00]
  | .dmakill => [0x01]
  | .dmald => [0x04]
  | .dmalds => [0x05]
  | .dmaldb => [0x07]
  | .dmast => [0x08]
  | .dmasts => [0x09]
  | .dmastb => [0x0B]
  | .dmastz => [0x0C]
  | .dmarmb => [0x12]
  | .dmawmb => [0x13]
  | .dmanop => [0x18]
  | .dmalp c iter => [0x20 ||| c.lpBit, BitVec.ofNat 8 (iter - 1)]
  | .dmalpend c jump => encodeLoopEnd 0x38 c jump
  | .dmalpends c jump => encodeLoopEnd 0x39 c jump
  | .dmalpendb c jump => encodeLoopEnd 0x3B c jump
  | .dmawfpSingle p => [0x30, numByte p]
  | .dmawfpPeriph p => [0x31, numByte p]
  | .dmawfpBurst p => [0x32, numByte p]
  | .dmasev ev => [0x34, numByte ev]
  | .dmaflushp p => [0x35, numByte p]
  | .dmawfe ev invalidate => [0x36, numByte ev ||| (if invalidate then 0x02 else 0x00)]
  | .dmago ns cn addr => (if ns then 0xA2 else 0xA0) :: BitVec.ofNat 8 cn.val :: le32 addr
  | .dmamov rd imm => 0xBC :: rd.id :: le32 imm
  | .dmaaddh ra imm => (0x54 ||| ra.bit) :: le16 imm
  | .dmaadnh ra imm => (0x5C ||| ra.bit) :: le16 imm
  | .dmaldps p => [0x25, numByte p]
  | .dmaldpb p => [0x27, numByte p]
  | .dmastps p => [0x29, numByte p]
  | .dmastpb p => [0x2B, numByte p]
  | .dmalpfe c jump => encodeLoopEnd 0x28 c jump

/-! ## The words of spec/opcode_table.json -/

/-- The `n` bytes of a number, the most significant first: how a row of the opcode table numbers an
instruction's bits ("match and mask list the instruction bytes in address order, b0 first"; log 43). -/
def bytesHighFirst (n w : Nat) : List Byte :=
  (List.range n).map fun i => BitVec.ofNat 8 (w >>> (8 * (n - 1 - i)))

/-- The `n` bytes of a number, the least significant first. -/
def bytesLowFirst (n w : Nat) : List Byte :=
  (List.range n).map fun i => BitVec.ofNat 8 (w >>> (8 * i))

/-- The instruction that the bytes are, all of them. -/
def decodeWhole (bs : List Byte) : Option Instr :=
  match decode bs with
  | .ok (i, []) => some i
  | _ => none

/-- The bytes, in address order, of an opcode-table word of `nbits` bits: as the table's rows number them
where those bytes are one whole instruction, else with the first byte in bits 7..0 (log 43). -/
def tableBytes (nbits w : Nat) : List Byte :=
  let n := nbits / 8
  if (decodeWhole (bytesHighFirst n w)).isSome then bytesHighFirst n w
  else if (decodeWhole (bytesLowFirst n w)).isSome then bytesLowFirst n w
  else bytesHighFirst n w

/-- The instruction the decoder reads from an opcode-table word. -/
def decodeTableWord (nbits w : Nat) : Option Instr := decodeWhole (tableBytes nbits w)

end Sys2Proof
end

