-- ==== Sys2Proof/Machine/State.lean ====
section
/-! DEFINITION. The machine's state as plain data: DPES (program buffers, channel context), the engine's register
block and threads, system memory, the board control space, the platform's parameters, and the
outside world's agenda. INVENTORY.md lists every field with its rule and its reset value. -/

namespace Sys2Proof.Machine

/-! ## Memory -/

/-- System memory (R200): (address, byte) pairs, addresses strictly rising, no entry equal to what an
unlisted address reads as (`Memory.wf` in Ops.lean). -/
abbrev Memory := List Host.Cell

/-! ## Program buffers (10_state.md section 2) -/

/-- A program buffer (R101). Its bytes `P.buf[i]` are the bytes of system memory at `base + i` (R200, R206;
log 9). -/
structure Buffer where
  cap : Nat
  len : Nat
  depth : Nat
  ctrMask : BitVec 2
  /-- Open loops, innermost last: (counter, bodyStart). -/
  loops : List (LoopCtr × Nat)
  nonSecure : Bool
  autoFree : Bool
  base : Word
  /-- The model's own mark: the program moves a transfer whose result R934 leaves open (I7; log 48). -/
  loose : Bool
  deriving DecidableEq, Repr

/-- The debug-command buffer (R710): the engine never fetches it from memory, so it carries its own bytes
`buf[0..len]` (R103, I31). -/
structure DebugBuffer where
  hdr : Buffer
  bytes : List Byte
  deriving DecidableEq, Repr

/-! ## The channel context (10_state.md section 4) -/

/-- `ChState` (R120). -/
inductive ChState where
  | free | ready | busy | done | error | aborted
  deriving DecidableEq, Repr

/-- The channel context (R121). -/
structure Context where
  base : Word
  wordBytes : Nat
  chState : Vector ChState 8
  lastFault : Vector Word 8
  pending : Vector (Option Nat) 8
  errAck : Vector Bool 8
  dbg : Option DebugBuffer
  mgrFault : Word
  abortPending : Bool
  initialised : Bool
  shortThreshold : Word
  deriving DecidableEq, Repr

/-! ## The engine (10_state.md sections 5 and 6) -/

/-- A peripheral's request, and a channel's peripheral request type (R305, R318). -/
inductive ReqType where
  | single | burst
  deriving DecidableEq, Repr

/-- One channel thread and its registers (R151..R154, R170). -/
structure Channel where
  sar : Word
  dar : Word
  ccr : Word
  lc0 : Byte
  lc1 : Byte
  pc : Word
  fifo : List Byte
  csr : Word
  ftr : Word
  reqType : ReqType
  /-- Stores not yet complete in memory, oldest first (R224, R225; log 30). -/
  writes : List (Word × Byte)
  deriving DecidableEq, Repr

/-- The engine: its register block (R140..R159), its nine threads, its instruction cache (R232) and its
peripheral request lines. -/
structure Engine where
  chan : Vector Channel 8
  dsr : Word
  dpc : Word
  fsrd : Word
  fsrc : Word
  ftrd : Word
  inten : Word
  /-- Active events: the event half of INT_EVENT_RIS (R145). -/
  events : Word
  /-- Raised interrupts: the interrupt half of INT_EVENT_RIS (R145); INTMIS is `irqs AND inten` (R146). -/
  irqs : Word
  dbgstatus : Word
  /-- A debug instruction has been triggered and not yet executed. -/
  dbgPending : Bool
  dbginst0 : Word
  dbginst1 : Word
  cr : Vector Word 5
  crd : Word
  wd : Word
  /-- Instruction bytes the engine may have cached (R232; log 31). -/
  icache : List (Word × Byte)
  periph : Vector (Option ReqType) 32
  /-- The security configuration in force, taken when the engine left reset (R830; log 29). -/
  security : Security
  deriving DecidableEq, Repr

/-- A thread of the engine (R170). -/
inductive Thread where
  | manager
  | channel (n : Fin 8)
  deriving DecidableEq, Repr

/-- Where an instruction being executed came from. -/
inductive Origin where
  | memory | debug
  deriving DecidableEq, Repr

/-- The thread whose instruction is being executed, and where the instruction came from (log 1). -/
structure Active where
  thread : Thread
  origin : Origin
  deriving DecidableEq, Repr

/-! ## The board control space (R200) -/

/-- What ResetAssert, ResetRelease and ApplyHwConfig act on. -/
structure Board where
  resetHeld : Bool
  hwConfig : Option HwConfig
  deriving DecidableEq, Repr

/-! ## The outside world -/

/-- What happens at the engine or outside DPES without a command (R161, R835; log 45). -/
inductive Activity where
  /-- The thread executes its next instruction, or looks again at what it waits for. -/
  | thread (t : Thread)
  /-- The debug interface executes the triggered instruction, if it is still pending, and becomes idle. -/
  | debugRun
  /-- A thread faults for a reason outside its instruction (R151, R820). -/
  | asyncFault (t : Thread) (bits : Word)
  /-- A thread is killed, and its fault ends, by a DMAKILL that DPES did not issue (R822, R927). -/
  | kill (t : Thread)
  /-- A thread shows another status value (R142, R152, I10). -/
  | showStatus (t : Thread) (v : BitVec 4)
  /-- A request is raised on a request line. -/
  | periphRequest (p : Fin 32) (ty : ReqType)
  /-- The board's peripheral of an identity raises a request on its line (R20, R21). -/
  | peripheral (id : Nat) (ty : ReqType)
  /-- The oldest store of the channel that is not complete completes (R224). -/
  | drainWrite (n : Fin 8)
  /-- The host writes a byte of system memory (R835). -/
  | hostWrite (a : Word) (v : Byte)
  deriving DecidableEq, Repr

/-- The environment of one command: what happens before each of its register accesses in turn (R161), and
the draws of the storage allocator (R400, R500, I22). -/
structure Env where
  gaps : List (List Activity)
  allocOk : Bool
  allocBase : Word
  deriving DecidableEq, Repr

/-- The next thing to happen (R220, R835). -/
inductive Turn where
  | activity (a : Activity)
  | command (c : Command) (e : Env)
  deriving DecidableEq, Repr

/-- The response of a command (R801); `record` is the parameter record of initParams (R743), or the one
setupTransfer used with `resolved` filled in (R111). -/
structure Response where
  status : Status
  payload : Word
  record : Option XferParams
  deriving DecidableEq, Repr

/-! ## The state -/

/-- Everything the spec gives the machine, and the model's own `nextHandle`, `active`, `agenda`, `gaps`,
`nextThread` and `draws`. -/
structure State where
  mem : Memory
  /-- The live program buffers by handle (R100). -/
  buffers : List (Nat × Buffer)
  nextHandle : Nat
  /-- The channel context; `none` before the first initialise (R900). -/
  ctx : Option Context
  board : Board
  engine : Engine
  platform : Platform
  active : Active
  agenda : List Turn
  /-- What happens before the running command's further register accesses. -/
  gaps : List (List Activity)
  /-- The thread whose turn it is when the agenda is empty: 0 the manager, n + 1 channel n. -/
  nextThread : Fin 9
  response : Option Response
  /-- The counter the free values of Config are drawn with. -/
  draws : Nat
  deriving DecidableEq, Repr

/-- Why the machine stops with a fault. -/
inductive Fault where
  /-- Raised by safe abort and cleanup whose hold on the debug busy flag the environment never ends: the
  command never completes (R706, I16 "stuck"). Safe: no claim follows about a later state. -/
  | holdNeverEnds
  deriving DecidableEq, Repr

/-- Why the machine refuses to give a meaning. -/
inductive Refusal where
  /-- Raised by an arm of `exec` that has no meaning yet. Safe. -/
  | notModelled (mnemonic : String)
  /-- Raised by a buffer or encoder command on a program that is attached to a channel (R231, I28
  "refuse"). Safe. -/
  | attachedProgram
  /-- Raised by the short-transfer bypass at an address that holds no memory (I20 "a bypass access by DPES:
  refuse"). Safe. -/
  | bypassUnmapped
  deriving DecidableEq, Repr

/-! ## Reset -/

/-- A channel thread after power-on: stopped (R171), every other register 0 (log 5). -/
def Channel.reset : Channel where
  sar := 0
  dar := 0
  ccr := 0
  lc0 := 0
  lc1 := 0
  pc := 0
  fifo := []
  csr := 0
  ftr := 0
  reqType := .single
  writes := []

/-- The engine after power-on: the values of R171, every other register 0 (log 5). -/
def Engine.reset : Engine where
  chan := Vector.replicate 8 Channel.reset
  dsr := 0
  dpc := 0
  fsrd := 0
  fsrc := 0
  ftrd := 0
  inten := 0
  events := 0
  irqs := 0
  dbgstatus := 0
  dbgPending := false
  dbginst0 := 0
  dbginst1 := 0
  cr := Vector.replicate 5 0
  crd := 0
  wd := 0
  icache := []
  periph := Vector.replicate 32 none
  security := Config.openSecurity

/-- The machine at power-on, before any command: no context, no buffer, the engine as R171 says (R900,
R910). -/
def State.reset : State where
  mem := []
  buffers := []
  nextHandle := 1
  ctx := none
  board := { resetHeld := false, hwConfig := none }
  engine := Engine.reset
  platform := Config.defaultPlatform
  active := { thread := .channel 0, origin := .memory }
  agenda := []
  gaps := []
  nextThread := 0
  response := none
  draws := 0

end Sys2Proof.Machine
end

