-- ==== Sys2Proof/Machine/Flags.lean ====
section
/-! DEFINITION. Single bits and small fields of the engine's registers: thread status, fault types, events,
requests, and the conditions of conditional instructions. DPES itself has no condition codes (R100). -/

namespace Sys2Proof.Machine

/-! ## Bits -/

/-- Sets bit `i`. -/
def setBit (w : Word) (i : Nat) : Word := w ||| (1#32 <<< i)

/-- Clears bit `i`. -/
def clearBit (w : Word) (i : Nat) : Word := w &&& ~~~(1#32 <<< i)

/-- Writes bit `i`. -/
def putBit (w : Word) (i : Nat) (b : Bool) : Word := if b then setBit w i else clearBit w i

/-- The channel mask `Σ 1 << ch` of R636 and R638. -/
def channelMask (chs : List (Fin 8)) : Word := chs.foldl (fun w ch => setBit w ch.val) 0

/-- The channels 0..7, ascending. -/
def allChannels : List (Fin 8) := [0, 1, 2, 3, 4, 5, 6, 7]

/-! ## Thread status, CSRn[3:0] and DSR[3:0] (R142, R152) -/

def stStopped : BitVec 4 := 0x0
def stExecuting : BitVec 4 := 0x1
def stWaitEvent : BitVec 4 := 0x4
def stWaitPeriph : BitVec 4 := 0x7
def stFaultCompleting : BitVec 4 := 0xE
def stFaulting : BitVec 4 := 0xF

/-- The status field of a CSR or of DSR. -/
def statusOf (w : Word) : BitVec 4 := w.extractLsb' 0 4

/-- Writes the status field and leaves the other bits. -/
def withStatus (w : Word) (v : BitVec 4) : Word := (w &&& 0xFFFFFFF0#32) ||| v.setWidth 32

/-- Writes the wakeup number, bits [8:4] (R142, R152). -/
def withWakeup (w : Word) (n : Fin 32) : Word :=
  (w &&& 0xFFFFFE0F#32) ||| (BitVec.ofNat 32 n.val <<< 4)

/-- A thread that can execute: not stopped and not faulting (R152, R820). -/
def runs (status : BitVec 4) : Bool :=
  status != stStopped && status != stFaulting && status != stFaultCompleting

/-- The status field and wakeup number of a thread that waits for event `ev` (R142, R152). -/
def waitsForEvent (w : Word) (ev : Fin 32) : Bool :=
  statusOf w == stWaitEvent && w.extractLsb' 4 5 == BitVec.ofNat 5 ev.val

/-- CNS, the channel runs non-secure (R152). -/
def cnsBit : Nat := 21
/-- DNS, the manager runs non-secure (R142). -/
def dnsBit : Nat := 9
/-- dmawfp_b_ns (R152). -/
def wfpBurstBit : Nat := 14
/-- dmawfp_periph (R152). -/
def wfpPeriphBit : Nat := 15

/-! ## Fault types, FTRn and FTRD (R150, R151) -/

def fltUndefInstr : Nat := 0
def fltOperandInvalid : Nat := 1
def fltDmagoErr : Nat := 4
def fltEvntErr : Nat := 5
def fltPeriphErr : Nat := 6
def fltRdwrErr : Nat := 7
def fltMfifoErr : Nat := 12
def fltStDataUnavailable : Nat := 13
def fltInstrFetchErr : Nat := 16
def fltDataWriteErr : Nat := 17
def fltDataReadErr : Nat := 18
def fltDbgInstr : Nat := 30
def fltLockupErr : Nat := 31

/-! ## Conditions (R305) -/

/-- Whether an instruction conditioned on a single or burst request executes for the channel's request
type. -/
def condHolds : Cond → ReqType → Bool
  | .always, _ => true
  | .single, t => t == .single
  | .burst, t => t == .burst

/-! ## Peripheral requests (R318; log 19) -/

/-- The request type DMAWFP goes on with, given the request its peripheral raises, or `none` to wait: the
single form takes either request, the burst form only a burst, the periph form takes the type of
the request. -/
def wfpMatch : WfpType → Option ReqType → Option ReqType
  | _, none => none
  | .single, some _ => some .single
  | .burst, some .burst => some .burst
  | .burst, some .single => none
  | .periph, some t => some t

/-! ## Interrupts (R145, R146) -/

/-- INT_EVENT_RIS: active events and raised interrupts. -/
def Engine.intEventRis (e : Engine) : Word := e.events ||| e.irqs

/-- INTMIS: the raised interrupts that are enabled. -/
def Engine.intmis (e : Engine) : Word := e.irqs &&& e.inten

end Sys2Proof.Machine
end

