-- ==== Sys2Proof/Machine/Ops.lean ====
section
/-! DEFINITION. The named operations over memory, buffers, threads and registers that every meaning is written
with; taking an engine fault (`takeFault`) and leaving one (`killThread`). -/

namespace Sys2Proof.Machine

/-! ## Memory (R200, R205) -/

/-- What a byte that nothing has written reads as: 0. DESIGN CHOICE, unsafe (log 3). -/
def unlistedByte : Byte := 0

/-- Reads one byte. -/
def memRead : Memory → Nat → Byte
  | [], _ => unlistedByte
  | (b, v) :: m, a => if a = b then v else memRead m a

/-- Writes one byte and keeps the canonical form. -/
def memWrite : Memory → Nat → Byte → Memory
  | [], a, v => if v = unlistedByte then [] else [(a, v)]
  | (b, w) :: m, a, v =>
    if a < b then (if v = unlistedByte then (b, w) :: m else (a, v) :: (b, w) :: m)
    else if a = b then (if v = unlistedByte then m else (a, v) :: m)
    else (b, w) :: memWrite m a v

/-- The canonical form from address `lo` on: addresses strictly rising and below 2^32, no entry equal to what
an unlisted address reads as. -/
def memWfFrom : Nat → Memory → Bool
  | _, [] => true
  | lo, (a, v) :: m =>
    decide (lo ≤ a) && decide (a < 2 ^ 32) && (v != unlistedByte) && memWfFrom (a + 1) m

/-- The canonical form of a memory. -/
def Memory.wf (m : Memory) : Bool := memWfFrom 0 m

/-- Writes bytes at 32-bit addresses, in order. -/
def memWrites (m : Memory) (cells : List (Word × Byte)) : Memory :=
  cells.foldl (fun m c => memWrite m c.1.toNat c.2) m

/-- The byte at an address. -/
def State.byteAt (s : State) (a : Word) : Byte := memRead s.mem a.toNat

/-- Whether two ranges, of `m` bytes at `a` and of `n` bytes at `b`, share an address; each may run over the top
of the address space. -/
def rangesMeet (a : Word) (m : Nat) (b : Word) (n : Nat) : Bool :=
  decide (0 < m) && decide (0 < n) && (decide ((b - a).toNat < m) || decide ((a - b).toNat < n))

/-- Whether a range holds an address; the range may run over the top of the address space. -/
def regionHolds (r : Region) (a : Word) : Bool := decide ((a - r.base).toNat < r.size)

/-- `Mapped(addr)` (R200). -/
def State.mappedAt (s : State) (a : Word) : Bool := s.platform.mapped.any fun r => regionHolds r a

/-! ## Free values (log 34) -/

/-- Moves the counter on past `k` free values. -/
def State.drawn (s : State) (k : Nat) : State := { s with draws := s.draws + k }

/-- `k` free bytes. -/
def State.freeByteList (s : State) (k : Nat) : List Byte :=
  (List.range k).map fun i => Config.freeByte (s.draws + i)

/-- `k` free addresses. -/
def State.freeAddrList (s : State) (k : Nat) : List Word :=
  (List.range k).map fun i => Config.freeAddr (s.draws + i)

/-! ## Threads -/

/-- Channel thread `n`. -/
def State.chan (s : State) (n : Fin 8) : Channel := s.engine.chan[n]

/-- Replaces channel thread `n`. -/
def State.setChan (s : State) (n : Fin 8) (c : Channel) : State :=
  { s with engine := { s.engine with chan := s.engine.chan.set n c } }

/-- The status of a thread. -/
def State.threadStatus (s : State) : Thread → BitVec 4
  | .manager => statusOf s.engine.dsr
  | .channel n => statusOf (s.chan n).csr

/-- The program counter of a thread. -/
def State.threadPc (s : State) : Thread → Word
  | .manager => s.engine.dpc
  | .channel n => (s.chan n).pc

/-- Writes a thread's status. -/
def State.setThreadStatus (s : State) (t : Thread) (v : BitVec 4) : State :=
  match t with
  | .manager => { s with engine := { s.engine with dsr := withStatus s.engine.dsr v } }
  | .channel n => s.setChan n { s.chan n with csr := withStatus (s.chan n).csr v }

/-- Writes a thread's program counter. -/
def State.setThreadPc (s : State) (t : Thread) (a : Word) : State :=
  match t with
  | .manager => { s with engine := { s.engine with dpc := a } }
  | .channel n => s.setChan n { s.chan n with pc := a }

/-- Whether a thread runs in the non-secure state: CNS or DNS (R142, R152). -/
def State.threadNonSecure (s : State) : Thread → Bool
  | .manager => s.engine.dsr.getLsbD dnsBit
  | .channel n => (s.chan n).csr.getLsbD cnsBit

/-- The end of an instruction that goes on: an instruction fetched from memory leaves its thread Executing
with the pc `f pc` (R561); one from the debug interface was not at the pc and moves nothing (log
14). -/
def State.moveOn (s : State) (f : Word → Word) : State :=
  match s.active.origin with
  | .memory =>
    (s.setThreadPc s.active.thread (f (s.threadPc s.active.thread))).setThreadStatus s.active.thread
      stExecuting
  | .debug => s

/-- `pc <- pc + k` (R561). -/
def State.retire (s : State) (k : Nat) : State := s.moveOn (· + BitVec.ofNat 32 k)

/-! ## Faults: the engine's only exception (R820), and the way out (R662) -/

/-- Takes a fault on the active thread (R820): the thread enters Faulting, FSRC[n] or FSRD[0] is set, FTRn or
FTRD records the type, with dbg_instr when the instruction came from the debug interface (R150,
R151). The pc stays at the instruction (log 16). -/
def takeFault (bits : Word) (s : State) : State :=
  let word := if s.active.origin = .debug then setBit bits fltDbgInstr else bits
  match s.active.thread with
  | .manager =>
    { s with engine := { s.engine with
        dsr := withStatus s.engine.dsr stFaulting
        fsrd := setBit s.engine.fsrd 0
        ftrd := word } }
  | .channel n =>
    let s' := s.setChan n { s.chan n with csr := withStatus (s.chan n).csr stFaulting, ftr := word }
    { s' with engine := { s'.engine with fsrc := setBit s'.engine.fsrc n.val } }

/-- Takes the fault of one type bit. -/
def takeFaultBit (bit : Nat) (s : State) : State := takeFault (setBit 0 bit) s

/-- DMAKILL's effect on a thread (R712): it stops, and with it ends its fault (R662, R823); a stopped thread
is left as it is (R932). -/
def killThread (t : Thread) (s : State) : State :=
  if s.threadStatus t = stStopped then s
  else
    match t with
    | .manager =>
      { s with engine := { s.engine with
          dsr := withStatus s.engine.dsr stStopped
          fsrd := clearBit s.engine.fsrd 0
          ftrd := 0 } }
    | .channel n =>
      let s' := s.setChan n { s.chan n with csr := withStatus (s.chan n).csr stStopped, ftr := 0 }
      { s' with engine := { s'.engine with fsrc := clearBit s'.engine.fsrc n.val } }

/-! ## Stores (R224, R561; log 30) -/

/-- The stores of a channel thread: in memory at once where a stopped channel's writes are complete, else in
the thread's queue of writes not yet complete. -/
def State.storeCells (s : State) (n : Fin 8) (cells : List (Word × Byte)) : State :=
  if s.platform.stopImpliesWritesDone then { s with mem := memWrites s.mem cells }
  else s.setChan n { s.chan n with writes := (s.chan n).writes ++ cells }

/-- Completes every queued write of a channel, oldest first (R225). -/
def State.completeWrites (s : State) (n : Fin 8) : State :=
  { s with mem := memWrites s.mem (s.chan n).writes }.setChan n { s.chan n with writes := [] }

/-- Completes the oldest queued write of a channel. -/
def State.drainWrite (s : State) (n : Fin 8) : State :=
  match (s.chan n).writes with
  | [] => s
  | c :: rest => { s with mem := memWrites s.mem [c] }.setChan n { s.chan n with writes := rest }

/-! ## Events (R144, R825; log 21) -/

/-- A channel thread after event `ev` has been signalled: past its DMAWFE if it was waiting for it. -/
def Channel.woken (c : Channel) (ev : Fin 32) : Channel :=
  if waitsForEvent c.csr ev then { c with pc := c.pc + 2, csr := withStatus c.csr stExecuting } else c

/-- Every thread that waits for event `ev` goes on (R144). -/
def Engine.wake (e : Engine) (ev : Fin 32) : Engine :=
  let mgr := waitsForEvent e.dsr ev
  { e with
    chan := #v[e.chan[0].woken ev, e.chan[1].woken ev, e.chan[2].woken ev, e.chan[3].woken ev,
      e.chan[4].woken ev, e.chan[5].woken ev, e.chan[6].woken ev, e.chan[7].woken ev]
    dpc := if mgr then e.dpc + 2 else e.dpc
    dsr := if mgr then withStatus e.dsr stExecuting else e.dsr }

/-- Whether some thread waits for event `ev`. -/
def Engine.awaited (e : Engine) (ev : Fin 32) : Bool :=
  waitsForEvent e.dsr ev || allChannels.any fun n => waitsForEvent e.chan[n].csr ev

/-- Signals event `ev`: interrupt `ev` becomes pending if INTEN[ev] = 1; else the event is signalled to every
thread that waits for it, or becomes active where none does. -/
def State.signalEvent (s : State) (ev : Fin 32) : State :=
  if s.engine.inten.getLsbD ev.val then
    { s with engine := { s.engine with irqs := setBit s.engine.irqs ev.val } }
  else if s.engine.awaited ev then { s with engine := s.engine.wake ev }
  else { s with engine := { s.engine with events := setBit s.engine.events ev.val } }

/-! ## Program buffers by handle (log 8) -/

/-- The buffer of a handle. -/
def bufGet : List (Nat × Buffer) → Nat → Option Buffer
  | [], _ => none
  | (k, b) :: l, h => if h = k then some b else bufGet l h

/-- Replaces the buffer of a handle that is live. -/
def bufSet : List (Nat × Buffer) → Nat → Buffer → List (Nat × Buffer)
  | [], _, _ => []
  | (k, b) :: l, h, b' => if h = k then (k, b') :: l else (k, b) :: bufSet l h b'

/-- Removes the buffer of a handle. -/
def bufErase : List (Nat × Buffer) → Nat → List (Nat × Buffer)
  | [], _ => []
  | (k, b) :: l, h => if h = k then l else (k, b) :: bufErase l h

/-- The live buffer a buffer operand names; a null pointer and a handle whose buffer is gone name none
(R815: "buffer ... absent"). -/
def State.findBuffer (s : State) (p : Handle) : Option (Nat × Buffer) :=
  match p with
  | none => none
  | some h => (bufGet s.buffers h).map fun b => (h, b)

/-- The address of `P.buf[i]` (R101, R206). -/
def Buffer.addr (b : Buffer) (i : Nat) : Word := b.base + BitVec.ofNat 32 i

/-- `P.buf[i]`. -/
def State.bufByte (s : State) (b : Buffer) (i : Nat) : Byte := s.byteAt (b.addr i)

/-- Whether a channel of the context has the buffer attached (R123, R401). -/
def State.attached (s : State) (h : Nat) : Bool :=
  match s.ctx with
  | none => false
  | some c => allChannels.any fun ch => c.pending[ch] == some h

/-! ## Transfers whose result is open (R934, I7; log 48) -/

/-- Whether an address lies in a live program buffer or in the debug buffer. -/
def State.inProgram (s : State) (a : Word) : Bool :=
  (s.buffers.any fun p => regionHolds { base := p.2.base, size := p.2.cap } a) ||
    match s.ctx.bind fun c => c.dbg with
    | none => false
    | some d => regionHolds { base := d.hdr.base, size := d.hdr.cap } a

/-- Whether the program attached to a channel moves a transfer whose ranges overlap. The mark is that of the
program the context holds for the channel: once the program has been released the channel's stores are
definite, also where a false Done released it before the engine ran it (R928; DESIGN CHOICE, log 48). -/
def State.runsLoose (s : State) (n : Fin 8) : Bool :=
  match s.ctx with
  | none => false
  | some c =>
    match s.findBuffer c.pending[n] with
    | none => false
    | some (_, b) => b.loose

/-! ## Outcomes -/

/-- Goes on with the value of a step that answered one. -/
def andThen {α β : Type} (o : Host.Outcome α Fault Refusal) (f : α → Host.Outcome β Fault Refusal) :
    Host.Outcome β Fault Refusal :=
  match o with
  | .next a => f a
  | .fault r => .fault r
  | .refused r => .refused r

/-- The state an agent is left in: where a step answers no next state, the agent stays where it was. -/
def leftIn (o : Host.Outcome State Fault Refusal) (s : State) : State :=
  match o with
  | .next s' => s'
  | .fault _ => s
  | .refused _ => s

end Sys2Proof.Machine
end

