-- ==== Sys2Proof/Machine/Operands.lean ====
section
/-! DEFINITION. The operand forms of the engine's data instructions: the channel-control word (R320), the
addresses of a burst (R561), and the bytes a store writes. -/

namespace Sys2Proof.Machine

/-! ## The channel-control word (R320, R321, R323) -/

/-- A field of the control word. -/
def ccrField (ccr : Word) (lo w : Nat) : Nat := (ccr.extractLsb' lo w).toNat

/-- ES, the endian swap size (R320). -/
def ccrSwap (ccr : Word) : Nat := ccrField ccr 28 4

/-- ES values 5..15 are reserved (R323). -/
def swapReserved (ccr : Word) : Bool := decide (5 ≤ ccrSwap ccr)

/-- The group of bytes that ES reverses, in bytes; 1 without a swap (R207, R323). -/
def swapGroup (ccr : Word) : Nat :=
  match ccrSwap ccr with
  | 1 => 2
  | 2 => 4
  | 3 => 8
  | 4 => 16
  | _ => 1

/-! ## Bursts (R561) -/

/-- One side of a channel's transfers: the address register, the beat size in bytes, the beats of a burst
and whether the address increments. -/
structure Burst where
  base : Word
  beat : Nat
  len : Nat
  inc : Bool
  deriving DecidableEq, Repr

/-- The source side (R320, R561). -/
def Channel.src (c : Channel) : Burst where
  base := c.sar
  beat := 2 ^ ccrField c.ccr 1 3
  len := ccrField c.ccr 4 4 + 1
  inc := c.ccr.getLsbD 0

/-- The destination side (R320, R561). -/
def Channel.dst (c : Channel) : Burst where
  base := c.dar
  beat := 2 ^ ccrField c.ccr 15 3
  len := ccrField c.ccr 18 4 + 1
  inc := c.ccr.getLsbD 14

/-- The source protection attributes SP (R320). -/
def Channel.srcProt (c : Channel) : Nat := ccrField c.ccr 8 3

/-- The destination protection attributes DP (R320). -/
def Channel.dstProt (c : Channel) : Nat := ccrField c.ccr 22 3

/-- The bytes a burst moves. -/
def Burst.size (b : Burst) : Nat := b.beat * b.len

/-- The address register after `k` beats (R561). -/
def Burst.after (b : Burst) (k : Nat) : Word :=
  if b.inc then b.base + BitVec.ofNat 32 (k * b.beat) else b.base

/-- The byte addresses of a burst in the order of R561: beat by beat, each from its lowest address. -/
def Burst.addrs (b : Burst) : List Word :=
  (List.range b.len).flatMap fun r => (List.range b.beat).map fun k => b.after r + BitVec.ofNat 32 k

/-- Whether a burst runs over the top of the address space (R203, I6). I6 gives any value for the whole of a
transfer that crosses the top; here only such a burst moves free bytes. The transfer's bursts before and
after it, and all of them where it comes to the top exactly between two, move definite bytes, at addresses
that wrap there (DESIGN CHOICE, log 25). -/
def Burst.crossesTop (b : Burst) : Bool :=
  decide (2 ^ 32 < b.base.toNat + (if b.inc then b.size else b.beat))

/-- The addresses a burst uses: its own, or free ones where it crosses the top of memory (I6). -/
def State.burstAddrs (s : State) (b : Burst) : List Word :=
  if b.crossesTop then s.freeAddrList b.size else b.addrs

/-! ## Loads -/

/-- The bytes a burst loads from the given addresses: what memory holds there, or free bytes where the burst
crosses the top of memory (I6). -/
def State.loadBytes (s : State) (b : Burst) (addrs : List Word) : List Byte :=
  if b.crossesTop then s.freeByteList addrs.length else addrs.map s.byteAt

/-! ## Stores -/

/-- Reverses the order of the bytes inside every group of `k` (R207). -/
def reverseGroups (k : Nat) (bs : List Byte) : List Byte :=
  (List.range bs.length).map fun i => bs.getD (i / k * k + (k - 1 - i % k)) 0

/-- Whether the bytes a store writes are any value: the burst crosses the top of memory (I6), the control
word holds a reserved ES (I4), or the burst is no whole number of swap groups (log 26). -/
def Channel.storeFree (c : Channel) : Bool :=
  c.dst.crossesTop || swapReserved c.ccr || c.dst.size % swapGroup c.ccr != 0

/-- Whether what channel `n` stores is any value whatever its control word: its transfer's source or program
overlaps the destination, or the burst falls on a program buffer or the debug buffer (R934, I7; log 48). Over a
live buffer that is not the transfer's own this frees the bursts that meet it and no other, where I7 says
any value for the transfer's destination (DESIGN CHOICE, log 48). -/
def State.storeLoose (s : State) (n : Fin 8) : Bool :=
  s.runsLoose n || (s.chan n).dst.addrs.any s.inProgram

/-- Whether the bytes of channel `n`'s next store are any value. -/
def State.storeOpen (s : State) (n : Fin 8) : Bool := (s.chan n).storeFree || s.storeLoose n

/-- Whether the bytes of channel `n`'s next DMASTZ are any value: where the burst crosses the top of memory
(I6), and as `storeLoose` says. A reserved ES leaves them zeros, the model's choice where I4 says any
value: every swap of zeros is zeros (DESIGN CHOICE, log 27). -/
def State.zeroOpen (s : State) (n : Fin 8) : Bool := (s.chan n).dst.crossesTop || s.storeLoose n

/-- The bytes channel `n` takes from the FIFO for a store, as they are written: popped in order (R561) with the
swap of the control word (R207). -/
def State.storeBytes (s : State) (n : Fin 8) : List Byte :=
  let c := s.chan n
  if s.storeOpen n then s.freeByteList c.dst.size
  else reverseGroups (swapGroup c.ccr) (c.fifo.take c.dst.size)

/-- The bytes a DMASTZ of channel `n` writes: zeros (R561) but where `zeroOpen` says any value. -/
def State.zeroBytes (s : State) (n : Fin 8) : List Byte :=
  if s.zeroOpen n then s.freeByteList (s.chan n).dst.size else List.replicate (s.chan n).dst.size 0

/-- The cells a store on channel `n` writes, given its bytes, up to the first address that holds no memory
(I20; log 17). -/
def State.dstCells (s : State) (n : Fin 8) (bytes : List Byte) : List (Word × Byte) :=
  ((s.burstAddrs (s.chan n).dst).zip bytes).takeWhile fun c => s.mappedAt c.1

/-! ## Access rights of a non-secure channel (R151, R821; log 29) -/

/-- Whether a channel may access memory with a protection value. -/
def State.protAllowed (s : State) (n : Fin 8) (prot : Nat) : Bool :=
  !s.threadNonSecure (.channel n) || s.engine.security.nsProts.getLsbD prot

/-- Whether a thread may use an event. -/
def State.eventAllowed (s : State) (t : Thread) (ev : Fin 32) : Bool :=
  !s.threadNonSecure t || s.engine.security.nsEvents.getLsbD ev.val

/-- Whether a channel may use a peripheral. -/
def State.periphAllowed (s : State) (n : Fin 8) (p : Fin 32) : Bool :=
  !s.threadNonSecure (.channel n) || s.engine.security.nsPeriphs.getLsbD p.val

/-- The channels a DMAGO may start, from the security state of the manager that issues it (DNS) and its own
`ns` bit (R150, R830). -/
def startMask (c : Security) (dns ns : Bool) : BitVec 8 :=
  match dns, ns with
  | false, false => c.secureStartsSecure
  | false, true => c.secureStartsNonSecure
  | true, false => c.nonSecureStartsSecure
  | true, true => c.nonSecureStartsNonSecure

/-- Whether a DMAGO the manager issues may start a channel (R150, R830). -/
def State.goAllowed (s : State) (ns : Bool) (cn : Fin 8) : Bool :=
  (startMask s.engine.security (s.threadNonSecure .manager) ns).getLsbD cn.val

/-- Whether a channel's FIFO has room for `k` more bytes (I23). -/
def State.fifoRoom (s : State) (n : Fin 8) (k : Nat) : Bool :=
  match s.platform.mfifoBytes with
  | none => true
  | some m => decide ((s.chan n).fifo.length + k ≤ m)

/-! ## Loop counters (R170) -/

/-- The value of a loop counter. -/
def Channel.lc (c : Channel) : LoopCtr → Byte
  | .lc0 => c.lc0
  | .lc1 => c.lc1

/-- Writes a loop counter. -/
def Channel.setLc (c : Channel) (k : LoopCtr) (v : Byte) : Channel :=
  match k with
  | .lc0 => { c with lc0 := v }
  | .lc1 => { c with lc1 := v }

end Sys2Proof.Machine
end

