-- ==== Sys2Proof/Machine/Transfer.lean ====
section
/-! DEFINITION. The data-movement family: DMAMOV, DMALD, DMAST, DMASTZ and the conditional loads and stores (R410..R413;
R305, R561). -/

namespace Sys2Proof.Machine

/-- Runs a channel instruction on the active channel thread; the manager thread has no such registers (R170)
and takes the undefined-instruction fault (log 15). -/
def onChannel (f : Fin 8 → State → State) (s : State) : Host.Outcome State Fault Refusal :=
  match s.active.thread with
  | .channel n => .next (f n s)
  | .manager => .next (takeFaultBit fltUndefInstr s)

/-! ## Shared operations -/

/-- A load on channel `n` (R561 DMALD): pushes the burst's bytes into the FIFO, in order, and advances SAR. A
burst that comes to an address without memory ends there with data_read_err (I20; log 17); too
little room in the FIFO is mfifo_err (I23); a protection the channel may not use is ch_rdwr_err. The
spec gives these faults no priority and does not say what a load without room has moved: here the
protection comes first, then the FIFO, then the addresses, and a load without room moves no byte and
leaves SAR (DESIGN CHOICE, log 28). -/
def loadOp (n : Fin 8) (s : State) : State :=
  let c := s.chan n
  let b := c.src
  let addrs := s.burstAddrs b
  let good := addrs.takeWhile s.mappedAt
  let s' := if b.crossesTop then s.drawn b.size else s
  let done := s'.setChan n
    { c with
      fifo := c.fifo ++ s.loadBytes b good
      sar := b.after (good.length / b.beat) }
  if !s.protAllowed n c.srcProt then takeFaultBit fltRdwrErr s
  else if !s.fifoRoom n b.size then takeFaultBit fltMfifoErr s
  else if good.length = addrs.length then done.retire 1
  else takeFaultBit fltDataReadErr done

/-- Writes a store's cells on channel `n` and advances DAR: what DMAST and DMASTZ share. `popped` says whether
the bytes came out of the FIFO, `free` whether they are free values, of which as many are used up as
are written. A burst that comes to an address without memory ends there with data_write_err (I20; log
17). -/
def writeBurst (n : Fin 8) (bytes : List Byte) (popped free : Bool) (s : State) : State :=
  let c := s.chan n
  let b := c.dst
  let cells := s.dstCells n bytes
  let used := if b.crossesTop then b.size else cells.length
  let s' := (if free then s.drawn used else s).setChan n
    { c with
      fifo := if popped then c.fifo.drop cells.length else c.fifo
      dar := b.after (cells.length / b.beat) }
  let done := s'.storeCells n cells
  if cells.length = b.size then done.retire 1
  else takeFaultBit fltDataWriteErr done

/-- A store on channel `n` (R561 DMAST): faults with st_data_unavailable when the FIFO holds too few bytes,
else writes the burst from the FIFO and advances DAR. -/
def storeOp (n : Fin 8) (s : State) : State :=
  let c := s.chan n
  if !s.protAllowed n c.dstProt then takeFaultBit fltRdwrErr s
  else if c.fifo.length < c.dst.size then takeFaultBit fltStDataUnavailable s
  else writeBurst n (s.storeBytes n) true (s.storeOpen n) s

/-- A zero store on channel `n` (R561 DMASTZ): writes zeros over the burst and advances DAR; the FIFO plays no
part. -/
def storeZeroOp (n : Fin 8) (s : State) : State :=
  let c := s.chan n
  if !s.protAllowed n c.dstProt then takeFaultBit fltRdwrErr s
  else writeBurst n (s.zeroBytes n) false (s.zeroOpen n) s

/-- A conditional instruction of `len` bytes on channel `n`: executed only when the channel's request type is
the condition's (R305), else passed over. -/
def whenCond (cond : Cond) (len : Nat) (f : Fin 8 → State → State) (n : Fin 8) (s : State) : State :=
  if condHolds cond (s.chan n).reqType then f n s else s.retire len

/-- Writes SAR, CCR or DAR of channel `n` (R312, R561 DMAMOV). -/
def movOp (rd : RegId) (imm : Word) (n : Fin 8) (s : State) : State :=
  let c := s.chan n
  match rd with
  | .sar => (s.setChan n { c with sar := imm }).retire 6
  | .dar => (s.setChan n { c with dar := imm }).retire 6
  | .ccr =>
    if swapReserved imm && s.platform.reservedSwapFaults then takeFaultBit fltOperandInvalid s
    else (s.setChan n { c with ccr := imm }).retire 6

/-! ## Meanings -/

/-- DMAMOV (R410, R561); a CCR value with a reserved ES: I4, log 27. -/
def execDmamov (rd : RegId) (imm : Word) (s : State) : Host.Outcome State Fault Refusal :=
  onChannel (movOp rd imm) s

/-- DMALD (R411, R561). -/
def execDmald (s : State) : Host.Outcome State Fault Refusal := onChannel loadOp s

/-- DMALDS: DMALD when the request type is single (R305; log 18). -/
def execDmalds (s : State) : Host.Outcome State Fault Refusal :=
  onChannel (whenCond .single 1 loadOp) s

/-- DMALDB: DMALD when the request type is burst (R305; log 18). -/
def execDmaldb (s : State) : Host.Outcome State Fault Refusal :=
  onChannel (whenCond .burst 1 loadOp) s

/-- DMAST (R412, R561). -/
def execDmast (s : State) : Host.Outcome State Fault Refusal := onChannel storeOp s

/-- DMASTS: DMAST when the request type is single (R305; log 18). -/
def execDmasts (s : State) : Host.Outcome State Fault Refusal :=
  onChannel (whenCond .single 1 storeOp) s

/-- DMASTB: DMAST when the request type is burst (R305; log 18). -/
def execDmastb (s : State) : Host.Outcome State Fault Refusal :=
  onChannel (whenCond .burst 1 storeOp) s

/-- DMASTZ (R413, R561). -/
def execDmastz (s : State) : Host.Outcome State Fault Refusal := onChannel storeZeroOp s

end Sys2Proof.Machine
end

