-- ==== Sys2Proof/Machine/Loops.lean ====
section
/-! DEFINITION. The loop family: DMALP, DMALPEND and its conditional forms (R420..R422; R305, R315, R561). -/

namespace Sys2Proof.Machine

/-- `LC[c] <- b1` with `b1 = iter - 1` (R314, R561 DMALP). -/
def loopStartOp (c : LoopCtr) (iter : Nat) (n : Fin 8) (s : State) : State :=
  (s.setChan n ((s.chan n).setLc c (BitVec.ofNat 8 (iter - 1)))).retire 2

/-- `if LC[c] ≠ 0: LC[c] <- LC[c] - 1; pc <- pc - j else pc <- pc + 2` (R315, R561 DMALPEND). -/
def loopEndOp (c : LoopCtr) (jump : Byte) (n : Fin 8) (s : State) : State :=
  let k := (s.chan n).lc c
  if k = 0 then s.retire 2
  else (s.setChan n ((s.chan n).setLc c (k - 1))).moveOn (· - jump.setWidth 32)

/-- DMALP (R420, R561). -/
def execDmalp (c : LoopCtr) (iter : Nat) (s : State) : Host.Outcome State Fault Refusal :=
  onChannel (loopStartOp c iter) s

/-- DMALPEND (R422, R561). -/
def execDmalpend (c : LoopCtr) (jump : Byte) (s : State) : Host.Outcome State Fault Refusal :=
  onChannel (loopEndOp c jump) s

/-- DMALPENDS: DMALPEND when the request type is single (R305; log 18). -/
def execDmalpends (c : LoopCtr) (jump : Byte) (s : State) : Host.Outcome State Fault Refusal :=
  onChannel (whenCond .single 2 (loopEndOp c jump)) s

/-- DMALPENDB: DMALPEND when the request type is burst (R305; log 18). -/
def execDmalpendb (c : LoopCtr) (jump : Byte) (s : State) : Host.Outcome State Fault Refusal :=
  onChannel (whenCond .burst 2 (loopEndOp c jump)) s

end Sys2Proof.Machine
end

