-- ==== Sys2Proof/Machine/Events.lean ====
section
/-! DEFINITION. The event and peripheral family: DMASEV, DMAWFE, DMAWFP, DMAFLUSHP (R430..R433; R144, R152, R825). -/

namespace Sys2Proof.Machine

/-- A thread shows that it waits, and for which event or peripheral (R142, R152; what the wakeup number of a CSR
holds is logs 19 and 21); its pc stays at the instruction. An instruction of the debug interface, which is at no pc, makes its thread wait for nothing
(DESIGN CHOICE, log 14). -/
def State.waitFor (s : State) (t : Thread) (status : BitVec 4) (number : Fin 32) : State :=
  if s.active.origin = .debug then s
  else
  match t with
  | .manager =>
    { s with engine := { s.engine with dsr := withWakeup (withStatus s.engine.dsr status) number } }
  | .channel n =>
    s.setChan n { s.chan n with csr := withWakeup (withStatus (s.chan n).csr status) number }

/-- DMASEV (R430, R561): moves on and signals the event, or faults where the thread's security may not use it
(R151, R821). -/
def execDmasev (event : Fin 32) (s : State) : Host.Outcome State Fault Refusal :=
  .next (if s.eventAllowed s.active.thread event then (s.retire 2).signalEvent event
    else takeFaultBit fltEvntErr s)

/-- DMAWFE (R431): takes the event if it is active, else waits for it; the invalidate form empties the
engine's instruction cache (log 21). -/
def execDmawfe (event : Fin 32) (invalidate : Bool) (s : State) : Host.Outcome State Fault Refusal :=
  let s' : State :=
    if invalidate then { s with engine := { s.engine with icache := [] } } else s
  .next (
    if !s.eventAllowed s.active.thread event then takeFaultBit fltEvntErr s
    else if s.engine.events.getLsbD event.val then
      { s' with engine := { s'.engine with events := clearBit s'.engine.events event.val } }.retire 2
    else s'.waitFor s.active.thread stWaitEvent event)

/-- Records in CSRn which form of DMAWFP channel `n` executes: dmawfp_b_ns is 1 for the burst form, dmawfp_periph
for the periph form, whether or not the thread then waits. R152 gives these bits their names only
(PRESUMED, log 19). -/
def State.markWfp (s : State) (n : Fin 8) (type : WfpType) : State :=
  s.setChan n { s.chan n with
    csr := putBit (putBit (s.chan n).csr wfpBurstBit (type == .burst)) wfpPeriphBit (type == .periph) }

/-- DMAWFP on channel `n` (R432): goes on with the request type its form gives when the peripheral raises a
request that fits, taking the request, else waits (log 19). -/
def waitPeriphOp (type : WfpType) (p : Fin 32) (n : Fin 8) (s : State) : State :=
  if !s.periphAllowed n p then takeFaultBit fltPeriphErr s
  else
    let s' := s.markWfp n type
    match wfpMatch type s.engine.periph[p] with
    | some t =>
      let s'' := s'.setChan n { s'.chan n with reqType := t }
      { s'' with engine := { s''.engine with periph := s''.engine.periph.set p none } }.retire 2
    | none => s'.waitFor (.channel n) stWaitPeriph p

/-- DMAWFP single (R318, R432). -/
def execDmawfpSingle (p : Fin 32) (s : State) : Host.Outcome State Fault Refusal :=
  onChannel (waitPeriphOp .single p) s

/-- DMAWFP periph (R318, R432). -/
def execDmawfpPeriph (p : Fin 32) (s : State) : Host.Outcome State Fault Refusal :=
  onChannel (waitPeriphOp .periph p) s

/-- DMAWFP burst (R318, R432). -/
def execDmawfpBurst (p : Fin 32) (s : State) : Host.Outcome State Fault Refusal :=
  onChannel (waitPeriphOp .burst p) s

/-- DMAFLUSHP on channel `n` (R433): drops the peripheral's request (log 20). -/
def flushPeriphOp (p : Fin 32) (n : Fin 8) (s : State) : State :=
  if !s.periphAllowed n p then takeFaultBit fltPeriphErr s
  else { s with engine := { s.engine with periph := s.engine.periph.set p none } }.retire 2

/-- DMAFLUSHP (R433). -/
def execDmaflushp (p : Fin 32) (s : State) : Host.Outcome State Fault Refusal :=
  onChannel (flushPeriphOp p) s

end Sys2Proof.Machine
end

