-- ==== Sys2Proof/Machine/Control.lean ====
section
/-! DEFINITION. The barriers, the control and thread instructions, and the excluded instructions (R225, R340,
R440..R453). -/

namespace Sys2Proof.Machine

/-! ## Barriers (R225) -/

/-- DMARMB (R440): every earlier read of the thread is complete, for a load completes in its own step; nothing
is left to wait for (R561). -/
def execDmarmb (s : State) : Host.Outcome State Fault Refusal := onChannel (fun _ s => s.retire 1) s

/-- DMAWMB (R441): waits until the thread's earlier writes have completed, here by completing them (R225,
R561; log 30). -/
def execDmawmb (s : State) : Host.Outcome State Fault Refusal :=
  onChannel (fun n s => (s.completeWrites n).retire 1) s

/-! ## End and no-operation -/

/-- DMAEND on channel `n`: the thread stops (R561). Its queued writes are complete where a stop implies it
(R224); bytes left in the FIFO become any value (I23; log 24). -/
def endOp (n : Fin 8) (s : State) : State :=
  let s₁ := if s.platform.stopImpliesWritesDone then s.completeWrites n else s
  let s₂ :=
    if (s₁.chan n).fifo = [] then s₁
    else (s₁.setChan n { s₁.chan n with fifo := Config.freeBytes s.draws }).drawn 1
  s₂.setThreadStatus (.channel n) stStopped

/-- DMAEND (R450, R561). -/
def execDmaend (s : State) : Host.Outcome State Fault Refusal :=
  match s.active.thread with
  | .channel n => .next (endOp n s)
  | .manager => .next (s.setThreadStatus .manager stStopped)

/-- DMANOP (R451, R343, R561). -/
def execDmanop (s : State) : Host.Outcome State Fault Refusal := .next (s.retire 1)

/-! ## Threads -/

/-- The fault of an instruction its thread may not execute, where the spec says "FTRn[0] or FTRn[1]" (I3): a
free choice between undef_instr and operand_invalid. -/
def takeUndefOrInvalid (s : State) : State :=
  takeFaultBit (if Config.freeBool s.draws then fltUndefInstr else fltOperandInvalid) (s.drawn 1)

/-- Starts channel `cn` at an address (R153, R711): its pc is the address, it is Executing and no longer
Stopped (R617), it runs non-secure as `ns` says (R152), and its FIFO is empty (R562; log 22). -/
def startThread (ns : Bool) (cn : Fin 8) (addr : Word) (s : State) : State :=
  let c := s.chan cn
  s.setChan cn { c with
    pc := addr
    csr := putBit (withStatus c.csr stExecuting) cnsBit ns
    fifo := [] }

/-- DMAGO (R452): on the manager thread, starts the channel if it is Stopped; on a channel thread it faults
(I3). A start its security forbids is dmago_err (R150, R830; log 29). -/
def execDmago (ns : Bool) (cn : Fin 8) (addr : Word) (s : State) : Host.Outcome State Fault Refusal :=
  .next (
    match s.active.thread with
    | .channel _ => takeUndefOrInvalid s
    | .manager =>
      if !s.goAllowed ns cn then takeFaultBit fltDmagoErr s
      else if s.threadStatus (.channel cn) = stStopped then (startThread ns cn addr s).retire 6
      else s.retire 6)

/-- DMAKILL (R453): from the debug interface it stops its thread (R712); fetched from memory it stops the
thread or faults it, as the platform's `KILL_FROM_MEMORY` says (I3; log 23). -/
def execDmakill (s : State) : Host.Outcome State Fault Refusal :=
  .next (
    if s.active.origin = .debug || s.platform.killFromMemoryStops then killThread s.active.thread s
    else takeFault (Config.freeWord s.draws) (s.drawn 1))

/-! ## Excluded instructions (R340): an engine that fetches one takes the undefined-instruction fault
(I5, R821; log 32) -/

/-- DMAADDH (R340, I5). -/
def execDmaaddh (_ra : AddrReg) (_imm : BitVec 16) (s : State) : Host.Outcome State Fault Refusal :=
  .next (takeFaultBit fltUndefInstr s)

/-- DMAADNH (R340, I5). -/
def execDmaadnh (_ra : AddrReg) (_imm : BitVec 16) (s : State) : Host.Outcome State Fault Refusal :=
  .next (takeFaultBit fltUndefInstr s)

/-- DMALDPS (R340, I5). -/
def execDmaldps (_p : Fin 32) (s : State) : Host.Outcome State Fault Refusal :=
  .next (takeFaultBit fltUndefInstr s)

/-- DMALDPB (R340, I5). -/
def execDmaldpb (_p : Fin 32) (s : State) : Host.Outcome State Fault Refusal :=
  .next (takeFaultBit fltUndefInstr s)

/-- DMASTPS (R340, I5). -/
def execDmastps (_p : Fin 32) (s : State) : Host.Outcome State Fault Refusal :=
  .next (takeFaultBit fltUndefInstr s)

/-- DMASTPB (R340, I5). -/
def execDmastpb (_p : Fin 32) (s : State) : Host.Outcome State Fault Refusal :=
  .next (takeFaultBit fltUndefInstr s)

/-- DMALPFE (R340, I5). -/
def execDmalpfe (_c : LoopCtr) (_jump : Byte) (s : State) : Host.Outcome State Fault Refusal :=
  .next (takeFaultBit fltUndefInstr s)

end Sys2Proof.Machine
end

