-- ==== Sys2Proof/Machine/Dispatch.lean ====
section
/-! DEFINITION. One arm per instruction: what the active engine thread does with it. -/

namespace Sys2Proof.Machine

def exec (i : Instr) (s : State) : Host.Outcome State Fault Refusal :=
  match i with
  | .dmaend => Sys2Proof.Machine.execDmaend s
  | .dmakill => Sys2Proof.Machine.execDmakill s
  | .dmald => Sys2Proof.Machine.execDmald s
  | .dmalds => Sys2Proof.Machine.execDmalds s
  | .dmaldb => Sys2Proof.Machine.execDmaldb s
  | .dmast => Sys2Proof.Machine.execDmast s
  | .dmasts => Sys2Proof.Machine.execDmasts s
  | .dmastb => Sys2Proof.Machine.execDmastb s
  | .dmastz => Sys2Proof.Machine.execDmastz s
  | .dmarmb => Sys2Proof.Machine.execDmarmb s
  | .dmawmb => Sys2Proof.Machine.execDmawmb s
  | .dmanop => Sys2Proof.Machine.execDmanop s
  | .dmalp c iter => Sys2Proof.Machine.execDmalp c iter s
  | .dmalpend c jump => Sys2Proof.Machine.execDmalpend c jump s
  | .dmalpends c jump => Sys2Proof.Machine.execDmalpends c jump s
  | .dmalpendb c jump => Sys2Proof.Machine.execDmalpendb c jump s
  | .dmawfpSingle periph => Sys2Proof.Machine.execDmawfpSingle periph s
  | .dmawfpPeriph periph => Sys2Proof.Machine.execDmawfpPeriph periph s
  | .dmawfpBurst periph => Sys2Proof.Machine.execDmawfpBurst periph s
  | .dmasev event => Sys2Proof.Machine.execDmasev event s
  | .dmaflushp periph => Sys2Proof.Machine.execDmaflushp periph s
  | .dmawfe event invalidate => Sys2Proof.Machine.execDmawfe event invalidate s
  | .dmago ns cn addr => Sys2Proof.Machine.execDmago ns cn addr s
  | .dmamov rd imm => Sys2Proof.Machine.execDmamov rd imm s
  | .dmaaddh ra imm => Sys2Proof.Machine.execDmaaddh ra imm s
  | .dmaadnh ra imm => Sys2Proof.Machine.execDmaadnh ra imm s
  | .dmaldps periph => Sys2Proof.Machine.execDmaldps periph s
  | .dmaldpb periph => Sys2Proof.Machine.execDmaldpb periph s
  | .dmastps periph => Sys2Proof.Machine.execDmastps periph s
  | .dmastpb periph => Sys2Proof.Machine.execDmastpb periph s
  | .dmalpfe c jump => Sys2Proof.Machine.execDmalpfe c jump s

end Sys2Proof.Machine
end

