-- ==== Sys2Proof/Machine/Engine.lean ====
section
/-! DEFINITION. The engine at work: instruction fetch, one step of a thread, the debug interface, the activities that
happen without a command, and the controller reset. -/

namespace Sys2Proof.Machine

/-! ## Instruction fetch (R206, R230, R232, R345) -/

/-- The cached byte of an address. -/
def icacheGet : List (Word × Byte) → Word → Option Byte
  | [], _ => none
  | (b, v) :: l, a => if a = b then some v else icacheGet l a

/-- Caches a byte. -/
def icachePut (l : List (Word × Byte)) (a : Word) (v : Byte) : List (Word × Byte) :=
  (a, v) :: l.filter fun c => c.1 != a

/-- Byte `i` of the instruction being fetched, at address `a`: what memory holds there when the fetch is
coherent, or a stale cached byte where that may happen (R232; a free choice), or any value when it
is not coherent (R230, I27). -/
def State.fetchByte (s : State) (i : Nat) (a : Word) : Byte :=
  if s.platform.fetchCoherent then
    if s.platform.icacheMayBeStale then
      match icacheGet s.engine.icache a with
      | some v => if Config.freeBool (s.draws + i) then v else s.byteAt a
      | none => s.byteAt a
    else s.byteAt a
  else Config.freeByte (s.draws + i)

/-- The `n` bytes fetched from an address on. -/
def State.fetchBytes (s : State) (pc : Word) (n : Nat) : List Byte :=
  (List.range n).map fun i => s.fetchByte i (pc + BitVec.ofNat 32 i)

/-- Whether the `n` bytes from an address on hold memory. -/
def State.fetchMapped (s : State) (pc : Word) (n : Nat) : Bool :=
  (List.range n).all fun i => s.mappedAt (pc + BitVec.ofNat 32 i)

/-- The bytes of the instruction at an address, as many as its first byte says (R345): the first byte alone
where it is undefined; `none` where one of them lies outside memory (I20). The spec gives instr_fetch_err and
the faults of what is fetched no priority: where a later byte of an excluded opcode or of a reserved operand
lies outside memory, instr_fetch_err comes first (DESIGN CHOICE, log 33). -/
def State.fetch (s : State) (pc : Word) : Option (List Byte) :=
  let n := (instrLength (s.fetchByte 0 pc)).getD 1
  if s.fetchMapped pc n then some (s.fetchBytes pc n) else none

/-- The fetched bytes enter the instruction cache, where it may later be stale, and the free values of a fetch
are used up. A coherent fetch with no stale cache leaves the state as it is. -/
def State.afterFetch (s : State) (pc : Word) (bs : List Byte) : State :=
  if s.platform.icacheMayBeStale then
    { s with engine := { s.engine with
        icache := bs.zipIdx.foldl (fun l (b : Byte × Nat) => icachePut l (pc + BitVec.ofNat 32 b.2) b.1)
          s.engine.icache } }.drawn 6
  else if s.platform.fetchCoherent then s
  else s.drawn 6

/-! ## Threads -/

/-- Whether a first byte is one of those excluded from the encoder (R340). -/
def excludedOpcode (b0 : Byte) : Bool :=
  [0x25#8, 0x27#8, 0x28#8, 0x29#8, 0x2B#8, 0x2C#8, 0x54#8, 0x56#8, 0x5C#8, 0x5E#8].contains b0

/-- The fault of bytes that are no instruction (R151, R312, R341, R342): an excluded first byte is undef_instr
whatever follows it (R340, R821, I5). -/
def decodeFault : DecodeError → Nat
  | .truncated => fltUndefInstr
  | .undefinedOpcode _ => fltUndefInstr
  | .reservedOperand b0 _ => if excludedOpcode b0 then fltUndefInstr else fltOperandInvalid

/-- The active thread executes the instruction of the given bytes, or takes the fault of bytes that are
none. -/
def runBytes (bs : List Byte) (s : State) : Host.Outcome State Fault Refusal :=
  match decode bs with
  | .ok (i, _) => exec i s
  | .error e => .next (takeFaultBit (decodeFault e) s)

/-- The state in which thread `t` is the active one, executing from memory. -/
def State.activate (s : State) (t : Thread) : State :=
  { s with active := { thread := t, origin := .memory } }

/-- One step of a thread: it fetches the instruction at its pc and executes it (R561). A stopped or faulting
thread, and every thread while the controller is held in reset, does nothing; an instruction
outside memory is instr_fetch_err (I20). The bytes are taken as they lie: a program whose inserted loop
splits an instruction (R421, R423), whose execution I18 leaves at any value, runs as its bytes decode
(DESIGN CHOICE, log 51); and of a program that its transfer overlaps, whose execution I7 leaves at any
value, the bytes that no store has overwritten run as they were encoded (DESIGN CHOICE, log 48). -/
def threadStep (t : Thread) (s : State) : Host.Outcome State Fault Refusal :=
  if s.board.resetHeld || !runs (s.threadStatus t) then .next s
  else
    let pc := s.threadPc t
    match s.fetch pc with
    | none => .next (takeFaultBit fltInstrFetchErr (s.activate t))
    | some bs => runBytes bs ((s.afterFetch pc bs).activate t)

/-! ## The debug interface (R155..R158, R216) -/

/-- The instruction bytes of DBGINST0 and DBGINST1 (R157, R158). -/
def debugBytes (w0 w1 : Word) : List Byte :=
  [byteOf w0 2, byteOf w0 3, byteOf w1 0, byteOf w1 1, byteOf w1 2, byteOf w1 3]

/-- The thread a debug instruction is for (R157). -/
def debugThread (w0 : Word) : Thread :=
  if w0.getLsbD 0 then .channel (w0.extractLsb' 8 3).toFin else .manager

/-- The engine executes the instruction held in DBGINST0/1 on its thread (R216), whatever the thread's status: on
a Faulting thread too, of which the spec does not say whether it still executes a DMAGO or DMASEV (R711,
R713; DESIGN CHOICE, log 16). -/
def executeDebug (s : State) : Host.Outcome State Fault Refusal :=
  runBytes (debugBytes s.engine.dbginst0 s.engine.dbginst1)
    { s with
      active := { thread := debugThread s.engine.dbginst0, origin := .debug }
      engine := { s.engine with dbgPending := false } }

/-- The debug interface becomes idle, having executed the triggered instruction (R155). -/
def debugRun (s : State) : Host.Outcome State Fault Refusal :=
  if s.board.resetHeld then .next s
  else
    andThen (if s.engine.dbgPending then executeDebug s else .next s) fun s =>
      .next { s with engine := { s.engine with dbgstatus := clearBit s.engine.dbgstatus 0 } }

/-- The interface is busy and the instruction of DBGINST0/1 is triggered (R155, R216). -/
def Engine.trigger (e : Engine) : Engine :=
  { e with dbgstatus := setBit e.dbgstatus 0, dbgPending := true }

/-- The write of 0 to DBGCMD (R156, R216): the interface is busy and the instruction triggered. Where
`GO_VISIBLE_AT_IDLE` holds its effect is there when the write has completed (R617, D59; log 13). -/
def triggerDebug (s : State) : State :=
  let s' : State := { s with engine := s.engine.trigger }
  if s.platform.goVisibleAtIdle then leftIn (executeDebug s') s' else s'

/-! ## Activities -/

/-- A thread that is not Faulting already faults for a reason outside its instruction (R161, R820). -/
def asyncFault (t : Thread) (bits : Word) (s : State) : State :=
  if s.board.resetHeld || s.threadStatus t == stFaulting then s
  else takeFault bits (s.activate t)

/-- Whether a thread that shows `old` may show `new` next (log 45). The manager, running, shows the values of
R142. A channel that is neither Stopped nor Faulting shows any value but these two (I10), Faulting
completing among them (R152); one that is Faulting stays so until it is killed or reset (R662). Waiting for
event is shown by DMAWFE alone. -/
def mayShow (t : Thread) (old new : BitVec 4) : Bool :=
  match t with
  | .manager => runs old && [0x1#4, 0x2#4, 0x3#4].contains new
  | .channel _ =>
    old != stStopped && old != stFaulting && new != stStopped && new != stFaulting && new != stWaitEvent

/-- A thread shows another status value (R142, R152, I10). FSRC, FSRD and the fault types stay as they are: also
where a channel shows Faulting completing, of which the spec does not say whether it counts as faulting
for FSRC (R149; DESIGN CHOICE, log 45). -/
def showStatus (t : Thread) (v : BitVec 4) (s : State) : State :=
  if s.board.resetHeld || !mayShow t (s.threadStatus t) v then s else s.setThreadStatus t v

/-- A request is raised on a request line. -/
def raiseRequest (p : Fin 32) (ty : ReqType) (s : State) : State :=
  { s with engine := { s.engine with periph := s.engine.periph.set p (some ty) } }

/-- The board's peripheral of an identity raises a request on the line that the peripheral-ID table of the
board family and the peripheral mux of the applied board configuration give it (R20, R21, R730; log 19). -/
def peripheralRequest (id : Nat) (ty : ReqType) (s : State) : State :=
  match Config.peripheralLine s.platform.boardFamily s.board.hwConfig id with
  | none => s
  | some p => raiseRequest p ty s

/-- One activity. -/
def runActivity (a : Activity) (s : State) : Host.Outcome State Fault Refusal :=
  match a with
  | .thread t => threadStep t s
  | .debugRun => debugRun s
  | .asyncFault t bits => .next (asyncFault t bits s)
  | .kill t => .next (killThread t s)
  | .showStatus t v => .next (showStatus t v s)
  | .periphRequest p ty => .next (raiseRequest p ty s)
  | .peripheral id ty => .next (peripheralRequest id ty s)
  | .drainWrite n => .next (s.drainWrite n)
  | .hostWrite a v => .next { s with mem := memWrite s.mem a.toNat v }

/-- Activities one after another; where one answers no next state, the state stays as it was (no meaning of
`exec` does so: `exec_next` in Laws/Exec.lean). -/
def runActivities (as : List Activity) (s : State) : State :=
  as.foldl (fun s a => leftIn (runActivity a s) s) s

/-! ## The controller reset (R171, R902, R912) -/

/-- The registers of the map of R141 that can be read. -/
inductive RdReg where
  | dsr | dpc | inten | intEventRis | intmis | fsrd | fsrc | ftrd
  | ftr (n : Fin 8) | csr (n : Fin 8) | cpc (n : Fin 8)
  | sar (n : Fin 8) | dar (n : Fin 8) | ccr (n : Fin 8) | lc0 (n : Fin 8) | lc1 (n : Fin 8)
  | dbgstatus
  | cr (n : Fin 5) | crd | wd
  deriving DecidableEq, Repr

/-- Register offsets (R141). -/
def RdReg.offset : RdReg → Nat
  | .dsr => 0x000
  | .dpc => 0x004
  | .inten => 0x020
  | .intEventRis => 0x024
  | .intmis => 0x028
  | .fsrd => 0x030
  | .fsrc => 0x034
  | .ftrd => 0x038
  | .ftr n => 0x040 + 4 * n.val
  | .csr n => 0x100 + 8 * n.val
  | .cpc n => 0x104 + 8 * n.val
  | .sar n => 0x400 + 0x20 * n.val
  | .dar n => 0x404 + 0x20 * n.val
  | .ccr n => 0x408 + 0x20 * n.val
  | .lc0 n => 0x40C + 0x20 * n.val
  | .lc1 n => 0x410 + 0x20 * n.val
  | .dbgstatus => 0xD00
  | .cr n => 0xE00 + 4 * n.val
  | .crd => 0xE14
  | .wd => 0xE80

/-- The registers of the map of R141 that can be written. -/
inductive WrReg where
  | inten | intclr | dbgcmd | dbginst0 | dbginst1 | wd
  deriving DecidableEq, Repr

/-- Register offsets (R141). -/
def WrReg.offset : WrReg → Nat
  | .inten => 0x020
  | .intclr => 0x02C
  | .dbgcmd => 0xD04
  | .dbginst0 => 0xD08
  | .dbginst1 => 0xD0C
  | .wd => 0xE80

/-- A register's value (R142..R159). Bits [31:8] of LC0n and LC1n, whose counters are 8 bits wide (R154, R170),
read 0 (DESIGN CHOICE, log 53). -/
def Engine.read (e : Engine) : RdReg → Word
  | .dsr => e.dsr
  | .dpc => e.dpc
  | .inten => e.inten
  | .intEventRis => e.intEventRis
  | .intmis => e.intmis
  | .fsrd => e.fsrd
  | .fsrc => e.fsrc
  | .ftrd => e.ftrd
  | .ftr n => e.chan[n].ftr
  | .csr n => e.chan[n].csr
  | .cpc n => e.chan[n].pc
  | .sar n => e.chan[n].sar
  | .dar n => e.chan[n].dar
  | .ccr n => e.chan[n].ccr
  | .lc0 n => e.chan[n].lc0.setWidth 32
  | .lc1 n => e.chan[n].lc1.setWidth 32
  | .dbgstatus => e.dbgstatus
  | .cr n => e.cr[n]
  | .crd => e.crd
  | .wd => e.wd

/-- The regions of the register block (R140). -/
inductive RegRegion where
  | control | threadStatus | axiStatus | debugPort | configuration
  deriving DecidableEq, Repr

/-- The region an offset of the block lies in (R140). -/
def regRegion (off : Nat) : RegRegion :=
  if off < 0x100 then .control
  else if off < 0x400 then .threadStatus
  else if off < 0xD00 then .axiStatus
  else if off < 0xE00 then .debugPort
  else .configuration

/-- Every register that can be read. -/
def rdRegs : List RdReg :=
  [.dsr, .dpc, .inten, .intEventRis, .intmis, .fsrd, .fsrc, .ftrd, .dbgstatus, .crd, .wd] ++
    allChannels.flatMap (fun n =>
      [.ftr n, .csr n, .cpc n, .sar n, .dar n, .ccr n, .lc0 n, .lc1 n]) ++
    [.cr 0, .cr 1, .cr 2, .cr 3, .cr 4]

/-- Every register that can be written. -/
def wrRegs : List WrReg := [.inten, .intclr, .dbgcmd, .dbginst0, .dbginst1, .wd]

/-- A register write's effect on the engine (R144, R147, R156..R159, R216). Of DBGCMD only the value 0 is ever
written (I12, R700); when the triggered instruction has its effect `triggerDebug` says. -/
def Engine.write (e : Engine) (r : WrReg) (v : Word) : Engine :=
  match r with
  | .inten => { e with inten := v }
  | .intclr => { e with irqs := e.irqs &&& ~~~v }
  | .dbgcmd => if v.extractLsb' 0 2 = 0 then e.trigger else e
  | .dbginst0 => { e with dbginst0 := v }
  | .dbginst1 => { e with dbginst1 := v }
  | .wd => { e with wd := v }

/-- A channel thread after the controller reset of draw `k`: Stopped (R171), its registers any value (R902,
I11), its FIFO empty, its queued writes still on their way (log 30, log 34). -/
def resetChannel (k : Nat) (n : Fin 8) (c : Channel) : Channel where
  sar := Config.freeReg k (RdReg.offset (.sar n))
  dar := Config.freeReg k (RdReg.offset (.dar n))
  ccr := Config.freeReg k (RdReg.offset (.ccr n))
  lc0 := (Config.freeReg k (RdReg.offset (.lc0 n))).setWidth 8
  lc1 := (Config.freeReg k (RdReg.offset (.lc1 n))).setWidth 8
  pc := Config.freeReg k (RdReg.offset (.cpc n))
  fifo := []
  csr := withStatus (Config.freeReg k (RdReg.offset (.csr n))) stStopped
  ftr := Config.freeReg k (RdReg.offset (.ftr n))
  reqType := if Config.freeBool (k + n.val) then .single else .burst
  writes := c.writes

/-- CR0..CR4 after the controller reset of draw `k`: any value (I11). -/
def resetCr (k : Nat) : Vector Word 5 :=
  #v[Config.freeReg k (RdReg.offset (.cr 0)), Config.freeReg k (RdReg.offset (.cr 1)),
    Config.freeReg k (RdReg.offset (.cr 2)), Config.freeReg k (RdReg.offset (.cr 3)),
    Config.freeReg k (RdReg.offset (.cr 4))]

/-- The engine after the controller reset of draw `k`: every channel and the manager Stopped, no fault, the
debug interface idle, INTEN = 0 (R171, R902, R912); every other register any value (I11); the security
configuration is the one that the board's configuration and the configuration registers give (R830). -/
def resetEngine (f : BoardFamily) (hw : Option HwConfig) (k : Nat) (e : Engine) : Engine where
  chan := #v[resetChannel k 0 e.chan[0], resetChannel k 1 e.chan[1], resetChannel k 2 e.chan[2],
    resetChannel k 3 e.chan[3], resetChannel k 4 e.chan[4], resetChannel k 5 e.chan[5],
    resetChannel k 6 e.chan[6], resetChannel k 7 e.chan[7]]
  dsr := withStatus (Config.freeReg k (RdReg.offset .dsr)) stStopped
  dpc := Config.freeReg k (RdReg.offset .dpc)
  fsrd := 0
  fsrc := 0
  ftrd := Config.freeReg k (RdReg.offset .ftrd)
  inten := 0
  events := Config.freeReg k (RdReg.offset .intEventRis)
  irqs := Config.freeReg k (RdReg.offset .intmis)
  dbgstatus := clearBit (Config.freeReg k (RdReg.offset .dbgstatus)) 0
  dbgPending := false
  dbginst0 := Config.freeReg k (WrReg.offset .dbginst0)
  dbginst1 := Config.freeReg k (WrReg.offset .dbginst1)
  cr := resetCr k
  crd := Config.freeReg k (RdReg.offset .crd)
  wd := Config.freeReg k (RdReg.offset .wd)
  icache := e.icache
  periph := e.periph
  security := Config.security f hw (resetCr k) (Config.freeReg k (RdReg.offset .crd))

/-- ResetAssert (R200): the controller is held in reset. -/
def resetAssert (s : State) : State := { s with board := { s.board with resetHeld := true } }

/-- ResetRelease (R200, R902): the controller leaves reset. -/
def resetRelease (s : State) : State :=
  { s with
    board := { s.board with resetHeld := false }
    engine := resetEngine s.platform.boardFamily s.board.hwConfig s.draws s.engine }.drawn 8

/-- ApplyHwConfig (R200). -/
def applyHwConfig (cfg : HwConfig) (s : State) : State :=
  { s with board := { s.board with hwConfig := some cfg } }

/-! ## DPES's register accesses (R160, R161, R221) -/

/-- What the environment does before the next register access (R161). -/
def State.gap (s : State) : State :=
  match s.gaps with
  | [] => s
  | g :: rest => runActivities g { s with gaps := rest }

/-- The offset of an address in the register block at `base`, if it lies in its 4096 bytes (R140, R200). -/
def blockOffset (base a : Word) : Option Nat :=
  if (a - base).toNat < Config.regBlockBytes then some (a - base).toNat else none

/-- A 32-bit read at an address of the engine register space whose block stands at `base` (R140, R208). What is
no readable register reads any value (I2); DPES reads no such address (R160). -/
def State.spaceRead (s : State) (base a : Word) : Word :=
  match (blockOffset base a).bind fun off => rdRegs.find? fun r => r.offset == off with
  | some r => s.engine.read r
  | none => Config.freeReg s.draws (a - base).toNat

/-- A 32-bit write at an address of the engine register space whose block stands at `base` (R140, R208, R216).
DPES writes no other address than those of `wrRegs`, and 0 only to DBGCMD (R160, I2, I12). -/
def State.spaceWrite (s : State) (base a v : Word) : State :=
  match (blockOffset base a).bind fun off => wrRegs.find? fun r => r.offset == off with
  | some .dbgcmd => if v.extractLsb' 0 2 = 0 then triggerDebug s else s
  | some r => { s with engine := s.engine.write r v }
  | none => s

/-- `RegRead` (R26) of the block at `ctx.base`: the value the register holds at this moment. -/
def regRead (base : Word) (r : RdReg) (s : State) : State × Word :=
  let s' := s.gap
  (s', s'.spaceRead base (base + BitVec.ofNat 32 r.offset))

/-- `RegWrite` (R26) to the block at `ctx.base`. -/
def regWrite (base : Word) (r : WrReg) (v : Word) (s : State) : State :=
  s.gap.spaceWrite base (base + BitVec.ofNat 32 r.offset) v

/-- Whether the debug interface reads busy, DBGSTATUS[0] = 1 (R155). -/
def State.dbgBusy (s : State) (base : Word) : Bool :=
  (s.spaceRead base (base + BitVec.ofNat 32 (RdReg.offset .dbgstatus))).getLsbD 0

/-- `hold until RegRead(DBGSTATUS)[0] = 0` over the gaps that are left (R222, R706): re-reads until the busy
flag is clear; `none` when the environment never clears it (I16). -/
def holdIdle (base : Word) : List (List Activity) → State → Option State
  | [], s => if s.dbgBusy base then none else some { s with gaps := [] }
  | g :: rest, s =>
    let s' := runActivities g { s with gaps := rest }
    if s'.dbgBusy base then holdIdle base rest s' else some s'

end Sys2Proof.Machine
end

