-- ==== Sys2Proof/Machine/Encoder.lean ====
section
/-! DEFINITION. The instruction encoder (40_encoder.md): the buffer commands, the append primitive, and every encoder
command, each an edit of one program buffer. -/

namespace Sys2Proof.Machine

/-! ## Replies (R801) -/

/-- What a command answers. -/
abbrev Result := Host.Outcome (State × Response) Fault Refusal

/-- A response without a record. -/
def response (status : Status) (payload : Word) : Response :=
  { status := status, payload := payload, record := none }

/-- A command that ends with a response. -/
def reply (s : State) (status : Status) (payload : Word) : Result := .next (s, response status payload)

/-- A command that ends with a status and payload 0 (R407, R801). -/
def replyStatus (s : State) (status : Status) : Result := reply s status 0

/-! ## Edits of a buffer -/

/-- What an encoder command does to its buffer: the buffer's record after it, and the bytes it writes in
order, by offset. -/
structure Edit where
  buffer : Buffer
  writes : List (Nat × Byte)
  deriving DecidableEq, Repr

/-- The capacity test of R403: `P.len + k + 1 ≤ P.cap`. -/
def Buffer.room (P : Buffer) (k : Nat) : Bool := decide (P.len + k + 1 ≤ P.cap)

/-- Bytes at consecutive offsets from `start` on. -/
def offsetWrites (start : Nat) : List Byte → List (Nat × Byte)
  | [] => []
  | b :: bs => (start, b) :: offsetWrites (start + 1) bs

/-- `Append(P, bytes)` (R403): the bytes at `P.len`, then the END sentinel. -/
def appendBytes (P : Buffer) (bytes : List Byte) : Edit where
  buffer := { P with len := P.len + bytes.length }
  writes := offsetWrites P.len (bytes ++ [0x00])

/-- The capacity check and the append of one instruction (R403, R404 check 4). -/
def emit (P : Buffer) (i : Instr) : Except Status Edit :=
  if P.room (encode i).length then .ok (appendBytes P (encode i)) else .error .noSpace

/-! ## Loop bookkeeping (R104) -/

/-- The number of a loop counter. -/
def ctrIndex : LoopCtr → Nat
  | .lc0 => 0
  | .lc1 => 1

/-- The loop counter of a number; there are two (R11). -/
def loopCtrOf : Nat → Option LoopCtr
  | 0 => some .lc0
  | 1 => some .lc1
  | _ => none

/-- Whether a counter is reserved by an open loop. -/
def Buffer.reserved (P : Buffer) (c : LoopCtr) : Bool := P.ctrMask.getLsbD (ctrIndex c)

/-- Opens a loop whose body starts at `start` (R420). -/
def Buffer.openLoop (P : Buffer) (c : LoopCtr) (start : Nat) : Buffer :=
  { P with
    loops := P.loops ++ [(c, start)]
    ctrMask := P.ctrMask ||| (1#2 <<< ctrIndex c)
    depth := P.depth + 1 }

/-- Closes the innermost loop, of counter `c` (R422). -/
def Buffer.closeLoop (P : Buffer) (c : LoopCtr) : Buffer :=
  { P with
    loops := P.loops.dropLast
    ctrMask := P.ctrMask &&& ~~~(1#2 <<< ctrIndex c)
    depth := P.depth - 1 }

/-- Where the innermost open loop's body starts, 0 without one (R421). -/
def Buffer.floor (P : Buffer) : Nat :=
  match P.loops.getLast? with
  | none => 0
  | some (_, start) => start

/-- The counter of a legal loop-start operand pair (R420, R421: `c ∈ {0, 1}`, `n ∈ 1..256`). -/
def loopOperands (c n : Nat) : Option LoopCtr :=
  if n < 1 || Config.maxLoopIter < n then none else loopCtrOf c

/-! ## Loop commands -/

/-- `instLoopStart` after the null check (R420). -/
def loopStartEdit (c n : Nat) (P : Buffer) : Except Status Edit :=
  match loopOperands c n with
  | none => .error .range
  | some k =>
    if P.reserved k then .error .inUse
    else
      match emit P (.dmalp k n) with
      | .error e => .error e
      | .ok ed => .ok { ed with buffer := ed.buffer.openLoop k ed.buffer.len }

/-- The insertion of R421 once its checks have passed: the body and the sentinel move up by two bytes, then
the loop start takes their place. -/
def insertEdit (k : LoopCtr) (n bodyLen : Nat) (P : Buffer) (content : Nat → Byte) : Edit where
  buffer := { P with len := P.len + 2 }.openLoop k (P.len - bodyLen + 2)
  writes :=
    (List.range (bodyLen + 1)).reverse.map (fun i =>
      (P.len - bodyLen + i + 2, content (P.len - bodyLen + i))) ++
    offsetWrites (P.len - bodyLen) (encode (.dmalp k n))

/-- `instLoopInsert` after the null check (R421). -/
def loopInsertEdit (c n bodyLen : Nat) (P : Buffer) (content : Nat → Byte) : Except Status Edit :=
  match loopOperands c n with
  | none => .error .range
  | some k =>
    if P.reserved k then .error .inUse
    else if Config.maxLoopJump < bodyLen || P.len - P.floor < bodyLen then .error .range
    else if P.room 2 then .ok (insertEdit k n bodyLen P content)
    else .error .noSpace

/-- The loop-end instruction of a condition (R422). -/
def loopEndInstr (cond : Cond) (k : LoopCtr) (jump : Byte) : Instr :=
  match cond with
  | .always => .dmalpend k jump
  | .single => .dmalpends k jump
  | .burst => .dmalpendb k jump

/-- `instLoopEnd` after the null check (R422). -/
def loopEndEdit (cond : Option Cond) (P : Buffer) : Except Status Edit :=
  match cond with
  | none => .error .noSupport
  | some cond =>
    if P.depth = 0 then .error .notFound
    else
      match P.loops.getLast? with
      | none => .error .notFound
      | some (k, start) =>
        if Config.maxLoopJump < P.len - start then .error .range
        else
          match emit P (loopEndInstr cond k (BitVec.ofNat 8 (P.len - start))) with
          | .error e => .error e
          | .ok ed => .ok { ed with buffer := ed.buffer.closeLoop k }

/-- `instChLoop` after the null check (R423): the checks of R421 and room for both instructions, then the
loop insert and the loop end, or nothing at all. -/
def chLoopEdit (c n bodyLen : Nat) (P : Buffer) (content : Nat → Byte) : Except Status Edit :=
  match loopInsertEdit c n bodyLen P content with
  | .error e => .error e
  | .ok ins =>
    if P.room 4 then
      match loopEndEdit (some .always) ins.buffer with
      | .error e => .error e
      | .ok fin => .ok { buffer := fin.buffer, writes := ins.writes ++ fin.writes }
    else .error .noSpace

/-! ## Every encoder command (R404, R410..R453) -/

/-- The load instruction of a condition (R411). -/
def loadInstr : Cond → Instr
  | .always => .dmald
  | .single => .dmalds
  | .burst => .dmaldb

/-- The store instruction of a condition (R412). -/
def storeInstr : Cond → Instr
  | .always => .dmast
  | .single => .dmasts
  | .burst => .dmastb

/-- The wait-for-peripheral instruction of a request type (R432). -/
def wfpInstr (type : WfpType) (p : Fin 32) : Instr :=
  match type with
  | .single => .dmawfpSingle p
  | .burst => .dmawfpBurst p
  | .periph => .dmawfpPeriph p

/-- An operand that must name a member of its enumeration (R404 check 2). -/
def needEnum {α : Type} (x : Option α) (f : α → Except Status Edit) : Except Status Edit :=
  match x with
  | none => .error .noSupport
  | some a => f a

/-- An encoder command on buffer `P`, whose bytes are `content`: the edit, or the status of its first failing
check (R404). -/
def encodeOp (op : EncOp) (P : Buffer) (content : Nat → Byte) : Except Status Edit :=
  match op with
  | .mov rd imm => needEnum rd fun rd => emit P (.dmamov rd imm)
  | .load cond => needEnum cond fun cond => emit P (loadInstr cond)
  | .store cond => needEnum cond fun cond => emit P (storeInstr cond)
  | .storeZero => emit P .dmastz
  | .loopStart c n => loopStartEdit c n P
  | .loopInsert c n bodyLen => loopInsertEdit c n bodyLen P content
  | .loopEnd cond => loopEndEdit cond P
  | .chLoop c n bodyLen => chLoopEdit c n bodyLen P content
  | .sendEvent ev =>
    if 31 < ev || ev = Config.eventAborted then .error .range else emit P (.dmasev (Fin.ofNat 32 ev))
  | .waitEvent ev invalidate =>
    if 31 < ev then .error .range else emit P (.dmawfe (Fin.ofNat 32 ev) invalidate)
  | .waitPeriph periph type =>
    if 31 < periph then .error .range
    else needEnum type fun type => emit P (wfpInstr type (Fin.ofNat 32 periph))
  | .flushPeriph periph =>
    if 31 < periph then .error .range else emit P (.dmaflushp (Fin.ofNat 32 periph))
  | .readBarrier => emit P .dmarmb
  | .writeBarrier => emit P .dmawmb
  | .endProgram => emit P .dmaend
  | .nop => emit P .dmanop
  | .go cn addr ns =>
    if 7 < cn then .error .range else emit P (.dmago ns (Fin.ofNat 8 cn) addr)
  | .kill => emit P .dmakill

/-! ## Commands on host buffers -/

/-- Writes an edit's bytes at the buffer's place in memory (R200, R206). -/
def applyWrites (b : Buffer) (writes : List (Nat × Byte)) (m : Memory) : Memory :=
  memWrites m (writes.map fun w => (b.addr w.1, w.2))

/-- Carries out an edit of the live buffer of a handle. -/
def State.applyEdit (s : State) (h : Nat) (b : Buffer) (ed : Edit) : State :=
  { s with
    mem := applyWrites b ed.writes s.mem
    buffers := bufSet s.buffers h ed.buffer }

/-- The common start of a command on a buffer: the null check (R404, R810) and the refusal of an attached
program (R231, I28; log 46). -/
def onBuffer (p : Handle) (s : State) (f : Nat → Buffer → Result) : Result :=
  match s.findBuffer p with
  | none => replyStatus s .nullptr
  | some (h, b) => if s.attached h then .refused .attachedProgram else f h b

/-- An encoder command (R410..R453); a failing one writes nothing (R406). -/
def cmdInst (p : Handle) (op : EncOp) (s : State) : Result :=
  onBuffer p s fun h b =>
    match encodeOp op b (s.bufByte b) with
    | .error e => replyStatus s e
    | .ok ed => replyStatus (s.applyEdit h b ed) .success

/-- A freshly allocated buffer (R106). -/
def freshBuffer (cap : Nat) (base : Word) : Buffer where
  cap := cap
  len := 0
  depth := 0
  ctrMask := 0
  loops := []
  nonSecure := false
  autoFree := false
  base := base
  loose := false

/-- `AllocProgram` without its response (R400): whether storage is obtained is the environment's draw (I22).
The new buffer's END sentinel is written; the buffer does not enter the live buffers yet. -/
def allocBuffer (size base : Word) (obtained : Bool) (s : State) : Except Status (State × Buffer) :=
  if size.toNat < 1 then .error .noSpace
  else if obtained then
    let b := freshBuffer size.toNat base
    .ok ({ s with mem := applyWrites b [(0, 0x00)] s.mem }, b)
  else .error .nullptr

/-- Enters a buffer among the live buffers under a fresh handle. -/
def State.addBuffer (s : State) (b : Buffer) : State :=
  { s with buffers := (s.nextHandle, b) :: s.buffers, nextHandle := s.nextHandle + 1 }

/-- `AllocProgram` (R400); the payload is the buffer's handle (R801, log 8). -/
def cmdAllocProgram (size base : Word) (e : Env) (s : State) : Result :=
  match allocBuffer size base e.allocOk s with
  | .error st => replyStatus s st
  | .ok (s', b) => reply (s'.addBuffer b) .success (BitVec.ofNat 32 s.nextHandle)

/-- `FreeProgram` (R401). -/
def cmdFreeProgram (p : Handle) (s : State) : Result :=
  onBuffer p s fun h _ => replyStatus { s with buffers := bufErase s.buffers h } .success

/-- `SetProgramFlags` (R402). -/
def cmdSetProgramFlags (p : Handle) (nonSecure autoFree : Bool) (s : State) : Result :=
  onBuffer p s fun h b =>
    replyStatus { s with
      buffers := bufSet s.buffers h { b with nonSecure := nonSecure, autoFree := autoFree } } .success

end Sys2Proof.Machine
end

