-- ==== Sys2Proof/Machine/Synth.lean ====
section
/-! DEFINITION. The program synthesizer (41_synthesizer.md): the parameter checks, the arithmetic of the phases, the list
of encoder commands a transfer becomes, and their emission into a new buffer. -/

namespace Sys2Proof.Machine

/-! ## Parameter checks (R501) -/

/-- A parameter record whose values are all legal for the synthesizer. -/
structure LegalParams where
  srcType : SrcType
  dstType : DstType
  srcProt : Nat
  dstProt : Nat
  srcCache : Nat
  dstCache : Nat
  /-- `B`. -/
  burstBytes : Nat
  swap : Swap
  channel : Nat
  burstEnable : Bool
  completionEvent : Bool
  deriving DecidableEq, Repr

/-- `swapBytes` (R501). -/
def swapBytes : Swap → Nat
  | .none => 0
  | .swap16 => 2
  | .swap32 => 4
  | .swap64 => 8
  | .swap128 => 16

/-- The legal word sizes and burst widths (R15). -/
def legalWidth (n : Nat) : Bool := n == 1 || n == 2 || n == 4 || n == 8

/-- The parameter checks of R501, in order, once the chunk is there. -/
def checkParams (prm : XferParams) : Except Status LegalParams :=
  match prm.srcType, prm.dstType, prm.swap with
  | some st, some dt, some sw =>
    if st = .peripheral || dt = .peripheral then .error .noSupport
    else if !legalWidth prm.burstBytes then .error .noSupport
    else if 7 < prm.channel then .error .range
    else if 7 < prm.srcProt || 7 < prm.srcCache || 7 < prm.dstProt || 7 < prm.dstCache then .error .range
    else if prm.burstBytes < swapBytes sw then .error .noSupport
    else .ok {
      srcType := st
      dstType := dt
      srcProt := prm.srcProt
      dstProt := prm.dstProt
      srcCache := prm.srcCache
      dstCache := prm.dstCache
      burstBytes := prm.burstBytes
      swap := sw
      channel := prm.channel
      burstEnable := prm.burstEnable
      completionEvent := prm.completionEvent }
  | _, _, _ => .error .noSupport

/-! ## Skews and derived quantities (R510..R512) -/

/-- `min((0 - a) & (B - 1), L)`: the bytes to the next multiple of the burst width, at most the length (R510). -/
def skew (a : Word) (B : Nat) (L : Word) : Nat :=
  min ((0 - a) &&& (BitVec.ofNat 32 B - 1)).toNat L.toNat

/-- The derived quantities of one transfer (R510, R512). -/
structure Quantities where
  /-- `Rv`, the address moved into SAR. -/
  srcAddr : Word
  /-- `rI`. -/
  readInitial : Nat
  /-- `wI`. -/
  writeInitial : Nat
  zero : Bool
  /-- `sw`, the prefix store's size. -/
  prefixStore : Nat
  lag : Nat
  /-- `F`, full bursts. -/
  full : Nat
  /-- `r`, beats of the remainder burst. -/
  remainder : Nat
  /-- `t`, suffix bytes. -/
  suffix : Nat
  deriving DecidableEq, Repr

/-- The arithmetic of R510 and R512 for source `R`, destination `W` and length `L`. -/
def quantities (prm : LegalParams) (R W L : Word) : Quantities :=
  let zero := prm.srcType == .zero
  let rv := if zero then W else R
  let rI := skew rv prm.burstBytes L
  let wI := skew W prm.burstBytes L
  let sw := if !zero && decide (0 < wI ∧ wI ≤ rI) then wI else if zero then rI else 0
  let rest := L.toNat - rI
  let n := rest / prm.burstBytes
  { srcAddr := rv
    readInitial := rI
    writeInitial := wI
    zero := zero
    prefixStore := sw
    lag := if zero then 0 else rI - sw
    full := n / 16
    remainder := n % 16
    suffix := rest % prm.burstBytes }

/-- Whether the transfer needs strict alignment (R511). -/
def LegalParams.strict (prm : LegalParams) : Bool :=
  prm.srcType == .register || prm.dstType == .register || prm.swap != .none

/-- Whether a strict transfer is misaligned (R511). -/
def misaligned (prm : LegalParams) (q : Quantities) (L : Word) : Bool :=
  prm.strict && decide (0 < L.toNat) &&
    (q.readInitial != 0 || q.writeInitial != 0 || L.toNat % prm.burstBytes != 0)

/-! ## Control words (R321, R520..R522) -/

/-- `ccr(...)` of R321. -/
def ccrWord (si sb sl sp sc di db dl dp dc es : Nat) : Word :=
  BitVec.ofNat 32 si ||| BitVec.ofNat 32 sb <<< 1 ||| BitVec.ofNat 32 sl <<< 4 |||
    BitVec.ofNat 32 sp <<< 8 ||| BitVec.ofNat 32 sc <<< 11 ||| BitVec.ofNat 32 di <<< 14 |||
    BitVec.ofNat 32 db <<< 15 ||| BitVec.ofNat 32 dl <<< 18 ||| BitVec.ofNat 32 dp <<< 22 |||
    BitVec.ofNat 32 dc <<< 25 ||| BitVec.ofNat 32 es <<< 28

/-- `log2(B)`, the beat-size code (R321). -/
def beatCode (B : Nat) : Nat := if B = 8 then 3 else if B = 4 then 2 else if B = 2 then 1 else 0

/-- `esCode` (R323). -/
def esCode : Swap → Nat
  | .none => 0
  | .swap16 => 1
  | .swap32 => 2
  | .swap64 => 3
  | .swap128 => 4

/-- `ccrX(sb, sn, db, dn)` (R520, R521). -/
def ccrX (prm : LegalParams) (sb sn db dn : Nat) : Word :=
  ccrWord (if prm.srcType = .register then 0 else 1) sb (sn - 1) prm.srcProt prm.srcCache
    (if prm.dstType = .register then 0 else 1) db (dn - 1) prm.dstProt prm.dstCache (esCode prm.swap)

/-! ## Emission (R525..R541) -/

/-- `instMov(P, CCR, …)`. -/
def movCcr (v : Word) : EncOp := .mov (some .ccr) v

/-- `transfer` (R525): one byte per instruction. -/
def transferOps (zero : Bool) : List EncOp :=
  if zero then [.storeZero] else [.load (some .always), .store (some .always)]

/-- The bytes of `transfer`. -/
def transferLen (zero : Bool) : Nat := if zero then 1 else 2

/-- The address moves (R526). -/
def moveOps (q : Quantities) (W : Word) : List EncOp :=
  [.mov (some .sar) q.srcAddr, .mov (some .dar) W]

/-- The prefix (R530). -/
def prefixOps (prm : LegalParams) (q : Quantities) : List EncOp :=
  if q.readInitial = 0 then []
  else if q.zero then [movCcr (ccrX prm 0 q.readInitial 0 q.readInitial), .storeZero]
  else
    [movCcr (ccrX prm 0 q.readInitial 0 (if 0 < q.prefixStore then q.prefixStore else q.readInitial)),
      .load (some .always)] ++
    (if 0 < q.prefixStore then [.store (some .always)] else [])

/-- One full-burst group of `g` bursts (R532). The body lengths are those of the commands just emitted. -/
def groupOps (prm : LegalParams) (q : Quantities) (g : Nat) : List EncOp :=
  let n16 := if prm.burstEnable then 16 else 1
  let beat := beatCode prm.burstBytes
  let body := transferLen q.zero
  [movCcr (ccrX prm beat n16 beat n16)] ++ transferOps q.zero ++
    (if prm.burstEnable then [] else [.chLoop 1 16 body]) ++
    (if 2 ≤ g then [.chLoop 0 g (if prm.burstEnable then body else body + 4)] else [])

/-- The sizes of the full-burst groups (R531): groups of 256 first, then what is left. -/
def groupSizes (F : Nat) : List Nat :=
  List.replicate (F / 256) 256 ++ (if F % 256 = 0 then [] else [F % 256])

/-- The remainder burst (R533). -/
def remainderOps (prm : LegalParams) (q : Quantities) : List EncOp :=
  if q.remainder = 0 then []
  else
    let n := if prm.burstEnable then q.remainder else 1
    let beat := beatCode prm.burstBytes
    [movCcr (ccrX prm beat n beat n)] ++ transferOps q.zero ++
      (if !prm.burstEnable && decide (2 ≤ q.remainder)
        then [.chLoop 1 q.remainder (transferLen q.zero)] else [])

/-- The suffix (R534). -/
def suffixOps (prm : LegalParams) (q : Quantities) : List EncOp :=
  if q.suffix = 0 then []
  else if q.zero then [movCcr (ccrX prm 0 q.suffix 0 q.suffix), .storeZero]
  else [movCcr (ccrX prm 0 q.suffix 0 (q.lag + q.suffix)), .load (some .always), .store (some .always)]

/-- The final store (R535): the suffix has stored the lag when there is one. -/
def finalOps (prm : LegalParams) (q : Quantities) : List EncOp :=
  if q.suffix = 0 ∧ 0 < q.lag then [movCcr (ccrX prm 0 q.lag 0 q.lag), .store (some .always)] else []

/-- The completion barrier and event (R540). -/
def completionOps (prm : LegalParams) : List EncOp :=
  (if prm.srcType = .memory ∧ prm.dstType = .memory then [.writeBarrier] else []) ++
    (if prm.completionEvent then [.sendEvent prm.channel] else [])

/-- The encoder commands of a whole transfer, in order (R504, R525..R541). -/
def planOps (prm : LegalParams) (R W L : Word) : List EncOp :=
  if L = 0 then [.endProgram]
  else
    let q := quantities prm R W L
    moveOps q W ++ prefixOps prm q ++ (groupSizes q.full).flatMap (groupOps prm q) ++
      remainderOps prm q ++ suffixOps prm q ++ finalOps prm q ++ completionOps prm ++ [.endProgram]

/-- The control words a list of encoder commands emits: `prm.resolved` (R111, R520). -/
def ccrValues : List EncOp → List Word
  | [] => []
  | .mov (some .ccr) v :: ops => v :: ccrValues ops
  | _ :: ops => ccrValues ops

/-- Carries out encoder commands on a buffer that is not yet live; the first failing one ends it (R542). -/
def runOps : List EncOp → Buffer → Memory → Memory × Except Status Buffer
  | [], P, m => (m, .ok P)
  | op :: ops, P, m =>
    match encodeOp op P fun i => memRead m (P.addr i).toNat with
    | .error e => (m, .error e)
    | .ok ed => runOps ops ed.buffer (applyWrites P ed.writes m)

/-! ## The command (R500) -/

/-- `Synthesize` (R500): the checks of R501 and R511, the allocation of R502, and the emission. A failing
emission releases the buffer (R542); the bytes it has written stay in memory (log 40). It answers
the buffer, with `autoFree` (R502), and the control words. -/
def synthesize (e : Env) (chk : Chunk) (prm : XferParams) (s : State) :
    State × Except Status (Buffer × List Word) :=
  match checkParams prm with
  | .error st => (s, .error st)
  | .ok lp =>
    if misaligned lp (quantities lp chk.readAddr chk.writeAddr chk.length) chk.length then
      (s, .error .alignment)
    else
      match allocBuffer s.platform.synthCapacity e.allocBase e.allocOk s with
      | .error st => (s, .error st)
      | .ok (s', b) =>
        let ops := planOps lp chk.readAddr chk.writeAddr chk.length
        match runOps ops { b with autoFree := true } s'.mem with
        | (m, .error st) => ({ s' with mem := m }, .error st)
        | (m, .ok P) => ({ s' with mem := m }, .ok (P, ccrValues ops))

end Sys2Proof.Machine
end

