-- ==== Sys2Proof/Machine/Issue.lean ====
section
/-! DEFINITION. The debug-command issuer (43_debug_facade.md section 1). The steps of a context command work on the
context apart from the rest of the state, and `onContext` puts it back at the end. -/

namespace Sys2Proof.Machine

/-! ## Commands that take a context (R602, R810) -/

/-- What a context command answers: the context, the rest of the state, and the response. -/
abbrev CtxResult := Host.Outcome (Context × State × Response) Fault Refusal

/-- A context command that ends with a response. -/
def ctxReply (c : Context) (s : State) (status : Status) (payload : Word) : CtxResult :=
  .next (c, s, response status payload)

/-- Puts the context back. -/
def putContext (r : Context × State × Response) : Result :=
  .next ({ r.2.1 with ctx := some r.1 }, r.2.2)

/-- The first two checks of R602 (R810), then the command. -/
def onContext (c : CtxRef) (s : State) (f : Context → CtxResult) : Result :=
  match c, s.ctx with
  | .ctx, some ctx => if ctx.initialised then andThen (f ctx) putContext else replyStatus s .notReady
  | _, _ => replyStatus s .nullptr

/-- The checks of R602 (R810) for a command on one channel, then the command. -/
def onCtxChannel (c : CtxRef) (ch : Nat) (s : State) (f : Fin 8 → Context → CtxResult) : Result :=
  onContext c s fun ctx =>
    if h : ch < Config.numChannels then f ⟨ch, h⟩ ctx else ctxReply ctx s .range 0

/-! ## One issue (R700) -/

/-- The two debug instruction words (R330, R700 step 3): `thread` is false for the manager, true for a
channel; bytes past the end are 0. -/
def debugWords (thread : Bool) (ch : Nat) (bytes : List Byte) : Word × Word :=
  let b : Nat → Word := fun i => (bytes.getD i 0).setWidth 32
  ((if thread then 1 else 0) ||| BitVec.ofNat 32 ch <<< 8 ||| b 0 <<< 16 ||| b 1 <<< 24,
    b 2 ||| b 3 <<< 8 ||| b 4 <<< 16 ||| b 5 <<< 24)

/-- An empty debug buffer: what step (3) of R700 makes of it before it builds. -/
def DebugBuffer.cleared (d : DebugBuffer) : Buffer :=
  { d.hdr with len := 0, depth := 0, ctrMask := 0, loops := [] }

/-- A failed or skipped issue: the debug buffer's bytes are any value from here on (R702, I13; log 38), and
nothing else changes. -/
def issueFailed (c : Context) (s : State) (st : Status) : Context × State × Status :=
  ({ c with dbg := c.dbg.map fun d => { d with bytes := Config.freeBytes s.draws } }, s.drawn 1, st)

/-- Steps (2) to (5) of R700: the checks of the channel, the instruction, the two words, the trigger. -/
def issueTail (thread : Bool) (ch : Option Nat) (op : EncOp) (c : Context) (s : State) :
    Context × State × Status :=
  let target : Option Status :=
    match ch with
    | none => none
    | some n =>
      if h : n < Config.numChannels then (if c.chState[n]'h = .free then some .skipped else none)
      else some .range
  match target, c.dbg with
  | some st, _ => issueFailed c s st
  | none, none => issueFailed c s .nullptr
  | none, some d =>
    match encodeOp op d.cleared fun _ => 0 with
    | .error e => issueFailed c s e
    | .ok ed =>
      let bytes := ed.writes.map fun w => w.2
      let words := debugWords thread (ch.getD 0) (bytes.take ed.buffer.len)
      ({ c with dbg := some { hdr := ed.buffer, bytes := bytes } },
        regWrite c.base .dbgcmd 0 (regWrite c.base .dbginst1 words.2 (regWrite c.base .dbginst0 words.1 s)), .success)

/-- `Issue` (R700): fails with ERR_BUSY when the debug interface is busy. -/
def issue (thread : Bool) (ch : Option Nat) (op : EncOp) (c : Context) (s : State) :
    Context × State × Status :=
  let r := regRead c.base .dbgstatus s
  if r.2.getLsbD 0 then issueFailed c r.1 .busy else issueTail thread ch op c r.1

/-- `IssueHold` (R706): holds until the debug interface is idle; `none` where it never becomes idle (I16). -/
def issueHold (thread : Bool) (ch : Option Nat) (op : EncOp) (c : Context) (s : State) :
    Option (Context × State × Status) :=
  (holdIdle c.base s.gaps s).map fun s' => issueTail thread ch op c s'

/-- `IssueGo` (R711). -/
def issueGo (ch : Fin 8) (addr : Word) (ns : Bool) (c : Context) (s : State) :
    Context × State × Status :=
  issue false (some ch.val) (.go ch.val addr ns) c s

/-- `IssueKillHold` (R712). -/
def issueKillHold (ch : Fin 8) (c : Context) (s : State) : Option (Context × State × Status) :=
  issueHold true (some ch.val) .kill c s

/-- `IssueKillHold` for several channels, in order (R651, R735); `none` where a hold never ends. -/
def killAll : List (Fin 8) → Context → State → Option (Context × State)
  | [], c, s => some (c, s)
  | ch :: chs, c, s =>
    match issueKillHold ch c s with
    | none => none
    | some (c', s', _) => killAll chs c' s'

/-- `sendEvent` (R713). -/
def cmdSendEvent (cr : CtxRef) (ev : Nat) (s : State) : Result :=
  onContext cr s fun c =>
    let r := issue false none (.sendEvent ev) c s
    ctxReply r.1 r.2.1 r.2.2 0

end Sys2Proof.Machine
end

