-- ==== Sys2Proof/Machine/Fsm.lean ====
section
/-! DEFINITION. The channel state machine (42_channel_fsm.md): setup and start, reconciliation, the polls, release and
abort. -/

namespace Sys2Proof.Machine

/-! ## Setup and start (R610..R616) -/

/-- A program is structurally valid for attachment (R107). -/
def State.structurallyValid (s : State) (b : Buffer) : Bool :=
  decide (b.len < b.cap) && s.bufByte b b.len == 0x00 && b.depth == 0 && b.ctrMask == 0

/-- The check of a channel that R610 and R740 share: none may be set up while an abort is pending, nor a
channel that is not Free. -/
def setupCheck (ch : Fin 8) (c : Context) : Option Status :=
  if c.abortPending then some .busy
  else if c.chState[ch] = .busy then some .busy
  else if c.chState[ch] ≠ .free then some .inUse
  else none

/-- The channel takes the program (the effect of R610). -/
def Context.attach (c : Context) (ch : Fin 8) (h : Nat) : Context :=
  { c with
    pending := c.pending.set ch (some h)
    lastFault := c.lastFault.set ch 0
    errAck := c.errAck.set ch false
    chState := c.chState.set ch .ready }

/-- `Attach` (R610). -/
def attach (ch : Fin 8) (p : Handle) (c : Context) (s : State) : Except Status Context :=
  match s.findBuffer p with
  | none => .error .nullptr
  | some (h, b) =>
    match setupCheck ch c with
    | some st => .error st
    | none =>
      if allChannels.any fun k => c.pending[k] == some h then .error .inUse
      else if !s.structurallyValid b then .error .invalid
      else .ok (c.attach ch h)

/-- `startTransferCh` after the checks of R602 (R615). -/
def startCh (ch : Fin 8) (c : Context) (s : State) : Context × State × Status :=
  if c.abortPending then (c, s, .busy)
  else if c.chState[ch] ≠ .ready then (c, s, .notReady)
  else
    match s.findBuffer c.pending[ch] with
    | none => (c, s, .nullptr)
    | some (_, b) =>
      let r := issueGo ch b.base b.nonSecure c s
      if r.2.2 = .success then ({ r.1 with chState := r.1.chState.set ch .busy }, r.2.1, .success)
      else r

/-- `startTransferCh` (R615). -/
def cmdStartTransferCh (cr : CtxRef) (ch : Nat) (s : State) : Result :=
  onCtxChannel cr ch s fun ch c =>
    let r := startCh ch c s
    ctxReply r.1 r.2.1 r.2.2 0

/-- Starts every Ready channel of a list in order, up to the first failure (R616). -/
def startAll : List (Fin 8) → Context → State → Context × State × Status
  | [], c, s => (c, s, .success)
  | ch :: chs, c, s =>
    if c.chState[ch] = .ready then
      let r := startCh ch c s
      if r.2.2 = .success then startAll chs r.1 r.2.1 else r
    else startAll chs c s

/-- `startTransfer` (R616). -/
def cmdStartTransfer (cr : CtxRef) (s : State) : Result :=
  onContext cr s fun c =>
    if allChannels.all fun ch => c.chState[ch] != .ready then ctxReply c s .notReady 0
    else
      let r := startAll allChannels c s
      ctxReply r.1 r.2.1 r.2.2 0

/-! ## Reconciliation (R620, R621, R656) -/

/-- `ReconcileCh` (R621). -/
def reconcileCh (fsrc : Word) (ch : Fin 8) (c : Context) (s : State) : Context × State :=
  let st := c.chState[ch]
  if st = .free ∨ st = .aborted then (c, s)
  else if st = .busy ∧ fsrc.getLsbD ch.val then
    let r := regRead c.base (.ftr ch) s
    ({ c with
      lastFault := c.lastFault.set ch r.2
      errAck := c.errAck.set ch false
      chState := c.chState.set ch .error }, r.1)
  else
    let r := regRead c.base (.csr ch) s
    let stopped : Bool := statusOf r.2 == stStopped
    if c.abortPending && stopped then ({ c with chState := c.chState.set ch .aborted }, r.1)
    else if st = .busy ∧ stopped then ({ c with chState := c.chState.set ch .done }, r.1)
    else (c, r.1)

/-- `ReconcileCh` for several channels, in order. -/
def reconcileChs (fsrc : Word) : List (Fin 8) → Context → State → Context × State
  | [], c, s => (c, s)
  | ch :: chs, c, s =>
    let r := reconcileCh fsrc ch c s
    reconcileChs fsrc chs r.1 r.2

/-- `ClearAbortPending` (R656). -/
def clearAbortPending (c : Context) : Context :=
  if c.abortPending && allChannels.all fun ch => c.chState[ch] == .free || c.chState[ch] == .aborted
  then { c with abortPending := false }
  else c

/-- `Reconcile` (R620). -/
def reconcile (c : Context) (s : State) : Context × State :=
  let r₁ := regRead c.base .fsrd s
  let r₂ := regRead c.base .ftrd r₁.1
  let c' := { c with mgrFault := if r₁.2.getLsbD 0 then r₂.2 else 0 }
  let r₃ := regRead c.base .fsrc r₂.1
  let r := reconcileChs r₃.2 allChannels c' r₃.1
  (clearAbortPending r.1, r.2)

/-! ## Release (R640) -/

/-- `Release` (R640): the program is freed if it is marked so, and the channel becomes Free. -/
def release (ch : Fin 8) (c : Context) (s : State) : Context × State :=
  let s' : State :=
    match s.findBuffer c.pending[ch] with
    | none => s
    | some (h, b) => if b.autoFree then { s with buffers := bufErase s.buffers h } else s
  ({ c with
    pending := c.pending.set ch none
    lastFault := c.lastFault.set ch 0
    errAck := c.errAck.set ch false
    chState := c.chState.set ch .free }, s')

/-- `Release` for several channels, in order. -/
def releaseAll : List (Fin 8) → Context → State → Context × State
  | [], c, s => (c, s)
  | ch :: chs, c, s =>
    let r := release ch c s
    releaseAll chs r.1 r.2

/-! ## Polls (R625..R638) -/

/-- The state numbers of R120. -/
def ChState.number : ChState → Word
  | .free => 0
  | .ready => 1
  | .busy => 2
  | .done => 3
  | .error => 4
  | .aborted => 5

/-- A poll of one channel: the checks of R602, reconciliation, then the poll's own answer. -/
def pollCh (cr : CtxRef) (ch : Nat) (s : State) (f : Fin 8 → Context → State → CtxResult) : Result :=
  onCtxChannel cr ch s fun ch c => f ch (reconcile c s).1 (reconcile c s).2

/-- A poll of all channels: the first two checks of R602, reconciliation, then the poll's own answer. -/
def pollAll (cr : CtxRef) (s : State) (f : Context → State → CtxResult) : Result :=
  onContext cr s fun c => f (reconcile c s).1 (reconcile c s).2

/-- The channels in a state that `p` accepts, ascending. -/
def Context.channels (c : Context) (p : ChState → Bool) : List (Fin 8) :=
  allChannels.filter fun ch => p c.chState[ch]

/-- `busyCh` (R625). -/
def cmdBusyCh (cr : CtxRef) (ch : Nat) (s : State) : Result :=
  pollCh cr ch s fun ch c s =>
    if c.chState[ch] = .busy then ctxReply c s .busy 0
    else ctxReply c s .success c.chState[ch].number

/-- `busy` (R626). -/
def cmdBusy (cr : CtxRef) (s : State) : Result :=
  pollAll cr s fun c s =>
    ctxReply c s (if c.channels (· == .busy) = [] then .success else .busy) 0

/-- `transferError` (R630). -/
def cmdTransferError (cr : CtxRef) (ch : Nat) (s : State) : Result :=
  pollCh cr ch s fun ch c s =>
    if c.chState[ch] = .error then ctxReply c s .hwFault c.lastFault[ch]
    else ctxReply c s .success 0

/-- The flag `errAck[ch]` as R632 reads it: only a channel in Error has one (R666; log 37). -/
def Context.acknowledged (c : Context) (ch : Fin 8) : Bool := c.chState[ch] == .error && c.errAck[ch]

/-- `checkState` (R632): consumes the Error report once. -/
def cmdCheckState (cr : CtxRef) (ch : Nat) (s : State) : Result :=
  pollCh cr ch s fun ch c s =>
    if c.chState[ch] = .error then
      if c.acknowledged ch then ctxReply c s .busy 0
      else ctxReply { c with errAck := c.errAck.set ch true } s .hwFault c.lastFault[ch]
    else ctxReply c s .success c.chState[ch].number

/-- `managerError` (R634). -/
def cmdManagerError (cr : CtxRef) (s : State) : Result :=
  pollAll cr s fun c s =>
    if c.mgrFault ≠ 0 then ctxReply c s .hwFault c.mgrFault else ctxReply c s .success 0

/-- `completedCh` (R635). -/
def cmdCompletedCh (cr : CtxRef) (ch : Nat) (s : State) : Result :=
  pollCh cr ch s fun ch c s =>
    match c.chState[ch] with
    | .done => ctxReply (release ch c s).1 (release ch c s).2 .success 0
    | .error => ctxReply c s .hwFault c.lastFault[ch]
    | .aborted => ctxReply c s .notFound 0
    | .free => ctxReply c s .busy 0
    | .ready => ctxReply c s .busy 0
    | .busy => ctxReply c s .busy 0

/-- `completed` (R636). -/
def cmdCompleted (cr : CtxRef) (s : State) : Result :=
  pollAll cr s fun c s =>
    let errs := c.channels (· == .error)
    let act := c.channels fun st => st == .ready || st == .busy
    let dones := c.channels (· == .done)
    if errs ≠ [] then ctxReply c s .hwFault (channelMask errs)
    else if act ≠ [] then ctxReply c s .busy 0
    else if dones = [] then ctxReply c s .busy 0
    else
      let r := releaseAll dones c s
      ctxReply r.1 r.2 .success (channelMask dones)

/-- `abortedCh` (R637). -/
def cmdAbortedCh (cr : CtxRef) (ch : Nat) (s : State) : Result :=
  pollCh cr ch s fun ch c s =>
    if c.chState[ch] = .aborted then ctxReply (release ch c s).1 (release ch c s).2 .success 0
    else ctxReply c s .busy 0

/-- `aborted` (R638). -/
def cmdAborted (cr : CtxRef) (s : State) : Result :=
  pollAll cr s fun c s =>
    let xs := c.channels (· == .aborted)
    if c.abortPending then ctxReply c s .busy 0
    else if xs = [] then ctxReply c s .busy 0
    else
      let r := releaseAll xs c s
      ctxReply r.1 r.2 .success (channelMask xs)

/-! ## Abort (R650..R653) -/

/-- Safe abort (R651): DMAKILL to every non-Free channel, holding while the debug interface is busy. -/
def abortSafe (c : Context) (s : State) : CtxResult :=
  let ks := c.channels (· != .free)
  if ks = [] then ctxReply c s .skipped 0
  else
    match killAll ks { c with abortPending := true } s with
    | none => .fault .holdNeverEnds
    | some (c', s') => ctxReply c' s' .success 0

/-- The channel states after a forced abort: every channel that is not Free is Aborted (R653). -/
def abortStates (v : Vector ChState 8) : Vector ChState 8 :=
  ⟨⟨v.toList.map fun st => if st = .free then .free else .aborted⟩, by simp⟩

/-- Forced abort (R653): every non-Free channel is Aborted and the whole controller is reset. -/
def abortForce (c : Context) (s : State) : CtxResult :=
  ctxReply
    { c with
      chState := abortStates c.chState
      abortPending := false
      mgrFault := 0 }
    (resetRelease (resetAssert s)) .success 0

/-- `abort` (R650). -/
def cmdAbort (cr : CtxRef) (mode : Option AbortMode) (s : State) : Result :=
  onContext cr s fun c =>
    match mode with
    | some .none => ctxReply c s .skipped 0
    | some .safe => abortSafe c s
    | some .force => abortForce c s
    | none => ctxReply c s .noSupport 0

end Sys2Proof.Machine
end

