-- ==== Sys2Proof/Machine/Facade.lean ====
section
/-! DEFINITION. The façade (43_debug_facade.md sections 2 to 4): initialise and cleanup, transfer setup with the
short-transfer bypass, and the interrupt commands. -/

namespace Sys2Proof.Machine

/-! ## Initialise and cleanup -/

/-- The context of a successful `initialise` (R730, R900). -/
def newContext (base : Word) (wordBytes : Nat) (dbg : DebugBuffer) : Context where
  base := base
  wordBytes := wordBytes
  chState := Vector.replicate 8 .free
  lastFault := Vector.replicate 8 0
  pending := Vector.replicate 8 none
  errAck := Vector.replicate 8 false
  dbg := some dbg
  mgrFault := 0
  abortPending := false
  initialised := true
  shortThreshold := BitVec.ofNat 32 (2 * wordBytes)

/-- The new debug buffer (R710, R900), at the place the environment draws (I31). -/
def newDebugBuffer (base : Word) : DebugBuffer where
  hdr := freshBuffer Config.debugProgramCapacity base
  bytes := [0x00]

/-- A channel whose status is any value as well. -/
def wildChannel (k : Nat) (n : Fin 8) (c : Channel) : Channel :=
  { c with csr := Config.freeReg k (RdReg.offset (.csr n)) }

/-- The engine's registers after an `initialise` that failed after ResetAssert: any value (I19). What is no
register stays as the reset left it. -/
def wildEngine (k : Nat) (e : Engine) : Engine :=
  { e with
    chan := #v[wildChannel k 0 e.chan[0], wildChannel k 1 e.chan[1], wildChannel k 2 e.chan[2],
      wildChannel k 3 e.chan[3], wildChannel k 4 e.chan[4], wildChannel k 5 e.chan[5],
      wildChannel k 6 e.chan[6], wildChannel k 7 e.chan[7]]
    dsr := Config.freeReg k (RdReg.offset .dsr)
    inten := Config.freeReg k (RdReg.offset .inten)
    fsrd := Config.freeReg k (RdReg.offset .fsrd)
    fsrc := Config.freeReg k (RdReg.offset .fsrc)
    dbgstatus := Config.freeReg k (RdReg.offset .dbgstatus) }

/-- The reset sequence of `initialise` (R730, R911). -/
def resetSequence (hwInit : Option HwConfig) (s : State) : State :=
  let s₁ := resetAssert s
  let s₂ :=
    match hwInit with
    | none => s₁
    | some cfg => applyHwConfig cfg s₁
  resetRelease s₂

/-- The allocation step of `initialise`: whether the environment obtains the debug buffer (R730, I22). Without
it the context is uninitialised and the engine's registers are any value (I19; log 35). The new context
replaces one that was not cleaned up; the programs that one held pending are dropped without release:
they stay live and are attached no longer, a point the spec is silent on (DESIGN CHOICE, log 52). -/
def finishInitialise (base : Word) (wordBytes : Nat) (e : Env) (s : State) : Result :=
  if e.allocOk then
    reply { s with ctx := some (newContext base wordBytes (newDebugBuffer e.allocBase)) } .success 1
  else
    replyStatus
      ({ s with
        ctx := s.ctx.map fun (c : Context) => { c with initialised := false }
        engine := wildEngine s.draws s.engine }.drawn 1) .nullptr

/-- Whether an optional board configuration is acceptable (R730, I25). -/
def hwInitOk (f : BoardFamily) (hwInit : Option HwConfig) : Bool :=
  match hwInit with
  | none => true
  | some cfg => Config.hwConfigValid f cfg

/-- `initialise` (R730); the payload is the context's handle (R801, log 7). -/
def cmdInitialise (base : Word) (wordBytes : Nat) (hwInit : Option HwConfig) (e : Env) (s : State) :
    Result :=
  if base.toNat % Config.regBaseAlign ≠ 0 then replyStatus s .alignment
  else if !legalWidth wordBytes then replyStatus s .noSupport
  else if !hwInitOk s.platform.boardFamily hwInit then replyStatus s .noSupport
  else finishInitialise base wordBytes e (resetSequence hwInit s)

/-- `isInitialised` (R731). -/
def cmdIsInitialised (cr : CtxRef) (s : State) : Result :=
  match cr, s.ctx with
  | .ctx, some c => replyStatus s (if c.initialised then .success else .notReady)
  | _, _ => replyStatus s .nullptr

/-- `setShortThreshold` (R732). -/
def cmdSetShortThreshold (cr : CtxRef) (n : Word) (s : State) : Result :=
  onContext cr s fun c => ctxReply { c with shortThreshold := n } s .success 0

/-- The live buffers after cleanup has dropped the pending programs of some channels: each is neither
released nor kept for certain, a free choice (I24; log 36). -/
def dropPrograms (c : Context) (k : Nat) : List (Fin 8) → List (Nat × Buffer) → List (Nat × Buffer)
  | [], l => l
  | ch :: chs, l =>
    match c.pending[ch] with
    | none => dropPrograms c k chs l
    | some h => dropPrograms c k chs (if Config.freeBool (k + ch.val) then l else bufErase l h)

/-- The pending programs are dropped without release (R645, R735). -/
def dropPending (c : Context) (s : State) : State :=
  { s with buffers := dropPrograms c s.draws allChannels s.buffers }.drawn 8

/-- `cleanup` (R735, R904). Every channel enters Free, so its acknowledgement is cleared (R124) and its last
fault is 0 (R666, D29). -/
def cmdCleanup (cr : CtxRef) (s : State) : Result :=
  onContext cr s fun c =>
    match killAll (c.channels (· != .free)) c s with
    | none => .fault .holdNeverEnds
    | some (c', s') =>
      ctxReply
        { c' with
          dbg := none
          chState := Vector.replicate 8 .free
          pending := Vector.replicate 8 none
          lastFault := Vector.replicate 8 0
          errAck := Vector.replicate 8 false
          initialised := false }
        (resetAssert (dropPending c' s')) .success 0

/-! ## Transfer setup -/

/-- `DefaultParams` (R112, R742). -/
def defaultParams (c : Context) (index : Nat) : XferParams where
  srcType := some .memory
  dstType := some .memory
  srcProt := 0
  dstProt := 0
  srcCache := 0
  dstCache := 0
  burstBytes := c.wordBytes
  swap := some .none
  channel := index % Config.numChannels
  burstEnable := true
  completionEvent := true
  resolved := []

/-- `initParams` (R743): the record stands in the response. -/
def cmdInitParams (cr : CtxRef) (index : Nat) (s : State) : Result :=
  onContext cr s fun c =>
    .next (c, s, { status := .success, payload := 0, record := some (defaultParams c index) })

/-- The ranges of a copy overlap at different places (R235); the ranges may run over the top of memory (log
39). -/
def overlaps (R W L : Word) : Bool :=
  R != W && (decide ((W - R).toNat < L.toNat) || decide ((R - W).toNat < L.toNat))

/-- The `n` addresses from `a` on. -/
def span (a : Word) (n : Nat) : List Word := (List.range n).map fun i => a + BitVec.ofNat 32 i

/-- `Bypass` (R235, R741): copies byte after byte; where the ranges overlap the destination bytes are any
value (I7); an address without memory refuses the command (I20); `none` is that refusal. A copy onto a
program buffer, attached or not, or onto the debug buffer's place, which I7 may be read to leave at any
value, writes the bytes it copies (DESIGN CHOICE, log 39). -/
def bypass (chk : Chunk) (s : State) : Option State :=
  let n := chk.length.toNat
  let src := span chk.readAddr n
  let dst := span chk.writeAddr n
  if !(src ++ dst).all s.mappedAt then none
  else if overlaps chk.readAddr chk.writeAddr chk.length then
    some ({ s with mem := memWrites s.mem (dst.zip (s.freeByteList n)) }.drawn n)
  else some { s with mem := memWrites s.mem (dst.zip (src.map s.byteAt)) }

/-- The bytes a side of a transfer covers: the whole length, or one beat at a fixed register. -/
def sideBytes (register : Bool) (burstBytes length : Nat) : Nat :=
  if length = 0 then 0 else if register then burstBytes else length

/-- Whether the result of a transfer is left open: its destination overlaps its source, its own program buffer
or the debug buffer (R934, I7). An overlap with another live buffer does not mark the transfer: only its
bursts that meet that buffer store free bytes (`State.storeLoose`), where I7 says any value for the whole
(DESIGN CHOICE, log 48). -/
def transferLoose (chk : Chunk) (prm : XferParams) (P : Buffer) (c : Context) : Bool :=
  let m := sideBytes (prm.srcType == some .register) prm.burstBytes chk.length.toNat
  let n := sideBytes (prm.dstType == some .register) prm.burstBytes chk.length.toNat
  (prm.srcType != some .zero && rangesMeet chk.readAddr m chk.writeAddr n) ||
    rangesMeet P.base P.cap chk.writeAddr n ||
    match c.dbg with
    | none => false
    | some d => rangesMeet d.hdr.base d.hdr.cap chk.writeAddr n

/-- The rest of `setupTransfer` once a program is attached: the start if it was asked for (R740, R745). -/
def autoStartCh (ch : Fin 8) (autoStart : Bool) (payload : Word) (record : Option XferParams)
    (c : Context) (s : State) : CtxResult :=
  if autoStart then
    let r := startCh ch c s
    .next (r.1, r.2.1, {
      status := r.2.2
      payload := if r.2.2 = .success then payload else 0
      record := record })
  else .next (c, s, { status := .success, payload := payload, record := record })

/-- `setupTransfer` after the bypass has been ruled out (R740), with the parameter record of the caller (`given`)
or the command's own. A record of the caller's is answered with `resolved` filled in (R111; log 50); the
command's own is discarded when it returns (R742). -/
def setupWith (chk : Chunk) (prm : XferParams) (given autoStart : Bool) (e : Env) (c : Context) (s : State) :
    CtxResult :=
  if h : prm.channel < Config.numChannels then
    let ch : Fin 8 := ⟨prm.channel, h⟩
    match setupCheck ch c with
    | some st => ctxReply c s st 0
    | none =>
      match synthesize e chk prm s with
      | (s', .error st) => ctxReply c s' st 0
      | (s', .ok (P₀, resolved)) =>
        let P := { P₀ with loose := transferLoose chk prm P₀ c }
        match attach ch (some s'.nextHandle) c (s'.addBuffer P) with
        | .error st => ctxReply c s' st 0
        | .ok c' =>
          autoStartCh ch autoStart (BitVec.ofNat 32 prm.channel)
            (if given then some { prm with resolved := resolved } else none) c' (s'.addBuffer P)
  else ctxReply c s .range 0

/-- `setupTransfer` (R740). -/
def cmdSetupTransfer (cr : CtxRef) (chk : Option Chunk) (index : Nat) (autoStart : Bool) (e : Env)
    (s : State) : Result :=
  onContext cr s fun c =>
    match chk with
    | none => ctxReply c s .nullptr 0
    | some k =>
      match k.params with
      | some prm => setupWith k prm true autoStart e c s
      | none =>
        if decide (k.length ≤ c.shortThreshold) && autoStart then
          match bypass k s with
          | none => .refused .bypassUnmapped
          | some s' => ctxReply c s' .skipped k.length
        else setupWith k (defaultParams c index) false autoStart e c s

/-- `setupTransferProgram` (R745). -/
def cmdSetupTransferProgram (cr : CtxRef) (ch : Nat) (p : Handle) (autoStart : Bool) (s : State) :
    Result :=
  onCtxChannel cr ch s fun ch c =>
    match attach ch p c s with
    | .error st => ctxReply c s st 0
    | .ok c' => autoStartCh ch autoStart 0 none c' s

/-! ## Interrupt commands (R750..R752) -/

/-- `irqSetEnable` (R750). -/
def cmdIrqSetEnable (cr : CtxRef) (mask : Word) (enable : Bool) (s : State) : Result :=
  onContext cr s fun c =>
    let r := regRead c.base .inten s
    ctxReply c (regWrite c.base .inten (if enable then r.2 ||| mask else r.2 &&& ~~~mask) r.1) .success 0

/-- `irqFlags` (R751). -/
def cmdIrqFlags (cr : CtxRef) (mask : Word) (s : State) : Result :=
  onContext cr s fun c =>
    let r := regRead c.base .intmis s
    ctxReply c r.1 .success (r.2 &&& mask)

/-- `irqClear` (R752). -/
def cmdIrqClear (cr : CtxRef) (mask : Word) (s : State) : Result :=
  onContext cr s fun c => ctxReply c (regWrite c.base .intclr mask s) .success 0

end Sys2Proof.Machine
end

