-- ==== Sys2Proof/Machine/Commands.lean ====
section
/-! DEFINITION. The complete command set of DPES (60_exceptions.md R803): one arm per command, and one command as the step
of the machine. -/

namespace Sys2Proof.Machine

/-- What each command does (R803). -/
def command (cmd : Command) (e : Env) (s : State) : Result :=
  match cmd with
  | .allocProgram size base => cmdAllocProgram size base e s
  | .freeProgram p => cmdFreeProgram p s
  | .setProgramFlags p nonSecure autoFree => cmdSetProgramFlags p nonSecure autoFree s
  | .inst p op => cmdInst p op s
  | .initialise base wordBytes hwInit => cmdInitialise base wordBytes hwInit e s
  | .isInitialised c => cmdIsInitialised c s
  | .setShortThreshold c n => cmdSetShortThreshold c n s
  | .cleanup c => cmdCleanup c s
  | .initParams c index => cmdInitParams c index s
  | .setupTransfer c chk index autoStart => cmdSetupTransfer c chk index autoStart e s
  | .setupTransferProgram c ch p autoStart => cmdSetupTransferProgram c ch p autoStart s
  | .startTransferCh c ch => cmdStartTransferCh c ch s
  | .startTransfer c => cmdStartTransfer c s
  | .busyCh c ch => cmdBusyCh c ch s
  | .busy c => cmdBusy c s
  | .transferError c ch => cmdTransferError c ch s
  | .checkState c ch => cmdCheckState c ch s
  | .managerError c => cmdManagerError c s
  | .completedCh c ch => cmdCompletedCh c ch s
  | .completed c => cmdCompleted c s
  | .abortedCh c ch => cmdAbortedCh c ch s
  | .aborted c => cmdAborted c s
  | .abort c mode => cmdAbort c mode s
  | .sendEvent c ev => cmdSendEvent c ev s
  | .irqSetEnable c mask enable => cmdIrqSetEnable c mask enable s
  | .irqFlags c mask => cmdIrqFlags c mask s
  | .irqClear c mask => cmdIrqClear c mask s

/-- Leaves the command's response, and drops what the environment had left to do. -/
def finishCommand (r : State × Response) : Host.Outcome State Fault Refusal :=
  .next { r.1 with gaps := [], response := some r.2 }

/-- One command, whole (R220): the environment's gaps stand before its register accesses (R161). -/
def runCommand (cmd : Command) (e : Env) (s : State) : Host.Outcome State Fault Refusal :=
  andThen (command cmd e { s with gaps := e.gaps }) finishCommand

end Sys2Proof.Machine
end

