-- ==== Sys2Proof/Machine/Step.lean ====
section
/-! DEFINITION. One step of the whole machine: the next turn of the agenda, or, when it is empty, the engine moving by
itself (log 1, log 44). -/

namespace Sys2Proof.Machine

/-! ## The engine moving by itself -/

/-- The thread of a turn number: 0 the manager, n + 1 channel n. -/
def threadOfTurn (k : Fin 9) : Thread :=
  match k with
  | 0 => .manager
  | 1 => .channel 0
  | 2 => .channel 1
  | 3 => .channel 2
  | 4 => .channel 3
  | 5 => .channel 4
  | 6 => .channel 5
  | 7 => .channel 6
  | 8 => .channel 7

/-- The nine turns in order from `k` on. -/
def turnsFrom (k : Fin 9) : List (Fin 9) := (List.range 9).map fun i => Fin.ofNat 9 (k.val + i)

/-- The first turn, from `nextThread` on, whose thread can execute. -/
def State.nextTurn (s : State) : Option (Fin 9) :=
  (turnsFrom s.nextThread).find? fun k => runs (s.threadStatus (threadOfTurn k))

/-- What happens when the agenda is empty: a triggered debug instruction is finished, else the threads that
can execute take turns; with nothing to do the machine stays as it is. -/
def engineStep (s : State) : Host.Outcome State Fault Refusal :=
  if s.engine.dbgPending || s.engine.dbgstatus.getLsbD 0 then debugRun s
  else
    match s.nextTurn with
    | none => .next s
    | some k => threadStep (threadOfTurn k) { s with nextThread := k + 1 }

/-! ## The step -/

/-- One step. -/
def step (s : State) : Host.Outcome State Fault Refusal :=
  match s.agenda with
  | .activity a :: rest => runActivity a { s with agenda := rest }
  | .command c e :: rest => runCommand c e { s with agenda := rest }
  | [] => engineStep s

/-! ## Placing one instruction (log 2) -/

/-- The six bytes of an opcode-table word: the instruction's bytes in address order, then zeros. -/
def wordBytes (nbits w : Nat) : List Byte := (tableBytes nbits w ++ List.replicate 6 0x00).take 6

/-- The thread that executes an instruction: the manager for a DMAGO, else channel 0. -/
def wordThread (bs : List Byte) : Thread :=
  match bs with
  | 0xA0#8 :: _ => .manager
  | 0xA2#8 :: _ => .manager
  | _ => .channel 0

/-- The state with bytes placed at a thread's pc, the thread Executing, the fetch coherent and unstale, and
the thread's turn next. -/
def State.placeBytes (s : State) (t : Thread) (bs : List Byte) : State :=
  let pc := s.threadPc t
  let s₁ := s.setThreadStatus t stExecuting
  { s₁ with
    mem := memWrites s₁.mem ((span pc bs.length).zip bs)
    agenda := .activity (.thread t) :: s₁.agenda
    board := { s₁.board with resetHeld := false }
    engine := { s₁.engine with icache := [] }
    platform := { s₁.platform with
      fetchCoherent := true
      mapped :=
        if s₁.fetchMapped pc bs.length then s₁.platform.mapped
        else s₁.platform.mapped ++ [{ base := pc, size := bs.length }] } }

/-- The state whose next step runs the instruction of an opcode-table word. -/
def State.withFetchWord (s : State) (nbits w : Nat) : State :=
  s.placeBytes (wordThread (wordBytes nbits w)) (wordBytes nbits w)

end Sys2Proof.Machine
end

