-- ==== Sys2Proof/Safety.lean ====
section
/-! DEFINITION. What the claims call a good state: the canonical form of memory, well-formed program buffers (R102,
R104), and the invariants of the channel context (R122, R666). -/

namespace Sys2Proof.Machine

/-! ## Program buffers (R102, R104) -/

/-- Body starts strictly increasing from the outermost loop to the innermost, all of them at least `lo` and
at most `len` (R104). -/
def startsRise : Nat → Nat → List (LoopCtr × Nat) → Bool
  | _, _, [] => true
  | lo, len, (_, start) :: l => decide (lo ≤ start) && decide (start ≤ len) && startsRise (start + 1) len l

/-- Whether a loop list holds a counter. -/
def holdsCtr (loops : List (LoopCtr × Nat)) (c : LoopCtr) : Bool := loops.any fun l => l.1 == c

/-- No counter appears twice in a loop list (R104). -/
def ctrsDistinct : List (LoopCtr × Nat) → Bool
  | [] => true
  | (c, _) :: l => !holdsCtr l c && ctrsDistinct l

/-- The bookkeeping of a program buffer: `len < cap` (R102), a capacity that is a u32 (R101), and the loop
invariant of R104. -/
def Buffer.wf (b : Buffer) : Bool :=
  decide (b.len < b.cap) && decide (b.cap < 2 ^ 32) && b.depth == b.loops.length &&
    b.reserved .lc0 == holdsCtr b.loops .lc0 && b.reserved .lc1 == holdsCtr b.loops .lc1 &&
    ctrsDistinct b.loops && startsRise 0 b.len b.loops

/-- The handles of the live buffers: distinct, and below the next one to be given out (log 8). -/
def handlesOk (next : Nat) : List (Nat × Buffer) → Bool
  | [] => true
  | (h, _) :: l => decide (h < next) && (bufGet l h).isNone && handlesOk next l

/-- Every live buffer is well formed. -/
def State.buffersWf (s : State) : Bool :=
  handlesOk s.nextHandle s.buffers && s.buffers.all fun p => p.2.wf

/-! ## The channel context (R122, R666) -/

/-- R122: a program is pending exactly on the channels that are not Free. -/
def Context.pendingOk (c : Context) : Bool :=
  allChannels.all fun ch => c.pending[ch].isSome == (c.chState[ch] != .free)

/-- No program is pending on two channels (R666). -/
def Context.pendingDistinct (c : Context) : Bool :=
  allChannels.all fun i => allChannels.all fun j =>
    i == j || c.pending[i].isNone || c.pending[i] != c.pending[j]

/-- `lastFault = 0` on a Free channel (R666), and the stored acknowledgement set only where the channel is
Error or has been aborted from it (R124, R666; log 37). -/
def Context.faultsOk (c : Context) : Bool :=
  allChannels.all fun ch =>
    (c.chState[ch] != .free || c.lastFault[ch] == 0) &&
      (!c.errAck[ch] || c.chState[ch] == .error || c.chState[ch] == .aborted)

/-- Every pending program is a live buffer (R123, R231). -/
def Context.pendingLive (c : Context) (buffers : List (Nat × Buffer)) : Bool :=
  allChannels.all fun ch =>
    match c.pending[ch] with
    | none => true
    | some h => (bufGet buffers h).isSome

/-- An initialised context has its debug buffer, of capacity `DEBUG_PROGRAM_CAPACITY` (R18, R710). -/
def Context.dbgOk (c : Context) : Bool :=
  match c.dbg with
  | none => !c.initialised
  | some d => d.hdr.cap == Config.debugProgramCapacity

/-- The invariants of a context over the live buffers. -/
def Context.inv (c : Context) (buffers : List (Nat × Buffer)) : Bool :=
  c.pendingOk && c.pendingDistinct && c.faultsOk && c.pendingLive buffers && c.dbgOk

/-- The invariants of the context, if there is one. -/
def State.ctxInv (s : State) : Bool :=
  match s.ctx with
  | none => true
  | some c => c.inv s.buffers

/-! ## The whole -/

/-- The invariant that every step keeps. -/
def State.inv (s : State) : Bool := s.mem.wf && s.buffersWf && s.ctxInv

/-! ## The terms of the claims about instructions -/

/-- The active thread is channel `n`, executing an instruction fetched from memory. -/
def State.runsOn (s : State) (n : Fin 8) : Prop := s.active = { thread := .channel n, origin := .memory }

/-- The active thread is the manager, executing an instruction fetched from memory. -/
def State.runsManager (s : State) : Prop := s.active = { thread := .manager, origin := .memory }

/-- The active thread is the manager, executing an instruction of the debug interface. -/
def State.debugsManager (s : State) : Prop := s.active = { thread := .manager, origin := .debug }

/-- Channel `n` becomes `c`, but for its pc, which is `k` further on than it was, and its status, which is
Executing (R561). -/
def State.wentOn (s : State) (n : Fin 8) (k : Nat) (c : Channel) : State :=
  s.setChan n { c with
    pc := (s.chan n).pc + BitVec.ofNat 32 k
    csr := withStatus (s.chan n).csr stExecuting }

/-- The frame of a channel's instruction: every other channel, every other engine register, the program
buffers, the context, the board, the platform and the outside's agenda are as before. Channel `n`
itself and memory are for the statement to give. -/
def onlyChannelChanges (n : Fin 8) (s t : State) : Prop :=
  (∀ m, m ≠ n → t.chan m = s.chan m) ∧ t.engine = { s.engine with chan := t.engine.chan } ∧
    t.buffers = s.buffers ∧ t.nextHandle = s.nextHandle ∧ t.ctx = s.ctx ∧ t.board = s.board ∧
    t.platform = s.platform ∧ t.active = s.active ∧ t.agenda = s.agenda ∧ t.gaps = s.gaps ∧
    t.nextThread = s.nextThread ∧ t.response = s.response

/-- Channel `n` has taken the fault of type `ftr` (R820): Faulting, its FSRC bit set, the type in FTRn. -/
def State.faultedOn (s : State) (n : Fin 8) (ftr : Word) : State :=
  { s with engine := { s.engine with
    chan := s.engine.chan.set n { s.chan n with csr := withStatus (s.chan n).csr 0xF#4, ftr := ftr }
    fsrc := s.engine.fsrc ||| 1#32 <<< n.val } }

/-- The manager has taken the fault of type `ftrd` (R820): Faulting, FSRD[0] set, the type in FTRD. -/
def State.faultedManager (s : State) (ftrd : Word) : State :=
  { s with engine := { s.engine with
    dsr := withStatus s.engine.dsr 0xF#4
    fsrd := s.engine.fsrd ||| 1#32
    ftrd := ftrd } }

/-- Channel `n` may load its next burst: its protection is allowed, the FIFO has room, and every address of
the burst holds memory and lies below the top of the address space. -/
def State.loadReady (s : State) (n : Fin 8) : Bool :=
  s.protAllowed n (s.chan n).srcProt && s.fifoRoom n (s.chan n).src.size &&
    !(s.chan n).src.crossesTop && (s.chan n).src.addrs.all s.mappedAt

/-- Channel `n` may store its next burst: its protection is allowed, and every address of the burst holds
memory and lies below the top of the address space. -/
def State.storeMapped (s : State) (n : Fin 8) : Bool :=
  s.protAllowed n (s.chan n).dstProt && !(s.chan n).dst.crossesTop &&
    (s.chan n).dst.addrs.all s.mappedAt

/-- Likewise, and the destination overlaps neither its transfer's source nor a program (R934 leaves the bytes
of such a store open; `StoresStayInside` speaks of it). -/
def State.storeReady (s : State) (n : Fin 8) : Bool := s.storeMapped n && !s.storeLoose n

/-- The state after event `ev` has been signalled (R144). Where INTEN[ev] is 1 the interrupt is raised; else every
thread that waits for the event is past its DMAWFE and executing, and the event is active where none
waits. -/
def State.signalled (s : State) (ev : Fin 32) (t : State) : Prop :=
  let waits := fun w : Word => statusOf w = 0x4#4 ∧ (w.extractLsb' 4 5).toNat = ev.val
  let bit := 1#32 <<< ev.val
  (s.engine.inten.getLsbD ev.val = true →
    t = { s with engine := { s.engine with irqs := s.engine.irqs ||| bit } }) ∧
  (s.engine.inten.getLsbD ev.val = false → ¬ waits s.engine.dsr → (∀ m, ¬ waits (s.chan m).csr) →
    t = { s with engine := { s.engine with events := s.engine.events ||| bit } }) ∧
  (s.engine.inten.getLsbD ev.val = false → waits s.engine.dsr ∨ (∃ m, waits (s.chan m).csr) →
    t = { s with engine := { s.engine with
      chan := t.engine.chan, dpc := t.engine.dpc, dsr := t.engine.dsr } } ∧
    (waits s.engine.dsr → t.engine.dpc = s.engine.dpc + 2 ∧ t.engine.dsr = withStatus s.engine.dsr 0x1#4) ∧
    (¬ waits s.engine.dsr → t.engine.dpc = s.engine.dpc ∧ t.engine.dsr = s.engine.dsr) ∧
    ∀ m, (waits (s.chan m).csr → t.chan m = { s.chan m with
        pc := (s.chan m).pc + 2, csr := withStatus (s.chan m).csr 0x1#4 }) ∧
      (¬ waits (s.chan m).csr → t.chan m = s.chan m))

/-! ## The terms of the claims about encoder commands -/

/-- The instruction that an encoder command with legal operands appends (R410..R413, R430..R433,
R440..R453); `none` for the loop commands and for operands out of range. -/
def appendedInstr (op : EncOp) : Option Instr :=
  match op with
  | .mov (some rd) imm => some (.dmamov rd imm)
  | .load (some .always) => some .dmald
  | .load (some .single) => some .dmalds
  | .load (some .burst) => some .dmaldb
  | .store (some .always) => some .dmast
  | .store (some .single) => some .dmasts
  | .store (some .burst) => some .dmastb
  | .storeZero => some .dmastz
  | .sendEvent ev => if h : ev < 32 then (if ev = 8 then none else some (.dmasev ⟨ev, h⟩)) else none
  | .waitEvent ev inv => if h : ev < 32 then some (.dmawfe ⟨ev, h⟩ inv) else none
  | .waitPeriph p (some .single) => if h : p < 32 then some (.dmawfpSingle ⟨p, h⟩) else none
  | .waitPeriph p (some .burst) => if h : p < 32 then some (.dmawfpBurst ⟨p, h⟩) else none
  | .waitPeriph p (some .periph) => if h : p < 32 then some (.dmawfpPeriph ⟨p, h⟩) else none
  | .flushPeriph p => if h : p < 32 then some (.dmaflushp ⟨p, h⟩) else none
  | .readBarrier => some .dmarmb
  | .writeBarrier => some .dmawmb
  | .endProgram => some .dmaend
  | .nop => some .dmanop
  | .go cn addr ns => if h : cn < 8 then some (.dmago ns ⟨cn, h⟩ addr) else none
  | .kill => some .dmakill
  | .mov none _ | .load none | .store none | .waitPeriph _ none => none
  | .loopStart _ _ | .loopInsert _ _ _ | .loopEnd _ | .chLoop _ _ _ => none

/-- Everything of a state but its memory and its live buffers, which an encoder command may change (R201). -/
def onlyBuffersChange (s t : State) : Prop := t = { s with mem := t.mem, buffers := t.buffers }

/-- The live buffer of a handle that is not attached, in a state with canonical memory: what an encoder
command needs of its buffer. -/
def State.editable (s : State) (h : Nat) (b : Buffer) : Prop :=
  bufGet s.buffers h = some b ∧ s.attached h = false ∧ b.wf = true ∧ s.mem.wf = true

/-- The answer of a command that ends with a status and payload 0. -/
def Answers (r : Result) (t : State) (st : Status) : Prop :=
  r = .next (t, { status := st, payload := 0, record := none })

/-- The bytes `bs` stand at the offsets of buffer `b` from `start` on. -/
def State.holdsAt (s : State) (b : Buffer) (start : Nat) (bs : List Byte) : Prop :=
  ∀ k, (h : k < bs.length) → s.byteAt (b.addr (start + k)) = bs[k]

/-- Memory differs at most at the `n` offsets of buffer `b` from `start` on. -/
def sameOutside (b : Buffer) (start n : Nat) (s t : State) : Prop :=
  ∀ a, (∀ k, k < n → a ≠ b.addr (start + k)) → t.byteAt a = s.byteAt a

/-- The live buffer of `h` becomes `b`, and no other buffer changes. -/
def onlyBuffer (h : Nat) (b : Buffer) (s t : State) : Prop :=
  bufGet t.buffers h = some b ∧ ∀ h', h' ≠ h → bufGet t.buffers h' = bufGet s.buffers h'

/-- The context a command takes, if it takes one (R803, R810). -/
def commandCtx (cmd : Command) : Option CtxRef :=
  match cmd with
  | .allocProgram _ _ | .freeProgram _ | .setProgramFlags _ _ _ | .inst _ _ | .initialise _ _ _ => none
  | .isInitialised c | .setShortThreshold c _ | .cleanup c | .initParams c _ => some c
  | .setupTransfer c _ _ _ | .setupTransferProgram c _ _ _ => some c
  | .startTransferCh c _ | .startTransfer c => some c
  | .busyCh c _ | .busy c | .transferError c _ | .checkState c _ | .managerError c => some c
  | .completedCh c _ | .completed c | .abortedCh c _ | .aborted c => some c
  | .abort c _ | .sendEvent c _ | .irqSetEnable c _ _ | .irqFlags c _ | .irqClear c _ => some c

/-- The channel operand of a command of 42_channel_fsm.md, if it has one (R602). -/
def commandChannel (cmd : Command) : Option Nat :=
  match cmd with
  | .setupTransferProgram _ ch _ _ | .startTransferCh _ ch | .busyCh _ ch | .transferError _ ch => some ch
  | .checkState _ ch | .completedCh _ ch | .abortedCh _ ch => some ch
  | .allocProgram _ _ | .freeProgram _ | .setProgramFlags _ _ _ | .inst _ _ | .initialise _ _ _ => none
  | .isInitialised _ | .setShortThreshold _ _ | .cleanup _ | .initParams _ _ => none
  | .setupTransfer _ _ _ _ | .startTransfer _ | .busy _ | .managerError _ | .completed _ => none
  | .aborted _ | .abort _ _ | .sendEvent _ _ | .irqSetEnable _ _ _ | .irqFlags _ _ => none
  | .irqClear _ _ => none

/-- A state with an initialised context `c` and nothing for the environment to do before the register
accesses that follow. -/
def State.quiet (s : State) (c : Context) : Prop :=
  s.ctx = some c ∧ c.initialised = true ∧ s.gaps = []

/-- The program length of R543. -/
def synthLength (prm : LegalParams) (R W L : Word) : Nat :=
  let q := quantities prm R W L
  let one := if q.zero then 1 else 2
  if L = 0 then 1
  else
    12 + (if 0 < q.readInitial then (if q.zero then 7 else 7 + (if 0 < q.prefixStore then 1 else 0)) else 0) +
      ((groupSizes q.full).map fun g =>
        6 + (one + (if prm.burstEnable then 0 else 4)) + (if 2 ≤ g then 4 else 0)).sum +
      (if 0 < q.remainder then
        6 + one + (if !prm.burstEnable && decide (2 ≤ q.remainder) then 4 else 0) else 0) +
      (if 0 < q.suffix then 6 + one else 0) +
      (if q.suffix = 0 ∧ 0 < q.lag then 7 else 0) +
      (if prm.srcType = .memory ∧ prm.dstType = .memory then 1 else 0) +
      (if prm.completionEvent then 2 else 0) + 1

end Sys2Proof.Machine
end

