-- ==== Sys2Proof/Laws/State.lean ====
section
/-! SUPPORT. One lemma per field per update of the state, so that no proof unfolds a record update. -/

namespace Sys2Proof.Machine

/-! ## Replacing a channel thread -/

@[simp] theorem setChan_mem (s : State) (n : Fin 8) (c : Channel) : (s.setChan n c).mem = s.mem := rfl
@[simp] theorem setChan_buffers (s : State) (n : Fin 8) (c : Channel) : (s.setChan n c).buffers = s.buffers := rfl
@[simp] theorem setChan_nextHandle (s : State) (n : Fin 8) (c : Channel) : (s.setChan n c).nextHandle = s.nextHandle := rfl
@[simp] theorem setChan_ctx (s : State) (n : Fin 8) (c : Channel) : (s.setChan n c).ctx = s.ctx := rfl
@[simp] theorem setChan_board (s : State) (n : Fin 8) (c : Channel) : (s.setChan n c).board = s.board := rfl
@[simp] theorem setChan_platform (s : State) (n : Fin 8) (c : Channel) : (s.setChan n c).platform = s.platform := rfl
@[simp] theorem setChan_active (s : State) (n : Fin 8) (c : Channel) : (s.setChan n c).active = s.active := rfl
@[simp] theorem setChan_agenda (s : State) (n : Fin 8) (c : Channel) : (s.setChan n c).agenda = s.agenda := rfl
@[simp] theorem setChan_gaps (s : State) (n : Fin 8) (c : Channel) : (s.setChan n c).gaps = s.gaps := rfl
@[simp] theorem setChan_nextThread (s : State) (n : Fin 8) (c : Channel) : (s.setChan n c).nextThread = s.nextThread := rfl
@[simp] theorem setChan_response (s : State) (n : Fin 8) (c : Channel) : (s.setChan n c).response = s.response := rfl
@[simp] theorem setChan_draws (s : State) (n : Fin 8) (c : Channel) : (s.setChan n c).draws = s.draws := rfl
@[simp] theorem setChan_engine_dsr (s : State) (n : Fin 8) (c : Channel) :
    (s.setChan n c).engine.dsr = s.engine.dsr := rfl
@[simp] theorem setChan_engine_dpc (s : State) (n : Fin 8) (c : Channel) :
    (s.setChan n c).engine.dpc = s.engine.dpc := rfl
@[simp] theorem setChan_engine_fsrd (s : State) (n : Fin 8) (c : Channel) :
    (s.setChan n c).engine.fsrd = s.engine.fsrd := rfl
@[simp] theorem setChan_engine_fsrc (s : State) (n : Fin 8) (c : Channel) :
    (s.setChan n c).engine.fsrc = s.engine.fsrc := rfl
@[simp] theorem setChan_engine_ftrd (s : State) (n : Fin 8) (c : Channel) :
    (s.setChan n c).engine.ftrd = s.engine.ftrd := rfl
@[simp] theorem setChan_engine_inten (s : State) (n : Fin 8) (c : Channel) :
    (s.setChan n c).engine.inten = s.engine.inten := rfl
@[simp] theorem setChan_engine_events (s : State) (n : Fin 8) (c : Channel) :
    (s.setChan n c).engine.events = s.engine.events := rfl
@[simp] theorem setChan_engine_irqs (s : State) (n : Fin 8) (c : Channel) :
    (s.setChan n c).engine.irqs = s.engine.irqs := rfl
@[simp] theorem setChan_engine_dbgstatus (s : State) (n : Fin 8) (c : Channel) :
    (s.setChan n c).engine.dbgstatus = s.engine.dbgstatus := rfl
@[simp] theorem setChan_engine_dbgPending (s : State) (n : Fin 8) (c : Channel) :
    (s.setChan n c).engine.dbgPending = s.engine.dbgPending := rfl
@[simp] theorem setChan_engine_dbginst0 (s : State) (n : Fin 8) (c : Channel) :
    (s.setChan n c).engine.dbginst0 = s.engine.dbginst0 := rfl
@[simp] theorem setChan_engine_dbginst1 (s : State) (n : Fin 8) (c : Channel) :
    (s.setChan n c).engine.dbginst1 = s.engine.dbginst1 := rfl
@[simp] theorem setChan_engine_cr (s : State) (n : Fin 8) (c : Channel) :
    (s.setChan n c).engine.cr = s.engine.cr := rfl
@[simp] theorem setChan_engine_crd (s : State) (n : Fin 8) (c : Channel) :
    (s.setChan n c).engine.crd = s.engine.crd := rfl
@[simp] theorem setChan_engine_wd (s : State) (n : Fin 8) (c : Channel) :
    (s.setChan n c).engine.wd = s.engine.wd := rfl
@[simp] theorem setChan_engine_icache (s : State) (n : Fin 8) (c : Channel) :
    (s.setChan n c).engine.icache = s.engine.icache := rfl
@[simp] theorem setChan_engine_periph (s : State) (n : Fin 8) (c : Channel) :
    (s.setChan n c).engine.periph = s.engine.periph := rfl
@[simp] theorem setChan_engine_security (s : State) (n : Fin 8) (c : Channel) :
    (s.setChan n c).engine.security = s.engine.security := rfl

/-- Reading back the channel just written. -/
@[simp] theorem setChan_chan_self (s : State) (n : Fin 8) (c : Channel) : (s.setChan n c).chan n = c := by
  simp [State.setChan, State.chan]

/-- Every other channel is as before. -/
theorem setChan_chan_ne (s : State) (n m : Fin 8) (c : Channel) (h : m ≠ n) :
    (s.setChan n c).chan m = s.chan m := by
  have h' : n.val ≠ m.val := fun e => h (Fin.ext e.symm)
  simp [State.setChan, State.chan, h']

/-- The later write of a channel wins. -/
@[simp] theorem setChan_setChan (s : State) (n : Fin 8) (c d : Channel) :
    (s.setChan n c).setChan n d = s.setChan n d := by
  simp [State.setChan]

/-- Writing back what a channel holds changes nothing. -/
@[simp] theorem setChan_chan (s : State) (n : Fin 8) : s.setChan n (s.chan n) = s := by
  simp [State.setChan, State.chan]

/-- A byte of memory is as before. -/
@[simp] theorem setChan_byteAt (s : State) (n : Fin 8) (c : Channel) (a : Word) :
    (s.setChan n c).byteAt a = s.byteAt a := rfl

/-- The memory map is as before. -/
@[simp] theorem setChan_mappedAt (s : State) (n : Fin 8) (c : Channel) (a : Word) :
    (s.setChan n c).mappedAt a = s.mappedAt a := rfl

/-! ## Drawing free values -/

@[simp] theorem drawn_mem (s : State) (k : Nat) : (s.drawn k).mem = s.mem := rfl
@[simp] theorem drawn_buffers (s : State) (k : Nat) : (s.drawn k).buffers = s.buffers := rfl
@[simp] theorem drawn_nextHandle (s : State) (k : Nat) : (s.drawn k).nextHandle = s.nextHandle := rfl
@[simp] theorem drawn_ctx (s : State) (k : Nat) : (s.drawn k).ctx = s.ctx := rfl
@[simp] theorem drawn_board (s : State) (k : Nat) : (s.drawn k).board = s.board := rfl
@[simp] theorem drawn_platform (s : State) (k : Nat) : (s.drawn k).platform = s.platform := rfl
@[simp] theorem drawn_active (s : State) (k : Nat) : (s.drawn k).active = s.active := rfl
@[simp] theorem drawn_agenda (s : State) (k : Nat) : (s.drawn k).agenda = s.agenda := rfl
@[simp] theorem drawn_gaps (s : State) (k : Nat) : (s.drawn k).gaps = s.gaps := rfl
@[simp] theorem drawn_nextThread (s : State) (k : Nat) : (s.drawn k).nextThread = s.nextThread := rfl
@[simp] theorem drawn_response (s : State) (k : Nat) : (s.drawn k).response = s.response := rfl
@[simp] theorem drawn_engine (s : State) (k : Nat) : (s.drawn k).engine = s.engine := rfl
@[simp] theorem drawn_draws (s : State) (k : Nat) : (s.drawn k).draws = s.draws + k := rfl
@[simp] theorem drawn_chan (s : State) (k : Nat) (n : Fin 8) : (s.drawn k).chan n = s.chan n := rfl
@[simp] theorem drawn_byteAt (s : State) (k : Nat) (a : Word) : (s.drawn k).byteAt a = s.byteAt a := rfl

/-! ## Making a thread active -/

@[simp] theorem activate_mem (s : State) (t : Thread) : (s.activate t).mem = s.mem := rfl
@[simp] theorem activate_buffers (s : State) (t : Thread) : (s.activate t).buffers = s.buffers := rfl
@[simp] theorem activate_nextHandle (s : State) (t : Thread) : (s.activate t).nextHandle = s.nextHandle := rfl
@[simp] theorem activate_ctx (s : State) (t : Thread) : (s.activate t).ctx = s.ctx := rfl
@[simp] theorem activate_board (s : State) (t : Thread) : (s.activate t).board = s.board := rfl
@[simp] theorem activate_platform (s : State) (t : Thread) : (s.activate t).platform = s.platform := rfl
@[simp] theorem activate_agenda (s : State) (t : Thread) : (s.activate t).agenda = s.agenda := rfl
@[simp] theorem activate_gaps (s : State) (t : Thread) : (s.activate t).gaps = s.gaps := rfl
@[simp] theorem activate_nextThread (s : State) (t : Thread) : (s.activate t).nextThread = s.nextThread := rfl
@[simp] theorem activate_response (s : State) (t : Thread) : (s.activate t).response = s.response := rfl
@[simp] theorem activate_draws (s : State) (t : Thread) : (s.activate t).draws = s.draws := rfl
@[simp] theorem activate_engine (s : State) (t : Thread) : (s.activate t).engine = s.engine := rfl
@[simp] theorem activate_active (s : State) (t : Thread) :
    (s.activate t).active = { thread := t, origin := .memory } := rfl
@[simp] theorem activate_chan (s : State) (t : Thread) (n : Fin 8) : (s.activate t).chan n = s.chan n := rfl
@[simp] theorem activate_byteAt (s : State) (t : Thread) (a : Word) :
    (s.activate t).byteAt a = s.byteAt a := rfl
@[simp] theorem activate_runsOn (s : State) (n : Fin 8) : (s.activate (.channel n)).runsOn n := rfl

/-! ## A thread's status and program counter -/

@[simp] theorem setThreadStatus_channel (s : State) (n : Fin 8) (v : BitVec 4) :
    s.setThreadStatus (.channel n) v = s.setChan n { s.chan n with csr := withStatus (s.chan n).csr v } := rfl
@[simp] theorem setThreadStatus_manager (s : State) (v : BitVec 4) :
    s.setThreadStatus .manager v = { s with engine := { s.engine with dsr := withStatus s.engine.dsr v } } :=
  rfl
@[simp] theorem setThreadPc_channel (s : State) (n : Fin 8) (a : Word) :
    s.setThreadPc (.channel n) a = s.setChan n { s.chan n with pc := a } := rfl
@[simp] theorem setThreadPc_manager (s : State) (a : Word) :
    s.setThreadPc .manager a = { s with engine := { s.engine with dpc := a } } := rfl
@[simp] theorem threadPc_channel (s : State) (n : Fin 8) : s.threadPc (.channel n) = (s.chan n).pc := rfl
@[simp] theorem threadPc_manager (s : State) : s.threadPc .manager = s.engine.dpc := rfl
@[simp] theorem threadStatus_channel (s : State) (n : Fin 8) :
    s.threadStatus (.channel n) = statusOf (s.chan n).csr := rfl
@[simp] theorem threadStatus_manager (s : State) : s.threadStatus .manager = statusOf s.engine.dsr := rfl

@[simp] theorem setThreadStatus_mem (s : State) (t : Thread) (v : BitVec 4) :
    (s.setThreadStatus t v).mem = s.mem := by cases t <;> rfl
@[simp] theorem setThreadStatus_buffers (s : State) (t : Thread) (v : BitVec 4) :
    (s.setThreadStatus t v).buffers = s.buffers := by cases t <;> rfl
@[simp] theorem setThreadStatus_nextHandle (s : State) (t : Thread) (v : BitVec 4) :
    (s.setThreadStatus t v).nextHandle = s.nextHandle := by cases t <;> rfl
@[simp] theorem setThreadStatus_ctx (s : State) (t : Thread) (v : BitVec 4) :
    (s.setThreadStatus t v).ctx = s.ctx := by cases t <;> rfl
@[simp] theorem setThreadStatus_board (s : State) (t : Thread) (v : BitVec 4) :
    (s.setThreadStatus t v).board = s.board := by cases t <;> rfl
@[simp] theorem setThreadStatus_platform (s : State) (t : Thread) (v : BitVec 4) :
    (s.setThreadStatus t v).platform = s.platform := by cases t <;> rfl
@[simp] theorem setThreadStatus_active (s : State) (t : Thread) (v : BitVec 4) :
    (s.setThreadStatus t v).active = s.active := by cases t <;> rfl
@[simp] theorem setThreadStatus_agenda (s : State) (t : Thread) (v : BitVec 4) :
    (s.setThreadStatus t v).agenda = s.agenda := by cases t <;> rfl
@[simp] theorem setThreadStatus_gaps (s : State) (t : Thread) (v : BitVec 4) :
    (s.setThreadStatus t v).gaps = s.gaps := by cases t <;> rfl
@[simp] theorem setThreadStatus_nextThread (s : State) (t : Thread) (v : BitVec 4) :
    (s.setThreadStatus t v).nextThread = s.nextThread := by cases t <;> rfl
@[simp] theorem setThreadStatus_response (s : State) (t : Thread) (v : BitVec 4) :
    (s.setThreadStatus t v).response = s.response := by cases t <;> rfl
@[simp] theorem setThreadStatus_draws (s : State) (t : Thread) (v : BitVec 4) :
    (s.setThreadStatus t v).draws = s.draws := by cases t <;> rfl
@[simp] theorem setThreadPc_mem (s : State) (t : Thread) (v : Word) :
    (s.setThreadPc t v).mem = s.mem := by cases t <;> rfl
@[simp] theorem setThreadPc_buffers (s : State) (t : Thread) (v : Word) :
    (s.setThreadPc t v).buffers = s.buffers := by cases t <;> rfl
@[simp] theorem setThreadPc_nextHandle (s : State) (t : Thread) (v : Word) :
    (s.setThreadPc t v).nextHandle = s.nextHandle := by cases t <;> rfl
@[simp] theorem setThreadPc_ctx (s : State) (t : Thread) (v : Word) :
    (s.setThreadPc t v).ctx = s.ctx := by cases t <;> rfl
@[simp] theorem setThreadPc_board (s : State) (t : Thread) (v : Word) :
    (s.setThreadPc t v).board = s.board := by cases t <;> rfl
@[simp] theorem setThreadPc_platform (s : State) (t : Thread) (v : Word) :
    (s.setThreadPc t v).platform = s.platform := by cases t <;> rfl
@[simp] theorem setThreadPc_active (s : State) (t : Thread) (v : Word) :
    (s.setThreadPc t v).active = s.active := by cases t <;> rfl
@[simp] theorem setThreadPc_agenda (s : State) (t : Thread) (v : Word) :
    (s.setThreadPc t v).agenda = s.agenda := by cases t <;> rfl
@[simp] theorem setThreadPc_gaps (s : State) (t : Thread) (v : Word) :
    (s.setThreadPc t v).gaps = s.gaps := by cases t <;> rfl
@[simp] theorem setThreadPc_nextThread (s : State) (t : Thread) (v : Word) :
    (s.setThreadPc t v).nextThread = s.nextThread := by cases t <;> rfl
@[simp] theorem setThreadPc_response (s : State) (t : Thread) (v : Word) :
    (s.setThreadPc t v).response = s.response := by cases t <;> rfl
@[simp] theorem setThreadPc_draws (s : State) (t : Thread) (v : Word) :
    (s.setThreadPc t v).draws = s.draws := by cases t <;> rfl

/-! ## Status fields -/

/-- The status just written is read back. -/
@[simp] theorem statusOf_withStatus (w : Word) (v : BitVec 4) : statusOf (withStatus w v) = v := by
  ext i hi
  have : i = 0 ∨ i = 1 ∨ i = 2 ∨ i = 3 := by omega
  rcases this with rfl | rfl | rfl | rfl <;> simp [statusOf, withStatus]

/-- The later status written wins. -/
@[simp] theorem withStatus_withStatus (w : Word) (u v : BitVec 4) :
    withStatus (withStatus w u) v = withStatus w v := by
  ext i hi
  by_cases h : i < 4
  · have : i = 0 ∨ i = 1 ∨ i = 2 ∨ i = 3 := by omega
    rcases this with rfl | rfl | rfl | rfl <;> simp [withStatus]
  · have h' : 4 ≤ i := by omega
    simp [withStatus, BitVec.getLsbD_of_ge u i h']

end Sys2Proof.Machine
end

