-- ==== Sys2Proof/Laws/Memory.lean ====
section
/-! SUPPORT. The laws of memory: a read after a write, the canonical form, and the operations that keep it. -/

namespace Sys2Proof.Machine

/-! ## One byte -/

/-- A canonical memory from `lo` on reads as an unlisted address below `lo`. -/
theorem memRead_below {m : Memory} {lo a : Nat} (h : memWfFrom lo m = true) (ha : a < lo) :
    memRead m a = unlistedByte := by
  induction m generalizing lo with
  | nil => rfl
  | cons p m ih =>
    obtain ⟨b, v⟩ := p
    simp only [memWfFrom, Bool.and_eq_true, decide_eq_true_eq] at h
    have hne : a ≠ b := by omega
    simp only [memRead, hne, if_false]
    exact ih h.2 (by omega)

/-- A canonical memory from a higher address is canonical from a lower one. -/
theorem memWfFrom_mono {m : Memory} {lo lo' : Nat} (h : memWfFrom lo m = true) (hl : lo' ≤ lo) :
    memWfFrom lo' m = true := by
  cases m with
  | nil => rfl
  | cons p m =>
    simp only [memWfFrom, Bool.and_eq_true, decide_eq_true_eq] at h ⊢
    exact ⟨⟨⟨by omega, h.1.1.2⟩, h.1.2⟩, h.2⟩

/-- A write keeps the canonical form from any lower bound at or below its address. -/
theorem memWrite_wfFrom {m : Memory} {lo a : Nat} {v : Byte} (h : memWfFrom lo m = true) (hl : lo ≤ a)
    (ha : a < 2 ^ 32) : memWfFrom lo (memWrite m a v) = true := by
  induction m generalizing lo with
  | nil => by_cases hv : v = unlistedByte <;> simp [memWrite, memWfFrom, hv]; omega
  | cons p m ih =>
    obtain ⟨b, w⟩ := p
    simp only [memWfFrom, Bool.and_eq_true, decide_eq_true_eq, bne_iff_ne, ne_eq] at h
    obtain ⟨⟨⟨h1, h2⟩, h3⟩, h4⟩ := h
    unfold memWrite
    split
    · split
      · simp [memWfFrom, *]
        omega
      · rename_i hab hv
        simp [memWfFrom, *]
        omega
    · split
      · split
        · exact memWfFrom_mono h4 (by omega)
        · rename_i _ hab hv
          subst hab
          simp [memWfFrom, *]
          omega
      · simp only [memWfFrom, Bool.and_eq_true, decide_eq_true_eq, bne_iff_ne, ne_eq]
        exact ⟨⟨⟨h1, h2⟩, h3⟩, ih h4 (by omega)⟩

/-- A write keeps the canonical form. -/
theorem memWrite_wf {m : Memory} {a : Nat} {v : Byte} (h : m.wf = true) (ha : a < 2 ^ 32) :
    (memWrite m a v).wf = true :=
  memWrite_wfFrom h (Nat.zero_le a) ha

/-- A write leaves every other address alone. -/
theorem memRead_memWrite_ne {m : Memory} {a b : Nat} {v : Byte} (h : b ≠ a) :
    memRead (memWrite m a v) b = memRead m b := by
  induction m with
  | nil => by_cases hv : v = unlistedByte <;> simp [memWrite, memRead, hv, h]
  | cons p m ih =>
    obtain ⟨c, w⟩ := p
    unfold memWrite
    split
    · split
      · rfl
      · simp [memRead, h]
    · split
      · rename_i _ hac
        subst hac
        split <;> simp [memRead, h]
      · simp only [memRead, ih]

/-- A read after a write to the same address of a canonical memory gives the value written. -/
theorem memRead_memWrite_self {m : Memory} {a : Nat} {v : Byte} {lo : Nat} (hm : memWfFrom lo m = true) :
    memRead (memWrite m a v) a = v := by
  induction m generalizing lo with
  | nil => by_cases hv : v = unlistedByte <;> simp [memWrite, memRead, hv]
  | cons p m ih =>
    obtain ⟨b, w⟩ := p
    simp only [memWfFrom, Bool.and_eq_true, decide_eq_true_eq] at hm
    unfold memWrite
    split
    · split
      · rename_i hab hv
        rw [hv]
        have hne : a ≠ b := by omega
        simp only [memRead, hne, if_false]
        exact memRead_below hm.2 (by omega)
      · simp [memRead]
    · split
      · rename_i _ hab
        split
        · rename_i hv
          rw [hv]
          exact memRead_below hm.2 (by omega)
        · simp [memRead]
      · rename_i _ hab
        simp only [memRead, hab, if_false]
        exact ih hm.2

/-! ## Many bytes -/

/-- Many writes keep the canonical form. -/
theorem memWrites_wf {m : Memory} {cells : List (Word × Byte)} (h : m.wf = true) :
    (memWrites m cells).wf = true := by
  induction cells generalizing m with
  | nil => exact h
  | cons c cells ih => exact ih (memWrite_wf h c.1.isLt)

/-- Many writes leave every other address alone. -/
theorem memRead_memWrites_notMem {m : Memory} {cells : List (Word × Byte)} {a : Word}
    (h : a ∉ cells.map Prod.fst) : memRead (memWrites m cells) a.toNat = memRead m a.toNat := by
  induction cells generalizing m with
  | nil => rfl
  | cons c cells ih =>
    simp only [List.map_cons, List.mem_cons, not_or] at h
    have hne : a.toNat ≠ c.1.toNat := fun e => h.1 (BitVec.eq_of_toNat_eq e)
    exact (ih h.2).trans (memRead_memWrite_ne hne)

/-- Where the addresses are distinct, each reads as the byte written to it. -/
theorem memRead_memWrites_mem {m : Memory} {cells : List (Word × Byte)} {a : Word} {v : Byte}
    (hm : m.wf = true) (hd : (cells.map Prod.fst).Nodup) (h : (a, v) ∈ cells) :
    memRead (memWrites m cells) a.toNat = v := by
  induction cells generalizing m with
  | nil => cases h
  | cons c cells ih =>
    simp only [List.map_cons, List.nodup_cons] at hd
    rcases List.mem_cons.mp h with rfl | h
    · exact (memRead_memWrites_notMem hd.1).trans (memRead_memWrite_self (lo := 0) hm)
    · exact ih (memWrite_wf hm c.1.isLt) hd.2 h

/-- One write after many. -/
theorem memWrites_append (m : Memory) (xs ys : List (Word × Byte)) :
    memWrites m (xs ++ ys) = memWrites (memWrites m xs) ys := by
  simp [memWrites]

/-! ## Two canonical memories that read alike are the same -/

/-- Two canonical memories with the same bytes are equal. -/
theorem mem_ext {m m' : Memory} {lo : Nat} (h : memWfFrom lo m = true) (h' : memWfFrom lo m' = true)
    (hr : ∀ a, memRead m a = memRead m' a) : m = m' := by
  induction m generalizing lo m' with
  | nil =>
    cases m' with
    | nil => rfl
    | cons p m' =>
      simp only [memWfFrom, Bool.and_eq_true, bne_iff_ne, ne_eq] at h'
      exact absurd (by simpa [memRead] using (hr p.1).symm) h'.1.2
  | cons p m ih =>
    obtain ⟨b, w⟩ := p
    simp only [memWfFrom, Bool.and_eq_true, decide_eq_true_eq, bne_iff_ne, ne_eq] at h
    cases m' with
    | nil => exact absurd (by simpa [memRead] using hr b) h.1.2
    | cons p' m' =>
      obtain ⟨b', w'⟩ := p'
      simp only [memWfFrom, Bool.and_eq_true, decide_eq_true_eq, bne_iff_ne, ne_eq] at h'
      have hb : b = b' := by
        rcases Nat.lt_trichotomy b b' with hlt | he | hlt
        · have := hr b
          simp only [memRead, if_true] at this
          rw [if_neg (by omega), memRead_below h'.2 (by omega)] at this
          exact absurd this h.1.2
        · exact he
        · have := hr b'
          simp only [memRead, if_true] at this
          rw [if_neg (by omega), memRead_below h.2 (by omega)] at this
          exact absurd this.symm h'.1.2
      subst hb
      have hw : w = w' := by simpa [memRead] using hr b
      subst hw
      congr 1
      refine ih h.2 h'.2 fun a => ?_
      by_cases ha : a = b
      · subst ha
        rw [memRead_below h.2 (by omega), memRead_below h'.2 (by omega)]
      · simpa [memRead, ha] using hr a

end Sys2Proof.Machine
end

