-- ==== Sys2Proof/Laws/Ops.lean ====
section
/-! SUPPORT. What each shared operation of the engine's meanings can do, said once: where it answers, what the state is. -/

namespace Sys2Proof.Machine

/-! ## Going on (R561) -/

/-- On a channel thread running from memory, an instruction's end writes the pc and the status. -/
theorem moveOn_channel {s : State} {n : Fin 8} (h : s.runsOn n) (f : Word → Word) :
    s.moveOn f = s.setChan n { s.chan n with
      pc := f (s.chan n).pc, csr := withStatus (s.chan n).csr stExecuting } := by
  have h1 : s.active.origin = .memory := by rw [h]
  have h2 : s.active.thread = .channel n := by rw [h]
  simp [State.moveOn, h1, h2]

/-- Likewise on the manager thread. -/
theorem moveOn_manager {s : State} (h : s.active = { thread := .manager, origin := .memory })
    (f : Word → Word) :
    s.moveOn f = { s with engine := { s.engine with
      dpc := f s.engine.dpc, dsr := withStatus s.engine.dsr stExecuting } } := by
  simp [State.moveOn, h]

/-- An instruction from the debug interface moves nothing (log 14). -/
theorem moveOn_debug {s : State} (h : s.active.origin = .debug) (f : Word → Word) : s.moveOn f = s := by
  simp [State.moveOn, h]

/-- `retire` on a channel thread running from memory. -/
theorem retire_channel {s : State} {n : Fin 8} (h : s.runsOn n) (k : Nat) :
    s.retire k = s.setChan n { s.chan n with
      pc := (s.chan n).pc + BitVec.ofNat 32 k, csr := withStatus (s.chan n).csr stExecuting } :=
  moveOn_channel h _

/-- Replacing a channel does not change which thread is active. -/
@[simp] theorem runsOn_setChan (s : State) (n m : Fin 8) (c : Channel) :
    (s.setChan m c).runsOn n ↔ s.runsOn n := Iff.rfl

/-- Whatever thread is active, going on leaves memory, buffers, context and everything outside the engine. -/
theorem moveOn_frame (s : State) (f : Word → Word) :
    (s.moveOn f).mem = s.mem ∧ (s.moveOn f).buffers = s.buffers ∧ (s.moveOn f).ctx = s.ctx ∧
      (s.moveOn f).nextHandle = s.nextHandle ∧ (s.moveOn f).agenda = s.agenda ∧
      (s.moveOn f).platform = s.platform ∧ (s.moveOn f).active = s.active := by
  unfold State.moveOn
  split <;> simp

/-! ## Faults (R820) -/

/-- The fault word that is recorded: with dbg_instr for a debug instruction (R150, R151). -/
def faultWord (bits : Word) (s : State) : Word :=
  if s.active.origin = .debug then setBit bits fltDbgInstr else bits

/-- Taking a fault on a channel thread (R820). -/
theorem takeFault_channel {s : State} {n : Fin 8} (h : s.active.thread = .channel n) (bits : Word) :
    takeFault bits s =
      { s.setChan n { s.chan n with
          csr := withStatus (s.chan n).csr stFaulting, ftr := faultWord bits s } with
        engine := { (s.setChan n { s.chan n with
          csr := withStatus (s.chan n).csr stFaulting, ftr := faultWord bits s }).engine with
          fsrc := setBit s.engine.fsrc n.val } } := by
  simp [takeFault, h, faultWord]

/-- Taking a fault on the manager thread (R820). -/
theorem takeFault_manager {s : State} (h : s.active.thread = .manager) (bits : Word) :
    takeFault bits s = { s with engine := { s.engine with
      dsr := withStatus s.engine.dsr stFaulting
      fsrd := setBit s.engine.fsrd 0
      ftrd := faultWord bits s } } := by
  simp [takeFault, h, faultWord]

/-- A fault leaves memory, buffers, context and everything outside the engine. -/
theorem takeFault_frame (bits : Word) (s : State) :
    (takeFault bits s).mem = s.mem ∧ (takeFault bits s).buffers = s.buffers ∧
      (takeFault bits s).ctx = s.ctx ∧ (takeFault bits s).nextHandle = s.nextHandle ∧
      (takeFault bits s).agenda = s.agenda ∧ (takeFault bits s).platform = s.platform := by
  cases h : s.active.thread <;> simp [takeFault, h]

/-- A kill leaves memory, buffers, context and everything outside the engine. -/
theorem killThread_frame (t : Thread) (s : State) :
    (killThread t s).mem = s.mem ∧ (killThread t s).buffers = s.buffers ∧
      (killThread t s).ctx = s.ctx ∧ (killThread t s).nextHandle = s.nextHandle ∧
      (killThread t s).agenda = s.agenda ∧ (killThread t s).platform = s.platform := by
  unfold killThread
  split
  · simp
  · cases t <;> simp

/-- A kill leaves its thread stopped (R712). -/
theorem killThread_stopped (t : Thread) (s : State) : (killThread t s).threadStatus t = stStopped := by
  unfold killThread
  split
  · assumption
  · cases t <;> simp [State.chan, State.setChan]

/-! ## Stores (R224) -/

/-- A store changes memory at its cells or the channel's queue, and nothing else. -/
theorem storeCells_cases (s : State) (n : Fin 8) (cells : List (Word × Byte)) :
    (s.platform.stopImpliesWritesDone = true ∧
      s.storeCells n cells = { s with mem := memWrites s.mem cells }) ∨
    (s.platform.stopImpliesWritesDone = false ∧
      s.storeCells n cells = s.setChan n { s.chan n with writes := (s.chan n).writes ++ cells }) := by
  unfold State.storeCells
  split
  · exact .inl ⟨by assumption, rfl⟩
  · rename_i h
    exact .inr ⟨by simpa using h, rfl⟩

/-- A store keeps the canonical form of memory. -/
theorem storeCells_wf {s : State} (h : s.mem.wf = true) (n : Fin 8) (cells : List (Word × Byte)) :
    (s.storeCells n cells).mem.wf = true := by
  rcases storeCells_cases s n cells with ⟨-, e⟩ | ⟨-, e⟩ <;> rw [e]
  · exact memWrites_wf h
  · exact h

/-- Completing the queued writes keeps the canonical form of memory. -/
theorem completeWrites_wf {s : State} (h : s.mem.wf = true) (n : Fin 8) :
    (s.completeWrites n).mem.wf = true :=
  memWrites_wf h

/-- Completing the oldest queued write keeps the canonical form of memory. -/
theorem drainWrite_wf {s : State} (h : s.mem.wf = true) (n : Fin 8) : (s.drainWrite n).mem.wf = true := by
  unfold State.drainWrite
  split
  · exact h
  · exact memWrites_wf h

/-! ## Events (R144, R825) -/

/-- A signalled event raises the interrupt, or wakes the threads that wait for it, or becomes active, and changes
nothing else. -/
theorem signalEvent_cases (s : State) (ev : Fin 32) :
    (s.engine.inten.getLsbD ev.val = true ∧
      s.signalEvent ev = { s with engine := { s.engine with irqs := setBit s.engine.irqs ev.val } }) ∨
    (s.engine.inten.getLsbD ev.val = false ∧ s.engine.awaited ev = true ∧
      s.signalEvent ev = { s with engine := s.engine.wake ev }) ∨
    (s.engine.inten.getLsbD ev.val = false ∧ s.engine.awaited ev = false ∧
      s.signalEvent ev = { s with engine := { s.engine with events := setBit s.engine.events ev.val } }) := by
  unfold State.signalEvent
  split
  · exact .inl ⟨by assumption, rfl⟩
  · rename_i h
    split
    · exact .inr (.inl ⟨by simpa using h, by assumption, rfl⟩)
    · rename_i h'
      exact .inr (.inr ⟨by simpa using h, by simpa using h', rfl⟩)

/-- The channel threads after an event has been signalled to those that wait for it. -/
@[simp] theorem wake_chan (e : Engine) (ev : Fin 32) (n : Fin 8) :
    (e.wake ev).chan[n] = e.chan[n].woken ev := by
  obtain ⟨i, hi⟩ := n
  have h8 : i = 0 ∨ i = 1 ∨ i = 2 ∨ i = 3 ∨ i = 4 ∨ i = 5 ∨ i = 6 ∨ i = 7 := by omega
  rcases h8 with rfl | rfl | rfl | rfl | rfl | rfl | rfl | rfl <;> rfl

/-- A thread waits for an event when its status says so and its wakeup number is the event's (R142, R152). -/
theorem waitsForEvent_iff (w : Word) (ev : Fin 32) :
    waitsForEvent w ev = true ↔ statusOf w = 0x4#4 ∧ (w.extractLsb' 4 5).toNat = ev.val := by
  have h : (BitVec.ofNat 5 ev.val).toNat = ev.val := by
    rw [BitVec.toNat_ofNat]
    omega
  have h' : w.extractLsb' 4 5 = BitVec.ofNat 5 ev.val ↔ (w.extractLsb' 4 5).toNat = ev.val := by
    rw [← BitVec.toNat_inj, h]
  simp only [waitsForEvent, stWaitEvent, Bool.and_eq_true, beq_iff_eq, h']
  exact Iff.rfl

/-- Every channel is one of the eight. -/
theorem mem_allChannels (n : Fin 8) : n ∈ allChannels := by
  revert n
  decide

/-- An event is awaited when the manager or a channel thread waits for it. -/
theorem awaited_iff (e : Engine) (ev : Fin 32) :
    e.awaited ev = true ↔ waitsForEvent e.dsr ev = true ∨ ∃ n : Fin 8, waitsForEvent e.chan[n].csr ev = true := by
  simp only [Engine.awaited, Bool.or_eq_true, List.any_eq_true]
  constructor
  · rintro (h | ⟨n, -, h⟩)
    · exact .inl h
    · exact .inr ⟨n, h⟩
  · rintro (h | ⟨n, h⟩)
    · exact .inl h
    · exact .inr ⟨n, mem_allChannels n, h⟩

/-- Waiting, for an instruction fetched from memory, writes the status and the wakeup number, and nothing else. -/
theorem waitFor_channel {s : State} (h : s.active.origin = .memory) (n : Fin 8) (st : BitVec 4) (k : Fin 32) :
    s.waitFor (.channel n) st k =
      s.setChan n { s.chan n with csr := withWakeup (withStatus (s.chan n).csr st) k } := by
  simp [State.waitFor, h]

/-! ## Channel instructions -/

/-- A channel instruction on a channel thread. -/
theorem onChannel_channel {s : State} {n : Fin 8} (h : s.active.thread = .channel n)
    (f : Fin 8 → State → State) : onChannel f s = .next (f n s) := by
  simp [onChannel, h]

/-- A channel instruction on the manager thread is undefined there (log 15). -/
theorem onChannel_manager {s : State} (h : s.active.thread = .manager) (f : Fin 8 → State → State) :
    onChannel f s = .next (takeFaultBit fltUndefInstr s) := by
  simp [onChannel, h]

/-- A channel instruction always answers a next state. -/
theorem onChannel_next (f : Fin 8 → State → State) (s : State) : ∃ t, onChannel f s = .next t := by
  unfold onChannel
  split <;> exact ⟨_, rfl⟩

/-- A conditional instruction executes when its condition holds, else it is passed over (R305). -/
theorem whenCond_cases (cond : Cond) (len : Nat) (f : Fin 8 → State → State) (n : Fin 8) (s : State) :
    (condHolds cond (s.chan n).reqType = true ∧ whenCond cond len f n s = f n s) ∨
    (condHolds cond (s.chan n).reqType = false ∧ whenCond cond len f n s = s.retire len) := by
  unfold whenCond
  split
  · exact .inl ⟨by assumption, rfl⟩
  · rename_i h
    exact .inr ⟨by simpa using h, rfl⟩

end Sys2Proof.Machine
end

