-- ==== Sys2Proof/Laws/Exec.lean ====
section
/-! SUPPORT. Every instruction answers a next state: an engine thread never stops the machine (R820: faults are taken). -/

namespace Sys2Proof.Machine

/-- `exec` always answers a next state. -/
theorem exec_next (i : Instr) (s : State) : ∃ t, exec i s = .next t := by
  cases i
  case dmaend =>
    simp only [exec, execDmaend]
    split <;> exact ⟨_, rfl⟩
  case dmarmb => exact onChannel_next (fun _ s => s.retire 1) s
  case dmawmb => exact onChannel_next (fun n s => (s.completeWrites n).retire 1) s
  all_goals first
    | exact onChannel_next _ s
    | exact ⟨_, rfl⟩

/-- The bytes of an instruction, or of none, always give a next state. -/
theorem runBytes_next (bs : List Byte) (s : State) : ∃ t, runBytes bs s = .next t := by
  unfold runBytes
  split
  · exact exec_next _ s
  · exact ⟨_, rfl⟩

/-- A thread's step always answers a next state. -/
theorem threadStep_next (t : Thread) (s : State) : ∃ u, threadStep t s = .next u := by
  unfold threadStep
  split
  · exact ⟨_, rfl⟩
  · simp only
    split
    · exact ⟨_, rfl⟩
    · exact runBytes_next _ _

/-- The debug interface always answers a next state. -/
theorem debugRun_next (s : State) : ∃ u, debugRun s = .next u := by
  unfold debugRun
  split
  · exact ⟨_, rfl⟩
  · split
    · obtain ⟨u, hu⟩ := runBytes_next (debugBytes s.engine.dbginst0 s.engine.dbginst1)
        { s with
          active := { thread := debugThread s.engine.dbginst0, origin := .debug }
          engine := { s.engine with dbgPending := false } }
      exact ⟨_, by rw [executeDebug, hu]; rfl⟩
    · exact ⟨_, rfl⟩

/-- An activity always answers a next state. -/
theorem runActivity_next (a : Activity) (s : State) : ∃ u, runActivity a s = .next u := by
  cases a
  case thread t => exact threadStep_next t s
  case debugRun => exact debugRun_next s
  all_goals exact ⟨_, rfl⟩

/-- With an empty agenda the machine always answers a next state. -/
theorem engineStep_next (s : State) : ∃ u, engineStep s = .next u := by
  unfold engineStep
  split
  · exact debugRun_next s
  · split
    · exact ⟨_, rfl⟩
    · exact threadStep_next _ _

end Sys2Proof.Machine
end

