-- ==== Sys2Proof/Laws/PerInstr.lean ====
section
/-! SUPPORT. Statements made for each instruction apart: the first byte of an encoding gives its length (R345), so bytes
can be read one instruction after another. -/

namespace Sys2Proof.Laws

/-- The first byte of the instruction's encoding says how many bytes the encoding has (R345). -/
def LengthByFirstByte.Statement (i : Instr) : Prop :=
  ∃ b0 rest, encode i = b0 :: rest ∧ instrLength b0 = some (encode i).length

namespace LengthByFirstByte

theorem dmaend : Statement .dmaend := ⟨_, _, rfl, by decide⟩
theorem dmakill : Statement .dmakill := ⟨_, _, rfl, by decide⟩
theorem dmald : Statement .dmald := ⟨_, _, rfl, by decide⟩
theorem dmalds : Statement .dmalds := ⟨_, _, rfl, by decide⟩
theorem dmaldb : Statement .dmaldb := ⟨_, _, rfl, by decide⟩
theorem dmast : Statement .dmast := ⟨_, _, rfl, by decide⟩
theorem dmasts : Statement .dmasts := ⟨_, _, rfl, by decide⟩
theorem dmastb : Statement .dmastb := ⟨_, _, rfl, by decide⟩
theorem dmastz : Statement .dmastz := ⟨_, _, rfl, by decide⟩
theorem dmarmb : Statement .dmarmb := ⟨_, _, rfl, by decide⟩
theorem dmawmb : Statement .dmawmb := ⟨_, _, rfl, by decide⟩
theorem dmanop : Statement .dmanop := ⟨_, _, rfl, by decide⟩
theorem dmawfpSingle (p : Fin 32) : Statement (.dmawfpSingle p) := ⟨_, _, rfl, by simp only [encode, List.length]; decide⟩
theorem dmawfpPeriph (p : Fin 32) : Statement (.dmawfpPeriph p) := ⟨_, _, rfl, by simp only [encode, List.length]; decide⟩
theorem dmawfpBurst (p : Fin 32) : Statement (.dmawfpBurst p) := ⟨_, _, rfl, by simp only [encode, List.length]; decide⟩
theorem dmaflushp (p : Fin 32) : Statement (.dmaflushp p) := ⟨_, _, rfl, by simp only [encode, List.length]; decide⟩
theorem dmaldps (p : Fin 32) : Statement (.dmaldps p) := ⟨_, _, rfl, by simp only [encode, List.length]; decide⟩
theorem dmaldpb (p : Fin 32) : Statement (.dmaldpb p) := ⟨_, _, rfl, by simp only [encode, List.length]; decide⟩
theorem dmastps (p : Fin 32) : Statement (.dmastps p) := ⟨_, _, rfl, by simp only [encode, List.length]; decide⟩
theorem dmastpb (p : Fin 32) : Statement (.dmastpb p) := ⟨_, _, rfl, by simp only [encode, List.length]; decide⟩
theorem dmasev (ev : Fin 32) : Statement (.dmasev ev) := ⟨_, _, rfl, by simp only [encode, List.length]; decide⟩
theorem dmawfe (ev : Fin 32) (inv : Bool) : Statement (.dmawfe ev inv) :=
  ⟨_, _, rfl, by simp only [encode, List.length]; decide⟩
theorem dmalp (c : LoopCtr) (iter : Nat) : Statement (.dmalp c iter) := by
  cases c <;> exact ⟨_, _, rfl, by simp only [encode, List.length]; decide⟩
theorem dmalpend (c : LoopCtr) (jump : Byte) : Statement (.dmalpend c jump) := by
  cases c <;> exact ⟨_, _, rfl, by simp only [encode, encodeLoopEnd, List.length]; decide⟩
theorem dmalpends (c : LoopCtr) (jump : Byte) : Statement (.dmalpends c jump) := by
  cases c <;> exact ⟨_, _, rfl, by simp only [encode, encodeLoopEnd, List.length]; decide⟩
theorem dmalpendb (c : LoopCtr) (jump : Byte) : Statement (.dmalpendb c jump) := by
  cases c <;> exact ⟨_, _, rfl, by simp only [encode, encodeLoopEnd, List.length]; decide⟩
theorem dmalpfe (c : LoopCtr) (jump : Byte) : Statement (.dmalpfe c jump) := by
  cases c <;> exact ⟨_, _, rfl, by simp only [encode, encodeLoopEnd, List.length]; decide⟩
theorem dmago (ns : Bool) (cn : Fin 8) (addr : Word) : Statement (.dmago ns cn addr) := by
  cases ns <;> exact ⟨_, _, rfl, by simp only [encode, le32, List.length]; decide⟩
theorem dmamov (rd : RegId) (imm : Word) : Statement (.dmamov rd imm) :=
  ⟨_, _, rfl, by simp only [encode, le32, List.length]; decide⟩
theorem dmaaddh (ra : AddrReg) (imm : BitVec 16) : Statement (.dmaaddh ra imm) := by
  cases ra <;> exact ⟨_, _, rfl, by simp only [encode, le16, List.length]; decide⟩
theorem dmaadnh (ra : AddrReg) (imm : BitVec 16) : Statement (.dmaadnh ra imm) := by
  cases ra <;> exact ⟨_, _, rfl, by simp only [encode, le16, List.length]; decide⟩

end LengthByFirstByte

end Sys2Proof.Laws
end

