-- ==== Sys2Proof/Certificates/Slice0/Obligations.lean ====
section
/-! DEFINITION. The statements for the provers. -/

open Sys2Proof Sys2Proof.Machine

/-! ## Encodings (30_encoding.md) -/

/-- Decoding the bytes of a well-formed instruction gives it back with every operand, and the bytes after it
(R346). -/
def Obligations.DecodeEncode : Prop :=
  ∀ (i : Instr) (rest : List Byte), i.wellFormed = true → decode (encode i ++ rest) = .ok (i, rest)

/-- Whatever the decoder accepts is a well-formed instruction, and the bytes it consumed are that
instruction's encoding: no two byte strings mean one instruction, and no bit is dropped (R300..R318,
R340, R342). -/
def Obligations.EncodeDecode : Prop :=
  ∀ (bs rest : List Byte) (i : Instr), decode bs = .ok (i, rest) →
    i.wellFormed = true ∧ bs = encode i ++ rest

/-- The examples of 40_encoder.md and V-ENC-2 decode to the instructions they stand for. -/
def Obligations.SampleWordsDecode : Prop :=
  decode [0xBC, 0x00, 0x03, 0x10, 0x00, 0x00] = .ok (.dmamov .sar 0x00001003, []) ∧
  decode [0x20, 0xFF] = .ok (.dmalp .lc0 256, []) ∧
  decode [0x3C, 0x02] = .ok (.dmalpend .lc1 2, []) ∧
  decode [0x34, 0x38] = .ok (.dmasev 7, []) ∧
  decode [0xA2, 0x07, 0xEF, 0xBE, 0xAD, 0xDE] = .ok (.dmago true 7 0xDEADBEEF, []) ∧
  decode [0x36, 0x02] = .ok (.dmawfe 0 true, []) ∧
  decode [0x31, 0xF8] = .ok (.dmawfpPeriph 31, []) ∧
  decode [0x06] = .error (.undefinedOpcode 0x06) ∧
  decode [0xBC, 0x03, 0x00, 0x00, 0x00, 0x00] = .error (.reservedOperand 0xBC 0x03)

/-! ## The step of the machine -/

/-- When the bytes at a thread's pc decode to an instruction, that thread's turn is `exec` of it with the
thread active: nothing else happens in the step. The premises: the turn is next, the controller is
not held in reset, the thread can execute, the fetch is coherent and not stale (R230, R232), and the
instruction's bytes hold memory. -/
def Obligations.StepRunsDecoded : Prop :=
  ∀ (s : State) (t : Thread) (rest : List Turn) (i : Instr),
    s.agenda = .activity (.thread t) :: rest → s.board.resetHeld = false →
    runs (s.threadStatus t) = true → s.platform.fetchCoherent = true →
    s.platform.icacheMayBeStale = false → i.wellFormed = true →
    s.fetchMapped (s.threadPc t) (encode i).length = true →
    (∀ k, (h : k < (encode i).length) → s.byteAt (s.threadPc t + BitVec.ofNat 32 k) = (encode i)[k]) →
    step s = exec i ({ s with agenda := rest }.activate t)

/-- Likewise the debug interface executes the instruction whose bytes stand in DBGINST0 and DBGINST1, on the
thread they name, and is idle afterwards (R155..R158, R216). That it does so on a Faulting thread too is the
model's choice (DESIGN CHOICE, log 16). -/
def Obligations.DebugRunsDecoded : Prop :=
  ∀ (s t : State) (i : Instr) (rest : List Byte),
    s.board.resetHeld = false → s.engine.dbgPending = true →
    decode (debugBytes s.engine.dbginst0 s.engine.dbginst1) = .ok (i, rest) →
    exec i { s with
      active := { thread := debugThread s.engine.dbginst0, origin := .debug }
      engine := { s.engine with dbgPending := false } } = .next t →
    debugRun s = .next { t with engine := { t.engine with dbgstatus := clearBit t.engine.dbgstatus 0 } }

/-- Every step keeps memory canonical. -/
def Obligations.StepKeepsMemoryForm : Prop :=
  ∀ s t : State, s.mem.wf = true → step s = .next t → t.mem.wf = true

/-- Every step keeps every live program buffer within its capacity and its loop bookkeeping right: open
loops, counter mask and body starts agree (R104), and `len < cap` (R102). -/
def Obligations.StepKeepsBuffers : Prop :=
  ∀ s t : State, s.buffersWf = true → step s = .next t → t.buffersWf = true

/-- Every step keeps R122 (a program is pending exactly on the channels that are not Free), that no program is
pending on two channels, that `lastFault` is 0 on a Free channel, that the stored acknowledgement is set on
Error and Aborted channels only (log 37), and that every pending program is a live buffer (R666, R123). -/
def Obligations.StepKeepsContext : Prop :=
  ∀ s t : State, s.buffersWf = true → s.ctxInv = true → step s = .next t → t.ctxInv = true

/-- The machine right after reset meets the invariants that every step keeps. -/
def Obligations.ResetMeetsInvariants : Prop := State.reset.inv = true

/-- After power-on, and after the controller reset of any state, every channel and the manager are Stopped,
FSRC, FSRD and INTEN are 0 and the debug interface is idle (R171, R902, R912). The controller reset
leaves memory, program buffers, context and the applied board configuration as they were (R903), and
the controller held in reset no longer. -/
def Obligations.ResetValues : Prop :=
  let good := fun e : Engine =>
    (∀ n : Fin 8, statusOf (e.read (.csr n)) = 0x0#4) ∧ statusOf (e.read .dsr) = 0x0#4 ∧
    e.read .fsrc = 0 ∧ e.read .fsrd = 0 ∧ (e.read .dbgstatus).getLsbD 0 = false ∧ e.read .inten = 0
  good State.reset.engine ∧
  ∀ s : State,
    let t := resetRelease (resetAssert s)
    good t.engine ∧ t.mem = s.mem ∧ t.buffers = s.buffers ∧ t.ctx = s.ctx ∧
    t.board.hwConfig = s.board.hwConfig ∧ t.board.resetHeld = false

/-! ## The instructions: data movement (R561) -/

/-- DMAMOV writes the named register with its immediate and leaves the others; pc moves on by 6 (R561). For a
CCR value with a reserved ES see `InstructionFaults`. -/
def Obligations.DmamovWritesRegister : Prop :=
  ∀ (s : State) (n : Fin 8) (imm : Word), s.runsOn n →
    exec (.dmamov .sar imm) s = .next (s.wentOn n 6 { s.chan n with sar := imm }) ∧
    exec (.dmamov .dar imm) s = .next (s.wentOn n 6 { s.chan n with dar := imm }) ∧
    ((imm.extractLsb' 28 4).toNat < 5 ∨ s.platform.reservedSwapFaults = false →
      exec (.dmamov .ccr imm) s = .next (s.wentOn n 6 { s.chan n with ccr := imm }))

/-- A DMALD that is executed (DMALD always, DMALDS when the request type is single, DMALDB when it is burst:
R305) pushes its burst into the FIFO, lowest address first (R561). With an incrementing source these
are the `sn * sb` bytes from SAR on, and SAR moves past them; with a fixed one every beat reads the
same `sb` bytes, and SAR stays; the fields are those of the control word (R320). Nothing else changes,
memory included. A burst over the top of memory (I6, log 25) or with an address that holds no memory
(I20, log 17) is left out; that the other bursts of a transfer which crosses the top are definite is the
model's choice (DESIGN CHOICE, log 25). -/
def Obligations.DmaldFillsFifo : Prop :=
  ∀ (s : State) (n : Fin 8), s.runsOn n → s.loadReady n = true →
    let c := s.chan n
    let sb := 2 ^ (c.ccr.extractLsb' 1 3).toNat
    let sn := (c.ccr.extractLsb' 4 4).toNat + 1
    let bytes := fun k => (List.range k).map fun i => s.byteAt (c.sar + BitVec.ofNat 32 i)
    let t :=
      if c.ccr.getLsbD 0 then s.wentOn n 1 { c with
        fifo := c.fifo ++ bytes (sn * sb), sar := c.sar + BitVec.ofNat 32 (sn * sb) }
      else s.wentOn n 1 { c with fifo := c.fifo ++ (List.replicate sn (bytes sb)).flatten }
    exec .dmald s = .next t ∧
    (c.reqType = .single → exec .dmalds s = .next t) ∧
    (c.reqType = .burst → exec .dmaldb s = .next t) ∧
    onlyChannelChanges n s t ∧ ∀ a, t.byteAt a = s.byteAt a

/-- A DMAST that is executed (DMAST always, DMASTS on single, DMASTB on burst: R305) with an incrementing
destination, where a store is in memory at once (R224), pops `db * dn` bytes and writes them from DAR
on, in order but for the swap, which reverses every group of `2^ES` bytes (R561, R207); DAR moves past
them and every other byte of memory is unchanged. That the swap is made at the store, in groups counted
from the burst's first byte, is DEDUCED (log 26). Left out are bursts over the top of memory or with an
address that holds no memory, and the overlaps of R934 (`StoresStayInside` speaks of these); that the other
bursts of a transfer one of whose bursts crosses the top or meets another live program are definite is the
model's choice (DESIGN CHOICE, logs 25, 48). -/
def Obligations.DmastIncrementing : Prop :=
  ∀ (s : State) (n : Fin 8), s.runsOn n → s.storeReady n = true → s.mem.wf = true →
    (s.chan n).ccr.getLsbD 14 = true → s.platform.stopImpliesWritesDone = true →
    let c := s.chan n
    let size := ((c.ccr.extractLsb' 18 4).toNat + 1) * 2 ^ (c.ccr.extractLsb' 15 3).toNat
    let g := 2 ^ (c.ccr.extractLsb' 28 4).toNat
    size ≤ c.fifo.length → (c.ccr.extractLsb' 28 4).toNat < 5 → size % g = 0 →
    ∃ t, exec .dmast s = .next t ∧
      (c.reqType = .single → exec .dmasts s = .next t) ∧
      (c.reqType = .burst → exec .dmastb s = .next t) ∧
      t.chan n = { c with
        fifo := c.fifo.drop size
        dar := c.dar + BitVec.ofNat 32 size
        pc := c.pc + 1
        csr := withStatus c.csr stExecuting } ∧
      onlyChannelChanges n s t ∧
      (∀ i, i < size →
        t.byteAt (c.dar + BitVec.ofNat 32 i) = c.fifo.getD (i / g * g + (g - 1 - i % g)) 0) ∧
      ∀ a, (∀ i, i < size → a ≠ c.dar + BitVec.ofNat 32 i) → t.byteAt a = s.byteAt a

/-- With a fixed destination every beat is written over the same `db` bytes, so the last beat's bytes are
left there, after the swap, which reverses every group of `2^ES` bytes of the burst (R207, R561; DMASTS
and DMASTB as R305 says); DAR stays and every other byte is unchanged. That the swap is made at the store,
in groups counted from the burst's first byte, is DEDUCED (log 26). What `DmastIncrementing` leaves out is
left out here. -/
def Obligations.DmastFixed : Prop :=
  ∀ (s : State) (n : Fin 8), s.runsOn n → s.storeReady n = true → s.mem.wf = true →
    (s.chan n).ccr.getLsbD 14 = false → s.platform.stopImpliesWritesDone = true →
    let c := s.chan n
    let dn := (c.ccr.extractLsb' 18 4).toNat + 1
    let db := 2 ^ (c.ccr.extractLsb' 15 3).toNat
    let g := 2 ^ (c.ccr.extractLsb' 28 4).toNat
    dn * db ≤ c.fifo.length → (c.ccr.extractLsb' 28 4).toNat < 5 → dn * db % g = 0 →
    ∃ t, exec .dmast s = .next t ∧
      (c.reqType = .single → exec .dmasts s = .next t) ∧
      (c.reqType = .burst → exec .dmastb s = .next t) ∧
      t.chan n = { c with
        fifo := c.fifo.drop (dn * db)
        pc := c.pc + 1
        csr := withStatus c.csr stExecuting } ∧
      onlyChannelChanges n s t ∧
      (∀ k, k < db → t.byteAt (c.dar + BitVec.ofNat 32 k) =
        c.fifo.getD (((dn - 1) * db + k) / g * g + (g - 1 - ((dn - 1) * db + k) % g)) 0) ∧
      ∀ a, (∀ k, k < db → a ≠ c.dar + BitVec.ofNat 32 k) → t.byteAt a = s.byteAt a

/-- A DMASTZ, where a store is in memory at once, writes zeros: with an incrementing destination over the
`db * dn` bytes from DAR on, moving DAR past them, with a fixed one over the `db` bytes at DAR (R561);
the FIFO and every other byte are unchanged. A control word with a reserved ES, which the platform may let
through, is not left out: that the bytes are zeros under it, where I4 says any value, is the model's choice
(DESIGN CHOICE, log 27). Bursts over the top of memory or with an address that holds no memory, and the
overlaps of R934, are left out. -/
def Obligations.DmastzWritesZeros : Prop :=
  ∀ (s : State) (n : Fin 8), s.runsOn n → s.storeReady n = true → s.mem.wf = true →
    s.platform.stopImpliesWritesDone = true →
    let c := s.chan n
    let db := 2 ^ (c.ccr.extractLsb' 15 3).toNat
    let size := if c.ccr.getLsbD 14 then ((c.ccr.extractLsb' 18 4).toNat + 1) * db else db
    ∃ t, exec .dmastz s = .next t ∧
      t.chan n = { c with
        dar := if c.ccr.getLsbD 14 then c.dar + BitVec.ofNat 32 size else c.dar
        pc := c.pc + 1
        csr := withStatus c.csr stExecuting } ∧
      onlyChannelChanges n s t ∧
      (∀ i, i < size → t.byteAt (c.dar + BitVec.ofNat 32 i) = 0) ∧
      ∀ a, (∀ i, i < size → a ≠ c.dar + BitVec.ofNat 32 i) → t.byteAt a = s.byteAt a

/-- Where a stop does not imply that writes are done (`STOP_IMPLIES_WRITES_DONE` false, R224), a store leaves
memory as it is and queues its bytes, in order, behind the thread's earlier ones; the write barrier
then puts the whole queue into memory, oldest first (R225; the queue is the model's, log 30). DMAST, DMASTS
and DMASTB (R305) take the bytes from the FIFO, swapped (R207; at the store, log 26), and DMASTZ takes
zeros and leaves the FIFO; DAR advances by the burst, the thread goes on (R561) and nothing else changes.
What `DmastIncrementing` and `DmastzWritesZeros` leave out is left out here; the zeros under a reserved ES
are the model's choice (DESIGN CHOICE, log 27). -/
def Obligations.StoresQueueUntilBarrier : Prop :=
  ∀ (s : State) (n : Fin 8), s.runsOn n → s.platform.stopImpliesWritesDone = false →
    exec .dmawmb s =
      .next ({ s with mem := memWrites s.mem (s.chan n).writes }.wentOn n 1 { s.chan n with writes := [] }) ∧
    (s.storeReady n = true →
      let c := s.chan n
      let g := 2 ^ (c.ccr.extractLsb' 28 4).toNat
      let queued := fun (fifo bytes : List Byte) (t : State) =>
        t = s.wentOn n 1 { c with
          fifo := fifo
          dar := c.dst.after c.dst.len
          writes := c.writes ++ c.dst.addrs.zip bytes } ∧
        onlyChannelChanges n s t ∧ t.mem = s.mem
      (c.dst.size ≤ c.fifo.length → (c.ccr.extractLsb' 28 4).toNat < 5 → c.dst.size % g = 0 →
        ∃ t, exec .dmast s = .next t ∧
          (c.reqType = .single → exec .dmasts s = .next t) ∧
          (c.reqType = .burst → exec .dmastb s = .next t) ∧
          queued (c.fifo.drop c.dst.size)
            ((List.range c.dst.size).map fun i => c.fifo.getD (i / g * g + (g - 1 - i % g)) 0) t) ∧
      ∃ t, exec .dmastz s = .next t ∧ queued c.fifo (List.replicate c.dst.size 0) t)

/-- DMALDS, DMALDB, DMASTS, DMASTB, DMALPENDS and DMALPENDB do nothing but move on when the request type is
not the one they are conditioned on (R305). That they move on by their own length is DEDUCED (log 18). -/
def Obligations.ConditionalPassedOver : Prop :=
  ∀ (s : State) (n : Fin 8) (k : LoopCtr) (j : Byte), s.runsOn n →
    ((s.chan n).reqType = .burst →
      exec .dmalds s = .next (s.wentOn n 1 (s.chan n)) ∧
      exec .dmasts s = .next (s.wentOn n 1 (s.chan n)) ∧
      exec (.dmalpends k j) s = .next (s.wentOn n 2 (s.chan n))) ∧
    ((s.chan n).reqType = .single →
      exec .dmaldb s = .next (s.wentOn n 1 (s.chan n)) ∧
      exec .dmastb s = .next (s.wentOn n 1 (s.chan n)) ∧
      exec (.dmalpendb k j) s = .next (s.wentOn n 2 (s.chan n)))

/-! ## The instructions: loops (R561) -/

/-- DMALP loads the loop counter with the iteration count minus one (R314, R561); the other counter and
everything else stays. -/
def Obligations.DmalpLoadsCounter : Prop :=
  ∀ (s : State) (n : Fin 8) (iter : Nat), s.runsOn n → 1 ≤ iter → iter ≤ 256 →
    exec (.dmalp .lc0 iter) s = .next (s.wentOn n 2 { s.chan n with lc0 := BitVec.ofNat 8 (iter - 1) }) ∧
    exec (.dmalp .lc1 iter) s = .next (s.wentOn n 2 { s.chan n with lc1 := BitVec.ofNat 8 (iter - 1) })

/-- A DMALPEND that is executed: with its counter 0 it falls through, else it counts down and jumps back by
its jump byte, which is unsigned (R315, R561); DMALPENDS and DMALPENDB likewise on their request type
(R305). -/
def Obligations.LoopEndCountsDown : Prop :=
  ∀ (s : State) (n : Fin 8) (k : LoopCtr) (j : Byte), s.runsOn n →
    let c := s.chan n
    let t : State :=
      if c.lc k = 0 then s.wentOn n 2 c
      else s.setChan n { c.setLc k (c.lc k - 1) with
        pc := c.pc - BitVec.ofNat 32 j.toNat
        csr := withStatus c.csr stExecuting }
    exec (.dmalpend k j) s = .next t ∧
    (c.reqType = .single → exec (.dmalpends k j) s = .next t) ∧
    (c.reqType = .burst → exec (.dmalpendb k j) s = .next t) ∧
    onlyChannelChanges n s t ∧ ∀ a, t.byteAt a = s.byteAt a

/-! ## The instructions: events and peripherals -/

/-- DMASEV of an event the thread may use moves its thread on and signals the event: interrupt `ev` is raised
where INTEN[ev] = 1; where it is 0 every thread that waits for the event goes on, and the event becomes
active where none waits (R144, R561, R825). So on a channel thread, on the manager thread, and on the
manager's debug instruction (R713), which moves no pc and leaves the manager's status (DEDUCED, log
14), and which a Faulting manager executes too (DESIGN CHOICE, log 16). That a waiting thread goes on past its DMAWFE, and that an event nobody waits for stays active, is
PRESUMED (log 21). -/
def Obligations.DmasevSignals : Prop :=
  ∀ (s : State) (ev : Fin 32),
    let m : State := { s with engine := { s.engine with
      dpc := s.engine.dpc + 2, dsr := withStatus s.engine.dsr 0x1#4 } }
    (∀ n, s.runsOn n → s.eventAllowed (.channel n) ev = true →
      ∃ t, exec (.dmasev ev) s = .next t ∧ (s.wentOn n 2 (s.chan n)).signalled ev t) ∧
    (s.runsManager → s.eventAllowed .manager ev = true →
      ∃ t, exec (.dmasev ev) s = .next t ∧ m.signalled ev t) ∧
    (s.debugsManager → s.eventAllowed .manager ev = true →
      ∃ t, exec (.dmasev ev) s = .next t ∧ s.signalled ev t)

/-- After an interrupt has been raised INTMIS shows it, and after INTCLR with its bit it does not; a bit that
is written 0 stays (R146, R147, R825). -/
def Obligations.InterruptRaisedAndCleared : Prop :=
  ∀ (s : State) (ev : Fin 32) (mask : Word), s.engine.inten.getLsbD ev.val = true →
    ((s.signalEvent ev).engine.read .intmis).getLsbD ev.val = true ∧
    (((s.engine.write .intclr mask).read .intmis).getLsbD ev.val =
      ((s.engine.read .intmis).getLsbD ev.val && !mask.getLsbD ev.val)) ∧
    (s.engine.write .intclr mask).read .inten = s.engine.read .inten

/-- DMAWFE on a channel thread: an active event is taken and the thread goes on; else it waits, at the same
pc, and its status shows Waiting for event with the event's number, the other bits of CSR as they were
(R152, R431). With the invalidate flag the engine's instruction cache is emptied. Taking the event, and that
the wakeup number is the event's, is PRESUMED (log 21). -/
def Obligations.DmawfeTakesOrWaits : Prop :=
  ∀ (s : State) (n : Fin 8) (ev : Fin 32) (inv : Bool), s.runsOn n →
    s.eventAllowed (.channel n) ev = true →
    let e : Engine := { s.engine with icache := if inv then [] else s.engine.icache }
    (s.engine.events.getLsbD ev.val = true →
      exec (.dmawfe ev inv) s = .next
        ({ s with engine := { e with events := e.events &&& ~~~(1#32 <<< ev.val) } }.wentOn n 2 (s.chan n))) ∧
    (s.engine.events.getLsbD ev.val = false →
      ∃ w, exec (.dmawfe ev inv) s = .next ({ s with engine := e }.setChan n { s.chan n with csr := w }) ∧
        statusOf w = 0x4#4 ∧ (w.extractLsb' 4 5).toNat = ev.val ∧
        w.extractLsb' 9 23 = (s.chan n).csr.extractLsb' 9 23)

/-- DMAWFP in its three forms goes on with the request type its form gives when the peripheral raises a
request that fits, taking the request; else the thread waits at the same pc and its status shows
Waiting for peripheral with the peripheral's number. CSR bit 14 says that the form was the burst form,
bit 15 that it was the periph form; its other bits are as they were (R152, R318, R432). The request
lines, what bits 14 and 15 say, and that the wakeup number is the peripheral's, are PRESUMED (log 19). -/
def Obligations.DmawfpTakesOrWaits : Prop :=
  ∀ (s : State) (n : Fin 8) (p : Fin 32), s.runsOn n → s.periphAllowed n p = true →
    let marks := fun (w : Word) (burst periph : Bool) =>
      w.getLsbD 14 = burst ∧ w.getLsbD 15 = periph ∧
      w.extractLsb' 9 5 = (s.chan n).csr.extractLsb' 9 5 ∧
      w.extractLsb' 16 16 = (s.chan n).csr.extractLsb' 16 16
    let takes := fun (i : Instr) (ty : ReqType) (burst periph : Bool) => ∃ w, exec i s = .next
      ({ s with engine := { s.engine with periph := s.engine.periph.set p none } }.setChan n
        { s.chan n with reqType := ty, csr := w, pc := (s.chan n).pc + 2 }) ∧
      statusOf w = 0x1#4 ∧ w.extractLsb' 4 5 = (s.chan n).csr.extractLsb' 4 5 ∧ marks w burst periph
    let waits := fun (i : Instr) (burst periph : Bool) => ∃ w,
      exec i s = .next (s.setChan n { s.chan n with csr := w }) ∧
      statusOf w = 0x7#4 ∧ (w.extractLsb' 4 5).toNat = p.val ∧ marks w burst periph
    (s.engine.periph[p] = none →
      waits (.dmawfpSingle p) false false ∧ waits (.dmawfpBurst p) true false ∧
      waits (.dmawfpPeriph p) false true) ∧
    (s.engine.periph[p] = some .single →
      takes (.dmawfpSingle p) .single false false ∧ waits (.dmawfpBurst p) true false ∧
      takes (.dmawfpPeriph p) .single false true) ∧
    (s.engine.periph[p] = some .burst →
      takes (.dmawfpSingle p) .single false false ∧ takes (.dmawfpBurst p) .burst true false ∧
      takes (.dmawfpPeriph p) .burst false true)

/-- DMAFLUSHP drops the peripheral's request and goes on (R433; PRESUMED, log 20). -/
def Obligations.DmaflushpDropsRequest : Prop :=
  ∀ (s : State) (n : Fin 8) (p : Fin 32), s.runsOn n → s.periphAllowed n p = true →
    exec (.dmaflushp p) s = .next
      ({ s with engine := { s.engine with periph := s.engine.periph.set p none } }.wentOn n 2 (s.chan n))

/-! ## The instructions: barriers, control and threads -/

/-- DMANOP and DMARMB have no effect but pc + 1 (R225, R343, R561), where every read is complete in its own
step. -/
def Obligations.NopAndReadBarrier : Prop :=
  ∀ (s : State) (n : Fin 8), s.runsOn n →
    exec .dmanop s = .next (s.wentOn n 1 (s.chan n)) ∧ exec .dmarmb s = .next (s.wentOn n 1 (s.chan n))

/-- DMAWMB completes every earlier write of its thread (R225): they are in memory afterwards, in the order of the
queue (the model's, log 30), so that a byte holds what was last written to it, and no other byte
changes. -/
def Obligations.DmawmbCompletesWrites : Prop :=
  ∀ (s : State) (n : Fin 8), s.runsOn n → s.mem.wf = true →
    ∃ t, exec .dmawmb s = .next t ∧
      t.chan n = { s.chan n with
        writes := [], pc := (s.chan n).pc + 1, csr := withStatus (s.chan n).csr stExecuting } ∧
      onlyChannelChanges n s t ∧
      t.mem = memWrites s.mem (s.chan n).writes ∧
      (∀ ws a v rest, (s.chan n).writes = ws ++ (a, v) :: rest → a ∉ rest.map Prod.fst → t.byteAt a = v) ∧
      ∀ a, a ∉ (s.chan n).writes.map Prod.fst → t.byteAt a = s.byteAt a

/-- DMAEND stops its thread: CSR status Stopped, or DSR on the manager (R561). The pc, SAR, DAR, CCR and the
counters stay; a FIFO that was empty stays empty; where a stop implies it the queued writes are in
memory, oldest first, else memory and the queue stay (R224; the queue is the model's, log 30). That a
channel with bytes left in its FIFO stops all the same, which R561 and I23 put outside the interpretation,
is DEDUCED (log 24), and that the manager executes a DMAEND is PRESUMED (log 15). -/
def Obligations.DmaendStops : Prop :=
  ∀ (s : State),
    (∀ n, s.runsOn n → ∃ t q, exec .dmaend s = .next t ∧
      t.chan n = { s.chan n with
        fifo := q
        writes := if s.platform.stopImpliesWritesDone then [] else (s.chan n).writes
        csr := withStatus (s.chan n).csr 0x0#4 } ∧
      ((s.chan n).fifo = [] → q = []) ∧ onlyChannelChanges n s t ∧
      t.mem = if s.platform.stopImpliesWritesDone then memWrites s.mem (s.chan n).writes else s.mem) ∧
    (s.runsManager → exec .dmaend s =
      .next { s with engine := { s.engine with dsr := withStatus s.engine.dsr 0x0#4 } })

/-- DMAGO of the manager thread starts a Stopped channel: its pc is the address, its status Executing, CNS the
`ns` bit (R152, R153, R303, R711), and its FIFO is empty (DEDUCED, log 22). The debug instruction changes
nothing else (DEDUCED, log 14), and a Faulting manager executes it too (DESIGN CHOICE, log 16); one fetched from memory moves the manager's pc on by 6. That a DMAGO does
nothing to a channel that is not Stopped is PRESUMED (log 22). -/
def Obligations.DmagoStartsChannel : Prop :=
  ∀ (s : State) (ns : Bool) (cn : Fin 8) (addr : Word), s.goAllowed ns cn = true →
    let u := s.setChan cn { s.chan cn with
      pc := addr, csr := putBit (withStatus (s.chan cn).csr 0x1#4) 21 ns, fifo := [] }
    (statusOf (s.chan cn).csr = 0x0#4 → s.debugsManager → exec (.dmago ns cn addr) s = .next u) ∧
    (statusOf (s.chan cn).csr = 0x0#4 → s.runsManager → exec (.dmago ns cn addr) s =
      .next { u with engine := { u.engine with
        dpc := s.engine.dpc + 6, dsr := withStatus s.engine.dsr stExecuting } }) ∧
    (statusOf (s.chan cn).csr ≠ 0x0#4 → s.debugsManager → exec (.dmago ns cn addr) s = .next s) ∧
    (statusOf (s.chan cn).csr ≠ 0x0#4 → s.runsManager → exec (.dmago ns cn addr) s =
      .next { s with engine := { s.engine with
        dpc := s.engine.dpc + 6, dsr := withStatus s.engine.dsr stExecuting } })

/-- DMAKILL stops its thread and with it ends the thread's fault (R662, R712, R823): the thread is Stopped,
its FSRC or FSRD bit clear; a thread that is stopped already is left as it is (R932). So it does from
the debug interface, and from memory where `KILL_FROM_MEMORY` says so (I3). That the fault type reads
0 afterwards is DEDUCED (log 23). R712, R662, R932 and I3 speak of channel threads: that a DMAKILL on the
manager does to it what it does to a channel is PRESUMED (log 15). -/
def Obligations.DmakillStops : Prop :=
  ∀ (s : State), s.active.origin = .debug ∨ s.platform.killFromMemoryStops = true →
    (∀ n, s.active.thread = .channel n → statusOf (s.chan n).csr ≠ 0x0#4 →
      exec .dmakill s = .next { s with engine := { s.engine with
        chan := s.engine.chan.set n { s.chan n with csr := withStatus (s.chan n).csr 0x0#4, ftr := 0 }
        fsrc := s.engine.fsrc &&& ~~~(1#32 <<< n.val) } }) ∧
    (∀ n, s.active.thread = .channel n → statusOf (s.chan n).csr = 0x0#4 → exec .dmakill s = .next s) ∧
    (s.active.thread = .manager → statusOf s.engine.dsr ≠ 0x0#4 →
      exec .dmakill s = .next { s with engine := { s.engine with
        dsr := withStatus s.engine.dsr 0x0#4
        fsrd := s.engine.fsrd &&& ~~~1#32
        ftrd := 0 } }) ∧
    (s.active.thread = .manager → statusOf s.engine.dsr = 0x0#4 → exec .dmakill s = .next s)

/-- The seven excluded instructions take the undefined-instruction fault, type bit 0 (R340, R821, I5): that
is their effect, on a channel thread and on the manager. -/
def Obligations.ExcludedTakeUndefFault : Prop :=
  ∀ (s : State) (i : Instr) (ra : AddrReg) (imm : BitVec 16) (p : Fin 32) (k : LoopCtr) (j : Byte),
    i ∈ [Instr.dmaaddh ra imm, .dmaadnh ra imm, .dmaldps p, .dmaldpb p, .dmastps p, .dmastpb p,
      .dmalpfe k j] →
    (∀ n, s.runsOn n → exec i s = .next (s.faultedOn n 1)) ∧
    (s.runsManager → exec i s = .next (s.faultedManager 1))

/-! ## Faults of the engine -/

/-- Taking a fault: a channel thread enters Faulting, its bit of FSRC is set and FTRn records the type; the
manager thread sets FSRD[0] and FTRD (R820). An instruction of the debug interface adds dbg_instr, bit
30 (R150, R151). Nothing else changes; in particular the pc stays (log 16). -/
def Obligations.FaultEntry : Prop :=
  ∀ (s : State) (bits : Word),
    let word := if s.active.origin = .debug then bits ||| 1#32 <<< 30 else bits
    (∀ n, s.active.thread = .channel n → takeFault bits s = s.faultedOn n word) ∧
    (s.active.thread = .manager → takeFault bits s = s.faultedManager word)

/-- Where the data instructions of a channel thread fault, and with which type: a store with too few bytes in
the FIFO (13, R561), a protection a non-secure channel may not use (7, R151), a FIFO without room
(12, I23), a load or store whose first address holds no memory (18, 17, I20). The protection masks are
the model's (log 29), and so are the order protection, FIFO, addresses and the bound on the channel's
own FIFO at the load (log 28). -/
def Obligations.DataFaults : Prop :=
  ∀ (s : State) (n : Fin 8), s.runsOn n →
    let c := s.chan n
    (s.protAllowed n c.dstProt = true → c.fifo.length < c.dst.size →
      exec .dmast s = .next (s.faultedOn n (1#32 <<< 13))) ∧
    (s.protAllowed n c.srcProt = false → exec .dmald s = .next (s.faultedOn n (1#32 <<< 7))) ∧
    (s.protAllowed n c.dstProt = false → exec .dmast s = .next (s.faultedOn n (1#32 <<< 7)) ∧
      exec .dmastz s = .next (s.faultedOn n (1#32 <<< 7))) ∧
    (s.protAllowed n c.srcProt = true → s.fifoRoom n c.src.size = false →
      exec .dmald s = .next (s.faultedOn n (1#32 <<< 12))) ∧
    (s.protAllowed n c.srcProt = true → s.fifoRoom n c.src.size = true → c.src.crossesTop = false →
      s.mappedAt c.sar = false → exec .dmald s = .next (s.faultedOn n (1#32 <<< 18))) ∧
    (s.protAllowed n c.dstProt = true → c.dst.size ≤ c.fifo.length → c.dst.crossesTop = false →
      s.mappedAt c.dar = false → exec .dmast s = .next (s.faultedOn n (1#32 <<< 17))) ∧
    (s.protAllowed n c.dstProt = true → c.dst.crossesTop = false → s.mappedAt c.dar = false →
      exec .dmastz s = .next (s.faultedOn n (1#32 <<< 17)))

/-- Where a thread faults for what it fetched or may not execute: an instruction with a byte outside memory (16,
I20; before undef_instr and operand_invalid also where an excluded opcode or a reserved operand byte lies in
memory and a byte behind it does not: DESIGN CHOICE, log 33), an undefined first byte (0, R341), an excluded opcode whatever its operand byte (0, R340), a reserved register
id or operand byte (1, R312, R342), a DMAGO on a channel thread (0 or 1, I3), a CCR with a reserved ES
where the platform faults it (1, I4), a start the security forbids (manager, 4, R150), an event (5) or a
peripheral (6) that a non-secure thread may not use (R150, R151, R821). That a reserved operand byte is
operand_invalid, and that an excluded opcode comes before it, is DEDUCED (log 33); the security masks are the
model's choice (DESIGN CHOICE, log 29), and that the manager executes DMAWFE is PRESUMED (log 15). -/
def Obligations.InstructionFaults : Prop :=
  ∀ (s : State) (n : Fin 8),
    let reserved := fun (b0 b1 : Byte) (rest : List Byte) =>
      (b0 ∈ [0x30#8, 0x31#8, 0x32#8, 0x34#8, 0x35#8] ∧ b1.extractLsb' 0 3 ≠ 0#3) ∨
      (b0 = 0x36#8 ∧ (b1.getLsbD 0 = true ∨ b1.getLsbD 2 = true)) ∨
      (4 ≤ rest.length ∧ b0 ∈ [0xA0#8, 0xA2#8] ∧ b1.extractLsb' 3 5 ≠ 0#5) ∨
      (4 ≤ rest.length ∧ b0 = 0xBC#8 ∧ 3 ≤ b1.toNat)
    (∀ b0 b1 rest, reserved b0 b1 rest →
      (s.runsOn n → runBytes (b0 :: b1 :: rest) s = .next (s.faultedOn n 2)) ∧
      (s.runsManager → runBytes (b0 :: b1 :: rest) s = .next (s.faultedManager 2))) ∧
    (∀ b0 b1 rest, b0 ∈ [0x25#8, 0x27#8, 0x28#8, 0x29#8, 0x2B#8, 0x2C#8] →
      (s.runsOn n → runBytes (b0 :: b1 :: rest) s = .next (s.faultedOn n 1)) ∧
      (s.runsManager → runBytes (b0 :: b1 :: rest) s = .next (s.faultedManager 1))) ∧
    (∀ ev inv, s.runsOn n → s.eventAllowed (.channel n) ev = false →
      exec (.dmasev ev) s = .next (s.faultedOn n (1#32 <<< 5)) ∧
      exec (.dmawfe ev inv) s = .next (s.faultedOn n (1#32 <<< 5))) ∧
    (∀ ev inv, s.runsManager → s.eventAllowed .manager ev = false →
      exec (.dmasev ev) s = .next (s.faultedManager (1#32 <<< 5)) ∧
      exec (.dmawfe ev inv) s = .next (s.faultedManager (1#32 <<< 5))) ∧
    (∀ p i, s.runsOn n → s.periphAllowed n p = false →
      i ∈ [Instr.dmawfpSingle p, .dmawfpBurst p, .dmawfpPeriph p, .dmaflushp p] →
      exec i s = .next (s.faultedOn n (1#32 <<< 6))) ∧
    (s.board.resetHeld = false → runs (statusOf (s.chan n).csr) = true → s.fetch (s.chan n).pc = none →
      threadStep (.channel n) s = .next ((s.activate (.channel n)).faultedOn n (1#32 <<< 16))) ∧
    (∀ b0 bs, s.runsOn n → instrLength b0 = none → runBytes (b0 :: bs) s = .next (s.faultedOn n 1)) ∧
    (∀ ns cn addr, s.runsOn n → ∃ w, (w = 1#32 ∨ w = 2#32) ∧
      exec (.dmago ns cn addr) s = .next ((s.drawn 1).faultedOn n w)) ∧
    (∀ imm : Word, s.runsOn n → 5 ≤ (imm.extractLsb' 28 4).toNat → s.platform.reservedSwapFaults = true →
      exec (.dmamov .ccr imm) s = .next (s.faultedOn n 2)) ∧
    (∀ ns cn addr, s.runsManager → s.goAllowed ns cn = false →
      exec (.dmago ns cn addr) s = .next (s.faultedManager (1#32 <<< 4)))

/-! ## The encoder (40_encoder.md) -/

/-- Every encoder command that appends one instruction, with legal operands and room for it and the sentinel,
succeeds: its bytes stand at `P.len`, the END sentinel behind them, `P.len` has grown by their number,
and nothing else of the buffer, of memory or of the machine changes (R403, R407, R410..R413,
R430..R453). -/
def Obligations.EncoderAppends : Prop :=
  ∀ (s : State) (h : Nat) (b : Buffer) (op : EncOp) (i : Instr), s.editable h b →
    appendedInstr op = some i → b.len + (encode i).length + 1 ≤ b.cap →
    ∃ t, Answers (cmdInst (some h) op s) t .success ∧ onlyBuffersChange s t ∧
      onlyBuffer h { b with len := b.len + (encode i).length } s t ∧
      t.holdsAt b b.len (encode i ++ [0x00]) ∧
      sameOutside b b.len ((encode i).length + 1) s t

/-- An encoder command that does not succeed writes nothing: the state is as before (R406, R802). -/
def Obligations.EncoderFailureWritesNothing : Prop :=
  ∀ (s t : State) (p : Handle) (op : EncOp) (r : Response),
    cmdInst p op s = .next (t, r) → r.status ≠ .success → t = s ∧ r.payload = 0

/-- The status of a failing append: no buffer (ERR_NULLPTR), a numeric operand out of range (ERR_RANGE), an
operand that names no member of its enumeration (ERR_NOSUPPORT), and, only with legal operands, no
room (ERR_NOSPACE) (R404, R405). A program attached to a channel is never written, freed or changed:
the command is refused (R231, I28). -/
def Obligations.EncoderCheckOrder : Prop :=
  ∀ (s : State) (h : Nat) (b : Buffer), bufGet s.buffers h = some b →
    (s.attached h = true →
      (∀ op, cmdInst (some h) op s = .refused .attachedProgram) ∧
      cmdFreeProgram (some h) s = .refused .attachedProgram ∧
      ∀ ns af, cmdSetProgramFlags (some h) ns af s = .refused .attachedProgram) ∧
    (∀ op, Answers (cmdInst none op s) s .nullptr) ∧
    (s.attached h = false →
      (∀ ev, 31 < ev ∨ ev = 8 → Answers (cmdInst (some h) (.sendEvent ev) s) s .range) ∧
      (∀ ev inv, 31 < ev → Answers (cmdInst (some h) (.waitEvent ev inv) s) s .range) ∧
      (∀ p ty, 31 < p → Answers (cmdInst (some h) (.waitPeriph p ty) s) s .range) ∧
      (∀ p, p ≤ 31 → Answers (cmdInst (some h) (.waitPeriph p none) s) s .noSupport) ∧
      (∀ p, 31 < p → Answers (cmdInst (some h) (.flushPeriph p) s) s .range) ∧
      (∀ cn addr ns, 7 < cn → Answers (cmdInst (some h) (.go cn addr ns) s) s .range) ∧
      (∀ imm, Answers (cmdInst (some h) (.mov none imm) s) s .noSupport) ∧
      Answers (cmdInst (some h) (.load none) s) s .noSupport ∧
      Answers (cmdInst (some h) (.store none) s) s .noSupport ∧
      Answers (cmdInst (some h) (.loopEnd none) s) s .noSupport ∧
      (∀ op i, appendedInstr op = some i → b.cap < b.len + (encode i).length + 1 →
        Answers (cmdInst (some h) op s) s .noSpace))

/-- `instLoopStart` (R420): no buffer is ERR_NULLPTR, a bad counter or count ERR_RANGE, a reserved counter
ERR_INUSE, no room ERR_NOSPACE, each with nothing changed; else the bytes `20 | c << 1, n - 1` are
appended and the loop is open, its body starting behind them. -/
def Obligations.LoopStartOpens : Prop :=
  ∀ (s : State) (h : Nat) (b : Buffer) (c n : Nat), s.editable h b →
    let r := cmdInst (some h) (.loopStart c n) s
    Answers (cmdInst none (.loopStart c n) s) s .nullptr ∧
    (1 < c ∨ n < 1 ∨ 256 < n → Answers r s .range) ∧
    (∀ k, loopCtrOf c = some k → 1 ≤ n → n ≤ 256 →
      (b.reserved k = true → Answers r s .inUse) ∧
      (b.reserved k = false → b.cap < b.len + 3 → Answers r s .noSpace) ∧
      (b.reserved k = false → b.len + 3 ≤ b.cap →
        ∃ t, Answers r t .success ∧ onlyBuffersChange s t ∧
          onlyBuffer h { b with
            len := b.len + 2
            loops := b.loops ++ [(k, b.len + 2)]
            ctrMask := b.ctrMask ||| (1#2 <<< c)
            depth := b.depth + 1 } s t ∧
          t.holdsAt b b.len [0x20 + BitVec.ofNat 8 (2 * c), BitVec.ofNat 8 (n - 1), 0x00] ∧
          sameOutside b b.len 3 s t))

/-- `instLoopInsert` (R421): no buffer is ERR_NULLPTR; a bad counter or count ERR_RANGE; a reserved counter
ERR_INUSE; a body longer than 255 bytes or reaching back past the innermost open loop's start
ERR_RANGE; no room ERR_NOSPACE, each with nothing changed. Else the body and the sentinel move up by
two bytes, the loop start takes their place, and the loop is open. -/
def Obligations.LoopInsertMovesBody : Prop :=
  ∀ (s : State) (h : Nat) (b : Buffer) (c n body : Nat), s.editable h b →
    let r := cmdInst (some h) (.loopInsert c n body) s
    Answers (cmdInst none (.loopInsert c n body) s) s .nullptr ∧
    (1 < c ∨ n < 1 ∨ 256 < n → Answers r s .range) ∧
    (∀ k, loopCtrOf c = some k → 1 ≤ n → n ≤ 256 →
      (b.reserved k = true → Answers r s .inUse) ∧
      (b.reserved k = false → 255 < body ∨ b.len - b.floor < body → Answers r s .range) ∧
      (b.reserved k = false → body ≤ 255 → body ≤ b.len - b.floor → b.cap < b.len + 3 →
        Answers r s .noSpace) ∧
      (b.reserved k = false → body ≤ 255 → body ≤ b.len - b.floor → b.len + 3 ≤ b.cap →
        ∃ t, Answers r t .success ∧ onlyBuffersChange s t ∧
          onlyBuffer h { b with
            len := b.len + 2
            loops := b.loops ++ [(k, b.len - body + 2)]
            ctrMask := b.ctrMask ||| (1#2 <<< c)
            depth := b.depth + 1 } s t ∧
          t.holdsAt b (b.len - body) [0x20 + BitVec.ofNat 8 (2 * c), BitVec.ofNat 8 (n - 1)] ∧
          (∀ j, j ≤ body →
            t.byteAt (b.addr (b.len - body + 2 + j)) = s.byteAt (b.addr (b.len - body + j))) ∧
          sameOutside b (b.len - body) (body + 3) s t))

/-- `instLoopEnd` (R422) closes the innermost loop with the jump back over its body. No buffer is ERR_NULLPTR,
a condition that is none of its three ERR_NOSUPPORT, no open loop ERR_NOTFOUND, a body longer than 255
bytes ERR_RANGE, no room ERR_NOSPACE, each with nothing changed. -/
def Obligations.LoopEndCloses : Prop :=
  ∀ (s : State) (h : Nat) (b : Buffer) (cond : Cond), s.editable h b →
    let r := cmdInst (some h) (.loopEnd (some cond)) s
    Answers (cmdInst none (.loopEnd (some cond)) s) s .nullptr ∧
    Answers (cmdInst (some h) (.loopEnd none) s) s .noSupport ∧
    (b.depth = 0 → Answers r s .notFound) ∧
    (∀ k start outer, b.loops = outer ++ [(k, start)] →
      (255 < b.len - start → Answers r s .range) ∧
      (b.len - start ≤ 255 → b.cap < b.len + 3 → Answers r s .noSpace) ∧
      (b.len - start ≤ 255 → b.len + 3 ≤ b.cap →
        ∃ t, Answers r t .success ∧ onlyBuffersChange s t ∧
          onlyBuffer h { b with
            len := b.len + 2
            loops := outer
            ctrMask := b.ctrMask &&& ~~~(1#2 <<< ctrIndex k)
            depth := b.depth - 1 } s t ∧
          t.holdsAt b b.len [
            0x38 + BitVec.ofNat 8 (4 * ctrIndex k) +
              (match cond with | .always => 0 | .single => 1 | .burst => 3),
            BitVec.ofNat 8 (b.len - start), 0x00] ∧
          sameOutside b b.len 3 s t))

/-- `instChLoop` (R423) wraps the last bytes of the buffer in a closed loop: the loop start before them, the
loop end with their number behind them, and the bookkeeping as it was. Its checks are those of R421 and
room for both instructions; where one fails nothing is changed. -/
def Obligations.ChLoopWraps : Prop :=
  ∀ (s : State) (h : Nat) (b : Buffer) (c n body : Nat), s.editable h b →
    let r := cmdInst (some h) (.chLoop c n body) s
    Answers (cmdInst none (.chLoop c n body) s) s .nullptr ∧
    (1 < c ∨ n < 1 ∨ 256 < n → Answers r s .range) ∧
    (∀ k, loopCtrOf c = some k → 1 ≤ n → n ≤ 256 →
      (b.reserved k = true → Answers r s .inUse) ∧
      (b.reserved k = false → 255 < body ∨ b.len - b.floor < body → Answers r s .range) ∧
      (b.reserved k = false → body ≤ 255 → body ≤ b.len - b.floor → b.cap < b.len + 5 →
        Answers r s .noSpace) ∧
      (b.reserved k = false → body ≤ 255 → body ≤ b.len - b.floor → b.len + 5 ≤ b.cap →
        ∃ t, Answers r t .success ∧ onlyBuffersChange s t ∧
          onlyBuffer h { b with len := b.len + 4 } s t ∧
          t.holdsAt b (b.len - body) [0x20 + BitVec.ofNat 8 (2 * c), BitVec.ofNat 8 (n - 1)] ∧
          (∀ j, j < body →
            t.byteAt (b.addr (b.len - body + 2 + j)) = s.byteAt (b.addr (b.len - body + j))) ∧
          t.holdsAt b (b.len + 2) [0x38 + BitVec.ofNat 8 (4 * c), BitVec.ofNat 8 body, 0x00] ∧
          sameOutside b (b.len - body) (body + 5) s t))

/-- After any encoder command that answers, a live program that no channel has attached and that ended in its
END sentinel ends in it still: the byte behind the last instruction is END, within the capacity (R102).
The write position never goes back, and place and capacity stay (R105). -/
def Obligations.EncoderKeepsSentinel : Prop :=
  ∀ (s t : State) (h : Nat) (b : Buffer) (op : EncOp) (r : Response), s.editable h b →
    s.bufByte b b.len = 0x00 → cmdInst (some h) op s = .next (t, r) →
    ∃ b', bufGet t.buffers h = some b' ∧ b'.wf = true ∧ b'.base = b.base ∧ b'.cap = b.cap ∧
      b.len ≤ b'.len ∧ b'.len < b'.cap ∧ t.bufByte b' b'.len = 0x00 ∧ t.attached h = false

/-- `AllocProgram` (R106, R400): size 0 is ERR_NOSPACE, storage not obtained ERR_NULLPTR; else a fresh buffer
of that capacity and base, empty but for its END sentinel. That its handle is the payload, and is
`nextHandle`, is the model's choice (DESIGN CHOICE, log 8). -/
def Obligations.AllocProgramFresh : Prop :=
  ∀ (s : State) (size base : Word) (e : Env), s.mem.wf = true →
    (size = 0 → Answers (cmdAllocProgram size base e s) s .noSpace) ∧
    (size ≠ 0 → e.allocOk = false → Answers (cmdAllocProgram size base e s) s .nullptr) ∧
    (size ≠ 0 → e.allocOk = true →
      ∃ t b, cmdAllocProgram size base e s =
          .next (t, { status := .success, payload := BitVec.ofNat 32 s.nextHandle, record := none }) ∧
        bufGet t.buffers s.nextHandle = some b ∧ b.cap = size.toNat ∧ b.base = base ∧ b.len = 0 ∧
        b.depth = 0 ∧ b.ctrMask = 0 ∧ b.loops = [] ∧ b.nonSecure = false ∧ b.autoFree = false ∧
        t.bufByte b 0 = 0x00 ∧
        (∀ a, (∀ k, k < size.toNat → a ≠ b.addr k) → t.byteAt a = s.byteAt a) ∧
        (∀ h, h ≠ s.nextHandle → bufGet t.buffers h = bufGet s.buffers h) ∧ t.engine = s.engine ∧
        t.ctx = s.ctx)

/-! ## The synthesizer (41_synthesizer.md) -/

/-- The synthesizer succeeds exactly when its program and the sentinel fit the capacity, and the program it
then returns has the length of R543, is a closed buffer whose last byte is the END instruction with the
END sentinel behind it, within the capacity, is freed automatically and secure (R500, R502, R541, R542,
R543). -/
def Obligations.SynthesizedProgram : Prop :=
  ∀ (s : State) (e : Env) (chk : Chunk) (prm : XferParams) (lp : LegalParams),
    checkParams prm = .ok lp → e.allocOk = true → 0 < s.platform.synthCapacity.toNat → s.mem.wf = true →
    misaligned lp (quantities lp chk.readAddr chk.writeAddr chk.length) chk.length = false →
    let len := synthLength lp chk.readAddr chk.writeAddr chk.length
    (len + 1 ≤ s.platform.synthCapacity.toNat →
      ∃ t P ccrs, synthesize e chk prm s = (t, .ok (P, ccrs)) ∧ P.len = len ∧ P.depth = 0 ∧
        P.ctrMask = 0 ∧ P.loops = [] ∧ P.autoFree = true ∧ P.nonSecure = false ∧ P.base = e.allocBase ∧
        P.cap = s.platform.synthCapacity.toNat ∧ P.len < P.cap ∧ t.bufByte P (P.len - 1) = 0x00 ∧
        t.bufByte P P.len = 0x00 ∧
        t.engine = s.engine ∧ t.ctx = s.ctx ∧ t.buffers = s.buffers) ∧
    (s.platform.synthCapacity.toNat < len + 1 →
      ∃ t, synthesize e chk prm s = (t, .error .noSpace) ∧ t.buffers = s.buffers)

/-- A transfer that needs strict alignment (a register side or a swap) fails with ERR_ALIGNMENT, and has
changed nothing, exactly when its length is not 0 and an address or the length is no multiple of the
burst width (R211, R212, R511); a zero-fill source has no source address. So it does before anything is
allocated: whether storage could be obtained plays no part (R811). -/
def Obligations.StrictAlignment : Prop :=
  ∀ (s : State) (e : Env) (chk : Chunk) (prm : XferParams) (lp : LegalParams),
    checkParams prm = .ok lp →
    (synthesize e chk prm s = (s, .error .alignment) ↔
      ((lp.srcType = .register ∨ lp.dstType = .register ∨ lp.swap ≠ .none) ∧ chk.length ≠ 0 ∧
        ((lp.srcType ≠ .zero ∧ chk.readAddr.toNat % lp.burstBytes ≠ 0) ∨
          chk.writeAddr.toNat % lp.burstBytes ≠ 0 ∨ chk.length.toNat % lp.burstBytes ≠ 0)))

/-- The parameter checks of R501 in their order, each failing before anything is allocated. -/
def Obligations.SynthesizerChecks : Prop :=
  ∀ (s : State) (e : Env) (chk : Chunk) (prm : XferParams),
    let kinds := ∃ st dt sw, prm.srcType = some st ∧ prm.dstType = some dt ∧ prm.swap = some sw ∧
      st ≠ .peripheral ∧ dt ≠ .peripheral
    (¬ kinds → synthesize e chk prm s = (s, .error .noSupport)) ∧
    (kinds → prm.burstBytes ∉ [1, 2, 4, 8] → synthesize e chk prm s = (s, .error .noSupport)) ∧
    (kinds → prm.burstBytes ∈ [1, 2, 4, 8] → 7 < prm.channel →
      synthesize e chk prm s = (s, .error .range)) ∧
    (kinds → prm.burstBytes ∈ [1, 2, 4, 8] → prm.channel ≤ 7 →
      (7 < prm.srcProt ∨ 7 < prm.srcCache ∨ 7 < prm.dstProt ∨ 7 < prm.dstCache) →
      synthesize e chk prm s = (s, .error .range)) ∧
    (kinds → prm.burstBytes ∈ [1, 2, 4, 8] → prm.channel ≤ 7 →
      prm.srcProt ≤ 7 → prm.srcCache ≤ 7 → prm.dstProt ≤ 7 → prm.dstCache ≤ 7 →
      ∀ sw, prm.swap = some sw → prm.burstBytes < swapBytes sw →
      synthesize e chk prm s = (s, .error .noSupport))

/-! ## The channel state machine (42_channel_fsm.md) -/

/-- The checks of every command on a context: no context is ERR_NULLPTR, an uninitialised one ERR_NOTREADY,
and then a channel above 7 ERR_RANGE; nothing changes (R602, R810). -/
def Obligations.ContextChecks : Prop :=
  ∀ (s : State) (cmd : Command) (e : Env) (r : CtxRef), commandCtx cmd = some r →
    (r = .null ∨ s.ctx = none → Answers (command cmd e s) s .nullptr) ∧
    (∀ c, r = .ctx → s.ctx = some c → c.initialised = false →
      Answers (command cmd e s) s .notReady) ∧
    (∀ c ch, r = .ctx → s.ctx = some c → c.initialised = true → commandChannel cmd = some ch → 7 < ch →
      Answers (command cmd e s) s .range)

/-- `setupTransferProgram` (R610, R745): no program is ERR_NULLPTR; ERR_BUSY while an abort is pending or on a
Busy channel; ERR_INUSE on a Ready, Done, Error or Aborted channel, or with a program that a channel has
attached; ERR_INVALID with a program that is not structurally valid (R107), each with nothing changed.
Else the channel is Ready with that program and its fault and acknowledgement cleared, and no register is
accessed and no other channel changes. With autoStart the command then goes on, and answers, as
`startTransferCh` does from there (`StartIssuesGo`, `StartRefuses`): with the debug interface idle the
channel is Busy and its DMAGO issued.

`setupTransfer` where the bypass does not apply (R740): the same checks of the channel before anything is
synthesized; an error of the synthesis is answered with the channel as it was; else the synthesized program
is attached to the channel, which is Ready, and with autoStart started; success answers the channel. The
new program's handle (DESIGN CHOICE, log 8), its mark `loose` (DEDUCED, log 48) and the record in the
response (DESIGN CHOICE, log 50) are the model's. Of an autoStart it speaks where the environment does
nothing between the register accesses. -/
def Obligations.SetupAttaches : Prop :=
  ∀ (s : State) (c : Context) (ch : Fin 8) (h : Nat) (b : Buffer) (auto : Bool),
    s.ctx = some c → c.initialised = true →
    (bufGet s.buffers h = some b →
    let r := cmdSetupTransferProgram .ctx ch.val (some h) auto s
    let elsewhere := ∃ k : Fin 8, c.pending[k] = some h
    let valid := b.len < b.cap ∧ s.bufByte b b.len = 0x00 ∧ b.depth = 0 ∧ b.ctrMask = 0
    Answers (cmdSetupTransferProgram .ctx ch.val none auto s) s .nullptr ∧
    (c.abortPending = true ∨ c.chState[ch] = .busy → Answers r s .busy) ∧
    (c.abortPending = false → c.chState[ch] ∈ [ChState.ready, .done, .error, .aborted] →
      Answers r s .inUse) ∧
    (c.abortPending = false → c.chState[ch] = .free →
      (elsewhere → Answers r s .inUse) ∧
      (¬ elsewhere → ¬ valid → Answers r s .invalid) ∧
      (¬ elsewhere → valid →
        let ready : State := { s with ctx := some { c with
          chState := c.chState.set ch .ready
          pending := c.pending.set ch (some h)
          lastFault := c.lastFault.set ch 0
          errAck := c.errAck.set ch false } }
        (auto = false → Answers r ready .success) ∧
        (auto = true → s.gaps = [] → r = cmdStartTransferCh .ctx ch.val ready ∧
          ∀ d, c.dbg = some d → d.hdr.cap = 8 → s.engine.dbgstatus.getLsbD 0 = false →
            ∃ t c', Answers r t .success ∧ t.ctx = some c' ∧ c'.chState = c.chState.set ch .busy ∧
              c'.pending = c.pending.set ch (some h) ∧
              t.engine.dbginst0 = BitVec.ofNat 32
                (0x00A00000 + (if b.nonSecure then 0x00020000 else 0) + 0x01000100 * ch.val) ∧
              t.engine.dbginst1 = b.base)))) ∧
    ∀ (k : Chunk) (index : Nat) (e : Env),
      k.params ≠ none ∨ c.shortThreshold < k.length ∨ auto = false →
      let prm := k.params.getD (defaultParams c index)
      let r := cmdSetupTransfer .ctx (some k) index auto e s
      (7 < prm.channel → Answers r s .range) ∧
      (prm.channel = ch.val →
        (c.abortPending = true ∨ c.chState[ch] = .busy → Answers r s .busy) ∧
        (c.abortPending = false → c.chState[ch] ∈ [ChState.ready, .done, .error, .aborted] →
          Answers r s .inUse) ∧
        (c.abortPending = false → c.chState[ch] = .free → s.inv = true →
          (∀ t st, synthesize e k prm s = (t, .error st) → Answers r t st) ∧
          (∀ t P ccrs, synthesize e k prm s = (t, .ok (P, ccrs)) →
            ∃ mark,
              let ready : State := { t with
                buffers := (s.nextHandle, { P with loose := mark }) :: s.buffers
                nextHandle := s.nextHandle + 1
                ctx := some { c with
                  chState := c.chState.set ch .ready
                  pending := c.pending.set ch (some s.nextHandle)
                  lastFault := c.lastFault.set ch 0
                  errAck := c.errAck.set ch false } }
              let record := k.params.map fun p => { p with resolved := ccrs }
              (auto = false → r = .next (ready,
                { status := .success, payload := BitVec.ofNat 32 ch.val, record := record })) ∧
              (auto = true → s.gaps = [] → ∃ u q, cmdStartTransferCh .ctx ch.val ready = .next (u, q) ∧
                r = .next (u, { q with
                  payload := if q.status = .success then BitVec.ofNat 32 ch.val else 0
                  record := record })))))

/-- `startTransferCh` on a Ready channel, with no abort pending and the debug interface idle (R615, R700,
R711): it succeeds, the channel is Busy, DBGINST0 and DBGINST1 hold the DMAGO of the program's base and
security, and the interface is busy. Where `GO_VISIBLE_AT_IDLE` holds, the engine's channel, Stopped
before and allowed to start, no longer reads Stopped (R617). That it is exactly Executing at the program's
base by then, that the interface stays busy after the trigger, and that the instruction stays pending
where the parameter is false, is DEDUCED (log 13); that a Faulting manager executes it too is the model's
choice (DESIGN CHOICE, log 16). -/
def Obligations.StartIssuesGo : Prop :=
  ∀ (s : State) (c : Context) (ch : Fin 8) (h : Nat) (b : Buffer) (d : DebugBuffer),
    s.quiet c → c.dbg = some d → d.hdr.cap = 8 → c.abortPending = false → c.chState[ch] = .ready →
    c.pending[ch] = some h → bufGet s.buffers h = some b → s.engine.dbgstatus.getLsbD 0 = false →
    ∃ t c', Answers (cmdStartTransferCh .ctx ch.val s) t .success ∧ t.ctx = some c' ∧
      c'.chState = c.chState.set ch .busy ∧ c'.pending = c.pending ∧ c'.lastFault = c.lastFault ∧
      t.engine.dbginst0 =
        BitVec.ofNat 32 (0x00A00000 + (if b.nonSecure then 0x00020000 else 0) + 0x01000100 * ch.val) ∧
      t.engine.dbginst1 = b.base ∧ t.engine.dbgstatus.getLsbD 0 = true ∧
      t.mem = s.mem ∧ t.buffers = s.buffers ∧
      (s.platform.goVisibleAtIdle = true → s.goAllowed b.nonSecure ch = true →
        statusOf (s.chan ch).csr = 0x0#4 →
        (t.chan ch).pc = b.base ∧ statusOf (t.chan ch).csr = 0x1#4 ∧
          (t.chan ch).csr.getLsbD 21 = b.nonSecure ∧ t.engine.dbgPending = false) ∧
      (s.platform.goVisibleAtIdle = false → t.engine.chan = s.engine.chan ∧ t.engine.dbgPending = true)

/-- `startTransferCh` refuses: ERR_BUSY while an abort is pending, ERR_NOTREADY on a channel that is not
Ready, both with nothing changed; ERR_BUSY with the debug interface busy, no register written and the
channel still Ready (R615, R700, R702). -/
def Obligations.StartRefuses : Prop :=
  ∀ (s : State) (c : Context) (ch : Fin 8), s.quiet c →
    (c.abortPending = true → Answers (cmdStartTransferCh .ctx ch.val s) s .busy) ∧
    (c.abortPending = false → c.chState[ch] ≠ .ready →
      Answers (cmdStartTransferCh .ctx ch.val s) s .notReady) ∧
    (∀ h b, c.abortPending = false → c.chState[ch] = .ready → c.pending[ch] = some h →
      bufGet s.buffers h = some b → s.engine.dbgstatus.getLsbD 0 = true →
      ∃ t c', Answers (cmdStartTransferCh .ctx ch.val s) t .busy ∧ t.ctx = some c' ∧
        c' = { c with dbg := c'.dbg } ∧ t.engine = s.engine ∧ t.mem = s.mem ∧ t.buffers = s.buffers)

/-- Reconciliation, where the engine does nothing between its register reads (R620, R621): what becomes of
every channel's state, fault word and acknowledgement, and of the manager's fault shadow; no register
is written, and a pending abort ends when every channel is then Free or Aborted (R656). -/
def Obligations.ReconcileReads : Prop :=
  ∀ (s : State) (c : Context), s.gaps = [] →
    let c' := (reconcile c s).1
    (reconcile c s).2 = s ∧ c'.pending = c.pending ∧
    c'.mgrFault = (if s.engine.fsrd.getLsbD 0 then s.engine.ftrd else 0) ∧
    (c'.abortPending = true ↔
      c.abortPending = true ∧ ∃ ch : Fin 8, c'.chState[ch] ≠ .free ∧ c'.chState[ch] ≠ .aborted) ∧
    ∀ ch : Fin 8,
      let st := c.chState[ch]
      let stopped := statusOf (s.chan ch).csr = 0x0#4
      let faults := st = .busy ∧ s.engine.fsrc.getLsbD ch.val = true
      c'.chState[ch] =
        (if st = .free ∨ st = .aborted then st
        else if faults then .error
        else if c.abortPending = true ∧ stopped then .aborted
        else if st = .busy ∧ stopped then .done
        else st) ∧
      c'.lastFault[ch] = (if faults then (s.chan ch).ftr else c.lastFault[ch]) ∧
      c'.errAck[ch] = (if faults then false else c.errAck[ch])

/-- Whatever the engine does between the register reads, reconciliation makes only the transitions of R601
that R621 names, releases no program, and leaves no abort pending when every channel is Free or
Aborted (R622, R656, R666). -/
def Obligations.ReconcileTransitions : Prop :=
  ∀ (s : State) (c : Context),
    let c' := (reconcile c s).1
    c'.pending = c.pending ∧ (reconcile c s).2.buffers = s.buffers ∧
    (c'.abortPending = true → c.abortPending = true) ∧
    ((∀ ch : Fin 8, c'.chState[ch] = .free ∨ c'.chState[ch] = .aborted) → c'.abortPending = false) ∧
    ∀ ch : Fin 8,
      c'.chState[ch] = c.chState[ch] ∨
      (c.chState[ch] = .busy ∧ c'.chState[ch] = .error) ∨
      (c.chState[ch] = .busy ∧ c'.chState[ch] = .done ∧ c.abortPending = false) ∨
      (c.chState[ch] ∈ [ChState.ready, .busy, .done, .error] ∧ c'.chState[ch] = .aborted ∧
        c.abortPending = true)

/-- Two checkState calls on a channel in Error whose report has not been given return it once, with the
latched fault word, and then ERR_BUSY; the channel stays Error (R632, R646, R660). -/
def Obligations.CheckStateReportsOnce : Prop :=
  ∀ (s : State) (c : Context) (ch : Fin 8), s.quiet c → c.abortPending = false →
    c.chState[ch] = .error → c.errAck[ch] = false →
    ∃ t u c', cmdCheckState .ctx ch.val s =
        .next (t, { status := .hwFault, payload := c.lastFault[ch], record := none }) ∧
      Answers (cmdCheckState .ctx ch.val t) u .busy ∧
      u.ctx = some c' ∧ c'.chState[ch] = .error ∧ c'.lastFault[ch] = c.lastFault[ch]

/-- A terminal state is acknowledged once: `completedCh` of a Busy channel that the engine reports Stopped
without a fault, or of a Done one, and `abortedCh` of an Aborted channel, succeed, free the program if
it is marked so, and make the channel Free; the second call answers ERR_BUSY (R621, R635, R637, R640,
R646). -/
def Obligations.AcknowledgedOnce : Prop :=
  ∀ (s : State) (c : Context) (ch : Fin 8) (h : Nat) (b : Buffer), s.quiet c → s.buffersWf = true →
    c.pending[ch] = some h → bufGet s.buffers h = some b →
    let once := fun (poll : State → Result) => ∃ t u c', Answers (poll s) t .success ∧
      Answers (poll t) u .busy ∧ t.ctx = some c' ∧
      c'.chState[ch] = .free ∧ c'.pending[ch] = none ∧ c'.lastFault[ch] = 0 ∧
      bufGet t.buffers h = (if b.autoFree then none else some b) ∧
      (∀ h', h' ≠ h → bufGet t.buffers h' = bufGet s.buffers h') ∧ t.mem = s.mem ∧ t.engine = s.engine
    (c.abortPending = false →
      (c.chState[ch] = .done ∨ (c.chState[ch] = .busy ∧ s.engine.fsrc.getLsbD ch.val = false ∧
        statusOf (s.chan ch).csr = 0x0#4)) → once (cmdCompletedCh .ctx ch.val)) ∧
    (c.chState[ch] = .aborted → once (cmdAbortedCh .ctx ch.val))

/-- An abort of mode NONE, and a safe abort with every channel Free, are ERR_SKIPPED, an unknown mode
ERR_NOSUPPORT, with nothing changed; a forced abort marks every channel that is not Free Aborted, ends
a pending abort, clears the manager's fault shadow and resets the controller (R650, R651, R653). -/
def Obligations.AbortModes : Prop :=
  ∀ (s : State) (c : Context), s.quiet c →
    Answers (cmdAbort .ctx (some .none) s) s .skipped ∧
    Answers (cmdAbort .ctx none s) s .noSupport ∧
    ((∀ ch : Fin 8, c.chState[ch] = .free) → Answers (cmdAbort .ctx (some .safe) s) s .skipped) ∧
    ∃ t c', Answers (cmdAbort .ctx (some .force) s) t .success ∧ t.ctx = some c' ∧
      (∀ ch : Fin 8, c'.chState[ch] = (if c.chState[ch] = .free then .free else .aborted)) ∧
      c'.abortPending = false ∧ c'.mgrFault = 0 ∧ c'.pending = c.pending ∧ c'.lastFault = c.lastFault ∧
      t.engine = (resetRelease (resetAssert s)).engine ∧ t.mem = s.mem ∧ t.buffers = s.buffers ∧
      t.board.hwConfig = s.board.hwConfig ∧ t.board.resetHeld = false

/-- A safe abort of the one channel that is not Free, with the debug interface idle, leaves the states, makes
the abort pending and issues that channel's DMAKILL (R651, R712); where `GO_VISIBLE_AT_IDLE` holds its
thread is then Stopped, and the next `aborted` poll frees the channel and ends the abort (R621, R638,
R656). That the DMAKILL has its effect at the write of DBGCMD there is DEDUCED (log 13): R617 speaks of a
DMAGO, and R941 says only that a kill stops its channel in the end. -/
def Obligations.SafeAbortKills : Prop :=
  ∀ (s : State) (c : Context) (ch : Fin 8) (h : Nat) (b : Buffer) (d : DebugBuffer), s.quiet c →
    c.dbg = some d → d.hdr.cap = 8 → c.chState[ch] ≠ .free →
    (c.chState[ch] = .busy → s.engine.fsrc.getLsbD ch.val = false ∨ statusOf (s.chan ch).csr ≠ 0x0#4) →
    (∀ k : Fin 8, k ≠ ch → c.chState[k] = .free) → c.pending[ch] = some h →
    bufGet s.buffers h = some b → s.engine.dbgstatus.getLsbD 0 = false →
    ∃ t c', Answers (cmdAbort .ctx (some .safe) s) t .success ∧ t.ctx = some c' ∧
      c'.chState = c.chState ∧ c'.abortPending = true ∧ c'.pending = c.pending ∧
      t.engine.dbginst0 = BitVec.ofNat 32 (0x00010001 + 0x100 * ch.val) ∧ t.engine.dbginst1 = 0 ∧
      (s.platform.goVisibleAtIdle = true → statusOf (t.chan ch).csr = 0x0#4 ∧
        ∃ u c'', cmdAborted .ctx t =
            .next (u, { status := .success, payload := 1#32 <<< ch.val, record := none }) ∧
          u.ctx = some c'' ∧ (∀ k : Fin 8, c''.chState[k] = .free) ∧ c''.abortPending = false)

/-! ## The façade (43_debug_facade.md) -/

/-- `initialise` (R730, R900): a misaligned base, a word size outside 1, 2, 4, 8 or an invalid board
configuration fails with nothing changed; else, with storage obtained, the board configuration is applied,
the controller is reset and the context is new, every field at the value of R900; without storage it fails
with ERR_NULLPTR and leaves no initialised context. The payload 1 that names the context is the model's
choice (DESIGN CHOICE, log 7), that an earlier context is left uninitialised is DEDUCED (log 35), and that
the buffers are as before, the programs that an earlier context held pending among them, whatever their
`autoFree` says, is the model's choice too (DESIGN CHOICE, log 52; the spec is silent). -/
def Obligations.InitialiseResets : Prop :=
  ∀ (s : State) (base : Word) (wb : Nat) (hw : Option HwConfig) (e : Env),
    let r := cmdInitialise base wb hw e s
    let valid := match hw with
      | none => true
      | some cfg => Config.hwConfigValid s.platform.boardFamily cfg
    let applied := match hw with
      | none => s
      | some cfg => applyHwConfig cfg s
    (base.toNat % 4 ≠ 0 → Answers r s .alignment) ∧
    (base.toNat % 4 = 0 → wb ∉ [1, 2, 4, 8] → Answers r s .noSupport) ∧
    (base.toNat % 4 = 0 → wb ∈ [1, 2, 4, 8] →
      if valid = false then Answers r s .noSupport
      else if e.allocOk = false then
        ∃ t, Answers r t .nullptr ∧ (∀ c, t.ctx = some c → c.initialised = false) ∧ t.mem = s.mem ∧
          t.buffers = s.buffers ∧ t.board.resetHeld = false
      else ∃ t c d, r = .next (t, { status := .success, payload := 1, record := none }) ∧ t.ctx = some c ∧
        c.base = base ∧ c.wordBytes = wb ∧ c.initialised = true ∧ c.abortPending = false ∧
        c.mgrFault = 0 ∧ c.shortThreshold.toNat = 2 * wb ∧ c.dbg = some d ∧ d.hdr.cap = 8 ∧
        d.hdr.len = 0 ∧ d.bytes = [0x00] ∧
        (∀ ch : Fin 8, c.chState[ch] = .free ∧ c.pending[ch] = none ∧ c.lastFault[ch] = 0 ∧
          c.errAck[ch] = false) ∧
        t.engine = (resetRelease (resetAssert applied)).engine ∧ t.board.resetHeld = false ∧
        t.board.hwConfig = applied.board.hwConfig ∧ t.mem = s.mem ∧ t.buffers = s.buffers)

/-- `cleanup` of an initialised context, when it completes, leaves it uninitialised with every channel Free,
no pending program, no latched fault, no acknowledgement (R124, R666) and no debug buffer, and the
controller held in reset (R735, R904). With every channel Free it completes. -/
def Obligations.CleanupDiscards : Prop :=
  ∀ (s : State) (c : Context), s.ctx = some c → c.initialised = true →
    (∀ t r, cmdCleanup .ctx s = .next (t, r) →
      r.status = .success ∧ t.board.resetHeld = true ∧ ∃ c', t.ctx = some c' ∧
        c'.initialised = false ∧ c'.dbg = none ∧
        ∀ ch : Fin 8, c'.chState[ch] = .free ∧ c'.pending[ch] = none ∧ c'.lastFault[ch] = 0 ∧
          c'.errAck[ch] = false) ∧
    ((∀ ch : Fin 8, c.chState[ch] = .free) → ∃ t r, cmdCleanup .ctx s = .next (t, r))

/-- The short-transfer bypass (R235, R740, R741): a request with no parameters, at most the threshold long,
with autoStart, whose ranges hold memory and are the same or do not overlap, copies the bytes, answers
ERR_SKIPPED with their number, and touches neither the engine nor the context. Ranges may run over the top
of memory, and the destination may lie on a program buffer: that the copy wraps at the top, where I6 says any
value, and that it writes its bytes on a program, where I7 may be read to say so, is the model's choice
(DESIGN CHOICE, log 39). -/
def Obligations.BypassCopies : Prop :=
  ∀ (s : State) (c : Context) (k : Chunk) (index : Nat) (e : Env),
    s.ctx = some c → c.initialised = true → s.mem.wf = true → k.params = none →
    k.length ≤ c.shortThreshold →
    (∀ i, i < k.length.toNat → s.mappedAt (k.readAddr + BitVec.ofNat 32 i) = true ∧
      s.mappedAt (k.writeAddr + BitVec.ofNat 32 i) = true) →
    (k.readAddr = k.writeAddr ∨ (k.length.toNat ≤ (k.writeAddr - k.readAddr).toNat ∧
      k.length.toNat ≤ (k.readAddr - k.writeAddr).toNat)) →
    ∃ t, cmdSetupTransfer .ctx (some k) index true e s =
        .next (t, { status := .skipped, payload := k.length, record := none }) ∧
      t = { s with mem := t.mem } ∧
      (∀ i, i < k.length.toNat →
        t.byteAt (k.writeAddr + BitVec.ofNat 32 i) = s.byteAt (k.readAddr + BitVec.ofNat 32 i)) ∧
      ∀ a, (∀ i, i < k.length.toNat → a ≠ k.writeAddr + BitVec.ofNat 32 i) → t.byteAt a = s.byteAt a

/-- The interrupt commands (R750..R752): irqSetEnable sets or clears the mask's bits of INTEN, irqFlags
answers the pending interrupts under the mask, irqClear clears them; nothing else changes. -/
def Obligations.InterruptCommands : Prop :=
  ∀ (s : State) (c : Context) (mask : Word), s.quiet c →
    Answers (cmdIrqSetEnable .ctx mask true s)
      { s with engine := { s.engine with inten := s.engine.inten ||| mask } } .success ∧
    Answers (cmdIrqSetEnable .ctx mask false s)
      { s with engine := { s.engine with inten := s.engine.inten &&& ~~~mask } } .success ∧
    cmdIrqFlags .ctx mask s = .next (s, {
      status := .success, payload := s.engine.irqs &&& s.engine.inten &&& mask, record := none }) ∧
    Answers (cmdIrqClear .ctx mask s)
      { s with engine := { s.engine with irqs := s.engine.irqs &&& ~~~mask } } .success

/-! ## Stores whose data are open (R934, I4, I7) -/

/-- Whatever a store's data are, an overlap of R934 or a reserved ES among them, a store whose burst holds memory
and lies below its top completes and stays inside its burst, where a store is in memory at once: DMAST
takes its bytes from the FIFO, DMASTZ leaves the FIFO, DAR advances by the burst, and every byte of memory
outside the burst's addresses is unchanged (R561). What the bytes inside it are is I4's and I7's any
value (logs 26, 27, 48). -/
def Obligations.StoresStayInside : Prop :=
  ∀ (s : State) (n : Fin 8), s.runsOn n → s.storeMapped n = true →
    s.platform.stopImpliesWritesDone = true →
    let c := s.chan n
    let stored := fun (fifo : List Byte) (t : State) =>
      t.chan n = { c with
        fifo := fifo
        dar := c.dst.after c.dst.len
        pc := c.pc + 1
        csr := withStatus c.csr stExecuting } ∧
      onlyChannelChanges n s t ∧ ∀ a, a ∉ c.dst.addrs → t.byteAt a = s.byteAt a
    (c.dst.size ≤ c.fifo.length → ∃ t, exec .dmast s = .next t ∧
      (c.reqType = .single → exec .dmasts s = .next t) ∧
      (c.reqType = .burst → exec .dmastb s = .next t) ∧ stored (c.fifo.drop c.dst.size) t) ∧
    ∃ t, exec .dmastz s = .next t ∧ stored c.fifo t
end

