-- ==== Sys2Proof/Laws/Bits.lean ====
section
/-! SUPPORT. The bits of the status words after each update of a field (R142, R152). -/

namespace Sys2Proof.Machine

/-- The bits of the two masks that keep a status word's other fields. -/
theorem mask_bits (i : Nat) : (0xFFFFFFF0#32).getLsbD i = decide (4 ≤ i ∧ i < 32) ∧
    (0xFFFFFE0F#32).getLsbD i = decide ((i < 4 ∨ 9 ≤ i) ∧ i < 32) := by
  by_cases h : i < 32
  · revert i; decide
  · simp [BitVec.getLsbD_of_ge, show 32 ≤ i by omega]

/-- A status update writes bits 3..0. -/
theorem withStatus_bit (w : Word) (v : BitVec 4) (i : Nat) :
    (withStatus w v).getLsbD i = if i < 4 then v.getLsbD i else w.getLsbD i := by
  simp only [withStatus, BitVec.getLsbD_or, BitVec.getLsbD_and, (mask_bits i).1, BitVec.getLsbD_setWidth]
  by_cases h : i < 32
  · by_cases h4 : i < 4
    · simp [h, h4, show ¬ 4 ≤ i by omega]
    · simp [h, h4, show 4 ≤ i by omega, BitVec.getLsbD_of_ge]
  · simp [BitVec.getLsbD_of_ge, show 32 ≤ i by omega, show ¬ i < 4 by omega]

/-- A wakeup update writes bits 8..4. -/
theorem withWakeup_bit (w : Word) (k : Fin 32) (i : Nat) :
    (withWakeup w k).getLsbD i = if 4 ≤ i ∧ i < 9 then k.val.testBit (i - 4) else w.getLsbD i := by
  simp only [withWakeup, BitVec.getLsbD_or, BitVec.getLsbD_and, (mask_bits i).2, BitVec.getLsbD_shiftLeft, BitVec.getLsbD_ofNat]
  by_cases h : 4 ≤ i ∧ i < 9
  · simp [h, show ¬ i < 4 by omega, show ¬ 9 ≤ i by omega, show i < 32 by omega, show i - 4 < 32 by omega]
  · by_cases h4 : i < 4
    · simp [h4, show i < 32 by omega, show ¬ 4 ≤ i by omega]
    · have : k.val.testBit (i - 4) = false :=
        Nat.testBit_lt_two_pow (lt_of_lt_of_le k.isLt (Nat.pow_le_pow_right (show 0 < 2 by omega) (show 5 ≤ i - 4 by omega)))
      by_cases h32 : i < 32
      · simp [this, show ¬ i < 4 by omega, show 9 ≤ i by omega, show ¬ i < 9 by omega, h32]
      · simp [BitVec.getLsbD_of_ge, show 32 ≤ i by omega, show ¬ i < 4 by omega, this, h32]

/-- A bit update writes that bit. -/
theorem putBit_bit (w : Word) (k : Nat) (b : Bool) (i : Nat) (hk : k < 32) :
    (putBit w k b).getLsbD i = if i = k then b else w.getLsbD i := by
  have h1 : (1#32 <<< k).getLsbD i = decide (i = k) := by
    by_cases h : i = k
    · subst h; simp [hk]
    · simp [h]; intros; omega
  have hw : 32 ≤ i → w.getLsbD i = false := fun h => BitVec.getLsbD_of_ge _ _ h
  cases b <;> simp only [putBit, setBit, clearBit, BitVec.getLsbD_or, BitVec.getLsbD_and, BitVec.getLsbD_not, h1, Bool.false_eq_true, if_true, if_false]
  · by_cases h : i = k
    · simp [h]
    · by_cases h32 : i < 32
      · simp [h, h32]
      · simp [h, h32, hw (by omega)]
  · by_cases h : i = k <;> simp [h]

/-- A wait shows its status and its number, and leaves the bits above. -/
theorem waiting_fields (w : Word) (v : BitVec 4) (k : Fin 32) :
    statusOf (withWakeup (withStatus w v) k) = v ∧
      ((withWakeup (withStatus w v) k).extractLsb' 4 5).toNat = k.val ∧
      (withWakeup (withStatus w v) k).extractLsb' 9 23 = w.extractLsb' 9 23 := by
  refine ⟨?_, ?_, ?_⟩
  · apply BitVec.eq_of_getLsbD_eq
    intro i hi
    simp [statusOf, withWakeup_bit, withStatus_bit, hi, show ¬ 4 ≤ i by omega]
  · rw [show (withWakeup (withStatus w v) k).extractLsb' 4 5 = BitVec.ofNat 5 k.val from ?_]
    · simp
    apply BitVec.eq_of_getLsbD_eq
    intro i hi
    simp [withWakeup_bit, hi, show 4 + i < 9 by omega]
  · apply BitVec.eq_of_getLsbD_eq
    intro i hi
    simp [withWakeup_bit, withStatus_bit, hi, show ¬ (9 + i < 9) by omega, show ¬ (9 + i < 4) by omega]

end Sys2Proof.Machine
end

