-- ==== Sys2Proof/Laws/Bursts.lean ====
section
/-! SUPPORT. The addresses of a burst (R561), going on by `wentOn`, and the frame of a channel's instruction. -/

namespace Sys2Proof.Machine

/-! ## Going on, in the terms of the claims -/

/-- The active thread of a channel that runs from memory. -/
theorem runsOn_thread {s : State} {n : Fin 8} (h : s.runsOn n) : s.active.thread = .channel n := by rw [h]

/-- Where its instruction came from. -/
theorem runsOn_origin {s : State} {n : Fin 8} (h : s.runsOn n) : s.active.origin = .memory := by rw [h]

/-- `retire` with no other effect. -/
theorem retire_wentOn {s : State} {n : Fin 8} (h : s.runsOn n) (k : Nat) :
    s.retire k = s.wentOn n k (s.chan n) := retire_channel h k

/-- `retire` after an effect on the channel that leaves its pc and status. -/
theorem setChan_retire_wentOn {s : State} {n : Fin 8} (h : s.runsOn n) (c : Channel) (k : Nat)
    (hp : c.pc = (s.chan n).pc) (hc : c.csr = (s.chan n).csr) :
    (s.setChan n c).retire k = s.wentOn n k c := by
  rw [retire_channel (by simpa using h)]
  simp [State.wentOn, hc, hp]

/-- The frame of an effect on one channel. -/
theorem setChan_frame (s : State) (n : Fin 8) (c : Channel) : onlyChannelChanges n s (s.setChan n c) :=
  ⟨fun _ hm => setChan_chan_ne _ _ _ _ hm, rfl, rfl, rfl, rfl, rfl, rfl, rfl, rfl, rfl, rfl, rfl⟩

/-- The frame of going on. -/
theorem wentOn_frame (s : State) (n : Fin 8) (k : Nat) (c : Channel) :
    onlyChannelChanges n s (s.wentOn n k c) := setChan_frame s n _

/-- Going on leaves memory. -/
@[simp] theorem wentOn_byteAt (s : State) (n : Fin 8) (k : Nat) (c : Channel) (a : Word) :
    (s.wentOn n k c).byteAt a = s.byteAt a := rfl

/-! ## Bursts (R561) -/

/-- Consecutive blocks of one size are one range. -/
theorem range_flatMap_range {α : Type} (beat len : Nat) (f : Nat → α) :
    ((List.range len).flatMap fun r => (List.range beat).map fun k => f (r * beat + k)) =
      (List.range (len * beat)).map f := by
  induction len with
  | zero => simp
  | succ len ih =>
    rw [List.range_succ, List.flatMap_append, ih, Nat.succ_mul, List.range_add, List.map_append]
    simp [List.map_map, Function.comp_def]

/-- An incrementing burst covers the addresses from its base on, one after another. -/
theorem addrs_of_inc {b : Burst} (h : b.inc = true) :
    b.addrs = (List.range (b.len * b.beat)).map fun i => b.base + BitVec.ofNat 32 i := by
  rw [← range_flatMap_range]
  simp only [Burst.addrs, Burst.after, h, if_true, BitVec.ofNat_add, BitVec.add_assoc]

/-- A fixed burst covers the addresses of one beat, again and again. -/
theorem addrs_of_fixed {b : Burst} (h : b.inc = false) :
    b.addrs = (List.replicate b.len ((List.range b.beat).map fun k => b.base + BitVec.ofNat 32 k)).flatten := by
  simp only [Burst.addrs, Burst.after, h, Bool.false_eq_true, if_false, List.flatMap_def]
  congr 1
  induction b.len with
  | zero => rfl
  | succ len ih => simp [List.range_succ, List.replicate_succ', ih]

/-- A burst has as many addresses as bytes. -/
theorem addrs_length (b : Burst) : b.addrs.length = b.size := by
  cases h : b.inc
  · simp [addrs_of_fixed h, Burst.size, Nat.mul_comm]
  · simp [addrs_of_inc h, Burst.size, Nat.mul_comm]

/-- The address register after a whole burst. -/
theorem after_len (b : Burst) :
    b.after b.len = if b.inc then b.base + BitVec.ofNat 32 (b.len * b.beat) else b.base := rfl

/-- Two offsets below 2^32 that give the same address are the same. -/
theorem burst_offset_inj (base : Word) {i j : Nat} (hi : i < 2 ^ 32) (hj : j < 2 ^ 32)
    (h : base + BitVec.ofNat 32 i = base + BitVec.ofNat 32 j) : i = j := by
  have h' : BitVec.ofNat 32 i = BitVec.ofNat 32 j := by
    have := congrArg (fun w => w - base) h
    simpa [BitVec.add_sub_cancel, BitVec.add_comm] using this
  have := congrArg BitVec.toNat h'
  rw [BitVec.toNat_ofNat, BitVec.toNat_ofNat] at this
  omega

/-- The addresses from a base on, as many as there are, are distinct. -/
theorem offsets_nodup (base : Word) {n : Nat} (h : n ≤ 2 ^ 32) :
    ((List.range n).map fun i => base + BitVec.ofNat 32 i).Nodup := by
  refine List.Nodup.map_on ?_ List.nodup_range
  intro i hi j hj e
  rw [List.mem_range] at hi hj
  exact burst_offset_inj base (by omega) (by omega) e

end Sys2Proof.Machine
end

