-- ==== Sys2Proof/Laws/Transfer.lean ====
section
/-! SUPPORT. What the shared operations of the data instructions do: a load and a store that come to their end, the bytes
of memory after a store, and faults in the terms of the claims. -/

namespace Sys2Proof.Machine

/-! ## Faults in the terms of the claims -/

/-- A fault taken on a channel thread that runs from memory. -/
theorem takeFault_runsOn {s : State} {n : Fin 8} (h : s.runsOn n) (bits : Word) :
    takeFault bits s = s.faultedOn n bits := by
  rw [takeFault_channel (runsOn_thread h)]
  simp only [faultWord, runsOn_origin h]
  rfl

/-- The fault of one type bit. -/
theorem takeFaultBit_runsOn {s : State} {n : Fin 8} (h : s.runsOn n) (bit : Nat) :
    takeFaultBit bit s = s.faultedOn n (1#32 <<< bit) := by
  rw [takeFaultBit, takeFault_runsOn h]
  simp [setBit]

/-- A fault taken on the manager thread that runs from memory. -/
theorem takeFault_runsManager {s : State} (h : s.runsManager) (bits : Word) :
    takeFault bits s = s.faultedManager bits := by
  have h1 : s.active.origin = .memory := by rw [h]
  have h2 : s.active.thread = .manager := by rw [h]
  rw [takeFault_manager h2]
  simp only [faultWord, h1]
  rfl

/-! ## Loads (R561) -/

/-- A list whose members all pass is not cut. -/
theorem takeWhile_all {α : Type} {p : α → Bool} {l : List α} (h : l.all p = true) : l.takeWhile p = l := by
  rw [List.takeWhile_eq_self_iff]
  simpa using h

/-- A beat is at least one byte. -/
theorem beat_pos (c : Channel) : 0 < c.src.beat ∧ 0 < c.dst.beat :=
  ⟨Nat.two_pow_pos _, Nat.two_pow_pos _⟩

/-- A load that comes to its end pushes the burst's bytes and advances SAR. -/
theorem loadOp_ready {s : State} {n : Fin 8} (h : s.runsOn n) (hr : s.loadReady n = true) :
    loadOp n s = s.wentOn n 1 { s.chan n with
      fifo := (s.chan n).fifo ++ (s.chan n).src.addrs.map s.byteAt
      sar := (s.chan n).src.after (s.chan n).src.len } := by
  simp only [State.loadReady, Bool.and_eq_true, Bool.not_eq_true'] at hr
  obtain ⟨⟨⟨h1, h2⟩, h3⟩, h4⟩ := hr
  simp only [loadOp, h1, h2, h3, State.burstAddrs, State.loadBytes, Bool.false_eq_true, if_false,
    takeWhile_all h4, Bool.not_true, if_true]
  rw [setChan_retire_wentOn h] <;> try rfl
  rw [addrs_length, Burst.size, Nat.mul_div_cancel_left _ (beat_pos _).1]

/-! ## Stores (R561) -/

/-- Swapping groups keeps the number of bytes. -/
@[simp] theorem reverseGroups_length (k : Nat) (bs : List Byte) : (reverseGroups k bs).length = bs.length := by
  simp [reverseGroups]

/-- The cells of a store whose burst holds memory are all its addresses with the bytes. -/
theorem dstCells_mapped {s : State} {n : Fin 8} {bytes : List Byte}
    (hs : (s.chan n).dst.crossesTop = false) (hm : (s.chan n).dst.addrs.all s.mappedAt = true) :
    s.dstCells n bytes = (s.chan n).dst.addrs.zip bytes := by
  simp only [State.dstCells, State.burstAddrs, hs, Bool.false_eq_true, if_false]
  apply takeWhile_all
  simp only [List.all_eq_true] at hm ⊢
  exact fun x hx => hm _ (List.of_mem_zip hx).1

/-- A store that comes to its end, where its bytes are in memory at once: memory has them, DAR has advanced,
and the FIFO has lost them if they came from it. -/
theorem writeBurst_ready {s : State} {n : Fin 8} (h : s.runsOn n) {bytes : List Byte} (popped : Bool)
    (hs : (s.chan n).dst.crossesTop = false) (hm : (s.chan n).dst.addrs.all s.mappedAt = true)
    (hl : bytes.length = (s.chan n).dst.size) (hd : s.platform.stopImpliesWritesDone = true) :
    writeBurst n bytes popped false s =
      { s with mem := memWrites s.mem ((s.chan n).dst.addrs.zip bytes) }.wentOn n 1 { s.chan n with
        fifo := if popped then (s.chan n).fifo.drop (s.chan n).dst.size else (s.chan n).fifo
        dar := (s.chan n).dst.after (s.chan n).dst.len } := by
  have hc := dstCells_mapped (bytes := bytes) hs hm
  have hlen : ((s.chan n).dst.addrs.zip bytes).length = (s.chan n).dst.size := by
    simp [addrs_length, hl]
  simp only [writeBurst, hc, hlen, Bool.false_eq_true, if_false, if_true, State.storeCells, setChan_platform,
    hd]
  rw [retire_wentOn (n := n) (by exact h), Burst.size, Nat.mul_div_cancel_left _ (beat_pos _).2]
  simp [State.wentOn, State.setChan, State.chan]

/-- Likewise where stores are queued: memory is as before, and the cells stand behind the earlier ones. -/
theorem writeBurst_queued {s : State} {n : Fin 8} (h : s.runsOn n) {bytes : List Byte} (popped : Bool)
    (hs : (s.chan n).dst.crossesTop = false) (hm : (s.chan n).dst.addrs.all s.mappedAt = true)
    (hl : bytes.length = (s.chan n).dst.size) (hd : s.platform.stopImpliesWritesDone = false) :
    writeBurst n bytes popped false s = s.wentOn n 1 { s.chan n with
      fifo := if popped then (s.chan n).fifo.drop (s.chan n).dst.size else (s.chan n).fifo
      dar := (s.chan n).dst.after (s.chan n).dst.len
      writes := (s.chan n).writes ++ (s.chan n).dst.addrs.zip bytes } := by
  have hc := dstCells_mapped (bytes := bytes) hs hm
  have hlen : ((s.chan n).dst.addrs.zip bytes).length = (s.chan n).dst.size := by
    simp [addrs_length, hl]
  simp only [writeBurst, hc, hlen, Bool.false_eq_true, if_false, if_true, State.storeCells, setChan_platform,
    hd, setChan_setChan, setChan_chan_self]
  rw [setChan_retire_wentOn h] <;> try rfl
  rw [Burst.size, Nat.mul_div_cancel_left _ (beat_pos _).2]

/-- A byte written at distinct addresses is there afterwards. -/
theorem memRead_zip {m : Memory} (hm : m.wf = true) {as : List Word} {bs : List Byte} (hn : as.Nodup)
    (hl : bs.length = as.length) {i : Nat} (hi : i < as.length) :
    memRead (memWrites m (as.zip bs)) (as[i]).toNat = bs[i]'(by omega) := by
  apply memRead_memWrites_mem hm
  · rwa [List.map_fst_zip (by omega)]
  · rw [List.mem_iff_getElem]
    exact ⟨i, by simp; omega, by simp⟩

/-- Memory after consecutive bytes have been written from an address on: the bytes are there, and every other
byte is as before. -/
theorem memRead_span {m : Memory} (hm : m.wf = true) (base : Word) {bs : List Byte}
    (hl : bs.length ≤ 2 ^ 32) :
    let m' := memWrites m (((List.range bs.length).map fun i => base + BitVec.ofNat 32 i).zip bs)
    (∀ i, (h : i < bs.length) → memRead m' (base + BitVec.ofNat 32 i).toNat = bs[i]) ∧
    ∀ a : Word, (∀ i, i < bs.length → a ≠ base + BitVec.ofNat 32 i) →
      memRead m' a.toNat = memRead m a.toNat := by
  refine ⟨fun i hi => ?_, fun a ha => ?_⟩
  · have := memRead_zip hm (offsets_nodup base hl) (bs := bs) (by simp) (i := i) (by simpa using hi)
    simpa using this
  · apply memRead_memWrites_notMem
    rw [List.map_fst_zip (by simp)]
    simp only [List.mem_map, List.mem_range, not_exists, not_and]
    exact fun i hi e => ha i hi e.symm

/-- The byte a swap moves stays inside the bytes. -/
theorem swapIndex_lt {g size i : Nat} (hg : 0 < g) (hmod : size % g = 0) (hi : i < size) :
    i / g * g + (g - 1 - i % g) < size := by
  obtain ⟨q, rfl⟩ := Nat.dvd_of_mod_eq_zero hmod
  have h1 : i / g < q := by rwa [Nat.div_lt_iff_lt_mul hg, Nat.mul_comm]
  have h2 : (i / g + 1) * g ≤ q * g := Nat.mul_le_mul_right _ h1
  have h3 : i % g < g := Nat.mod_lt _ hg
  rw [Nat.add_mul, Nat.mul_comm q g] at h2
  omega

end Sys2Proof.Machine
end

