-- ==== Sys2Proof/Laws/Buffers.lean ====
section
/-! SUPPORT. Program buffers: the live buffers by handle, the bytes an edit leaves in memory, and what the shared
operations of the encoder commands do. -/

namespace Sys2Proof.Machine

/-! ## The live buffers by handle (log 8) -/

/-- A replaced buffer is found under its handle. -/
theorem bufGet_bufSet_self {l : List (Nat × Buffer)} {h : Nat} {b b' : Buffer} (hb : bufGet l h = some b) :
    bufGet (bufSet l h b') h = some b' := by
  induction l with
  | nil => simp [bufGet] at hb
  | cons p l ih =>
    obtain ⟨k, c⟩ := p
    by_cases e : h = k
    · simp [bufSet, bufGet, e]
    · simp only [bufGet, if_neg e] at hb
      simp [bufSet, bufGet, e, ih hb]

/-- Replacing a buffer leaves the others. -/
theorem bufGet_bufSet_ne {l : List (Nat × Buffer)} {h h' : Nat} {b' : Buffer} (hn : h' ≠ h) :
    bufGet (bufSet l h b') h' = bufGet l h' := by
  induction l with
  | nil => rfl
  | cons p l ih =>
    obtain ⟨k, c⟩ := p
    by_cases e : h = k
    · subst e
      simp [bufSet, bufGet, hn]
    · simp [bufSet, bufGet, e, ih]

/-- Removing a buffer leaves the others. -/
theorem bufGet_bufErase_ne {l : List (Nat × Buffer)} {h h' : Nat} (hn : h' ≠ h) :
    bufGet (bufErase l h) h' = bufGet l h' := by
  induction l with
  | nil => rfl
  | cons p l ih =>
    obtain ⟨k, c⟩ := p
    by_cases e : h = k
    · subst e
      simp [bufErase, bufGet, hn]
    · simp [bufErase, bufGet, e, ih]

/-- A removed buffer is gone, where handles are distinct. -/
theorem bufGet_bufErase_self {l : List (Nat × Buffer)} {h next : Nat} (hl : handlesOk next l = true) :
    bufGet (bufErase l h) h = none := by
  induction l with
  | nil => rfl
  | cons p l ih =>
    obtain ⟨k, c⟩ := p
    simp only [handlesOk, Bool.and_eq_true, decide_eq_true_eq, Option.isNone_iff_eq_none] at hl
    obtain ⟨⟨-, h2⟩, h3⟩ := hl
    by_cases e : h = k
    · subst e
      simpa [bufErase] using h2
    · simp [bufErase, bufGet, e, ih h3]

/-- A live buffer's handle is below the next one to be given out. -/
theorem lt_of_bufGet {l : List (Nat × Buffer)} {h next : Nat} {b : Buffer} (hl : handlesOk next l = true)
    (hb : bufGet l h = some b) : h < next := by
  induction l with
  | nil => simp [bufGet] at hb
  | cons p l ih =>
    obtain ⟨k, c⟩ := p
    simp only [handlesOk, Bool.and_eq_true, decide_eq_true_eq] at hl
    by_cases e : h = k
    · omega
    · simp only [bufGet, if_neg e] at hb
      exact ih hl.2 hb

/-- The buffer operand `some h` names the live buffer of `h`. -/
theorem findBuffer_some (s : State) (h : Nat) :
    s.findBuffer (some h) = (bufGet s.buffers h).map fun b => (h, b) := rfl

/-- The null pointer names no buffer. -/
@[simp] theorem findBuffer_none (s : State) : s.findBuffer none = none := rfl

/-! ## The bytes of an edit (R403, R421) -/

/-- The offsets of consecutive bytes. -/
theorem offsetWrites_eq (start : Nat) (bs : List Byte) :
    offsetWrites start bs = (List.range' start bs.length).zip bs := by
  induction bs generalizing start with
  | nil => rfl
  | cons b bs ih => simp [offsetWrites, ih, List.range'_succ]

/-- A byte among consecutive ones, at its offset. -/
theorem mem_offsetWrites {start : Nat} {bs : List Byte} {k : Nat} (hk : k < bs.length) :
    (start + k, bs[k]) ∈ offsetWrites start bs := by
  rw [offsetWrites_eq, List.mem_iff_getElem]
  exact ⟨k, by simp; omega, by simp⟩

/-- Edited memory is canonical where memory was. -/
theorem applyWrites_wf {b : Buffer} {ws : List (Nat × Byte)} {m : Memory} (h : m.wf = true) :
    (applyWrites b ws m).wf = true := memWrites_wf h

/-- A byte an edit writes, at distinct offsets below 2^32, is there afterwards. -/
theorem memRead_applyWrites {b : Buffer} {ws : List (Nat × Byte)} {m : Memory} {i : Nat} {v : Byte}
    (hm : m.wf = true) (hn : (ws.map Prod.fst).Nodup) (hw : (i, v) ∈ ws) (hi : ∀ w ∈ ws, w.1 < 2 ^ 32) :
    memRead (applyWrites b ws m) (b.addr i).toNat = v := by
  apply memRead_memWrites_mem hm
  · rw [List.map_map, show (Prod.fst ∘ fun w : Nat × Byte => (b.addr w.1, w.2)) = b.addr ∘ Prod.fst from rfl,
      ← List.map_map]
    refine List.Nodup.map_on ?_ hn
    intro x hx y hy e
    obtain ⟨p, hp, rfl⟩ := List.mem_map.1 hx
    obtain ⟨q, hq, rfl⟩ := List.mem_map.1 hy
    exact burst_offset_inj b.base (hi p hp) (hi q hq) e
  · exact List.mem_map.2 ⟨_, hw, rfl⟩

/-- A byte no edit writes is as before. -/
theorem memRead_applyWrites_ne {b : Buffer} {ws : List (Nat × Byte)} {m : Memory} {a : Word}
    (ha : ∀ w ∈ ws, a ≠ b.addr w.1) : memRead (applyWrites b ws m) a.toNat = memRead m a.toNat := by
  apply memRead_memWrites_notMem
  simp only [List.map_map, List.mem_map, Function.comp, not_exists, not_and]
  exact fun w hw e => ha w hw e.symm

/-! ## The append (R403) -/

/-- An append succeeds exactly when the instruction and the sentinel have room. -/
theorem emit_cases (P : Buffer) (i : Instr) :
    (P.len + (encode i).length + 1 ≤ P.cap ∧ emit P i = .ok (appendBytes P (encode i))) ∨
    (P.cap < P.len + (encode i).length + 1 ∧ emit P i = .error .noSpace) := by
  unfold emit Buffer.room
  split
  · rename_i h
    exact .inl ⟨by simpa using h, rfl⟩
  · rename_i h
    exact .inr ⟨by simpa using h, rfl⟩

/-- Memory after an append within the capacity: the bytes and the sentinel are there, the rest is as before. -/
theorem appendBytes_read {P : Buffer} {m : Memory} {bs : List Byte} (hm : m.wf = true)
    (hc : P.len + bs.length + 1 ≤ 2 ^ 32) :
    (∀ k, (h : k < (bs ++ [0x00]).length) →
      memRead (applyWrites P (appendBytes P bs).writes m) (P.addr (P.len + k)).toNat = (bs ++ [0x00])[k]) ∧
    ∀ a, (∀ k, k < bs.length + 1 → a ≠ P.addr (P.len + k)) →
      memRead (applyWrites P (appendBytes P bs).writes m) a.toNat = memRead m a.toNat := by
  have hfst : ((appendBytes P bs).writes.map Prod.fst) = List.range' P.len (bs.length + 1) := by
    simp only [appendBytes, offsetWrites_eq]
    rw [List.map_fst_zip (by simp)]
    simp
  have hoff : ∀ w ∈ (appendBytes P bs).writes, ∃ k, k < bs.length + 1 ∧ w.1 = P.len + k := by
    intro w hw
    have := hfst ▸ List.mem_map_of_mem (f := Prod.fst) hw
    rw [List.mem_range'_1] at this
    exact ⟨w.1 - P.len, by omega, by omega⟩
  refine ⟨fun k hk => ?_, fun a ha => ?_⟩
  · refine memRead_applyWrites hm (hfst ▸ List.nodup_range') (mem_offsetWrites hk) fun w hw => ?_
    obtain ⟨j, hj, e⟩ := hoff w hw
    omega
  · refine memRead_applyWrites_ne fun w hw => ?_
    obtain ⟨j, hj, e⟩ := hoff w hw
    rw [e]
    exact ha j hj

/-- A number in range as a field. -/
theorem finOfNat_eq {n k : Nat} [NeZero n] (h : k < n) : Fin.ofNat n k = ⟨k, h⟩ := Fin.ext (Nat.mod_eq_of_lt h)

/-- An encoder command that appends one instruction is that append (R410..R413, R430..R433, R440..R453). -/
theorem encodeOp_append {op : EncOp} {i : Instr} (P : Buffer) (c : Nat → Byte)
    (h : appendedInstr op = some i) : encodeOp op P c = emit P i := by
  cases op
  case mov rd imm =>
    cases rd <;> simp [appendedInstr] at h
    subst h
    rfl
  case load cd => rcases cd with _ | _ | _ | _ <;> simp [appendedInstr] at h <;> subst h <;> rfl
  case store cd => rcases cd with _ | _ | _ | _ <;> simp [appendedInstr] at h <;> subst h <;> rfl
  case waitPeriph p ty =>
    rcases ty with _ | _ | _ | _ <;> simp [appendedInstr] at h
    all_goals
      obtain ⟨hp, rfl⟩ := h
      simp only [encodeOp, needEnum, wfpInstr, finOfNat_eq hp]
      rw [if_neg (by omega)]
  case sendEvent ev =>
    simp only [appendedInstr, Option.dite_none_right_eq_some, Option.ite_none_left_eq_some,
      Option.some.injEq] at h
    obtain ⟨h1, h2, rfl⟩ := h
    simp only [encodeOp, Config.eventAborted, finOfNat_eq h1]
    refine if_neg fun h => ?_
    rcases Bool.or_eq_true _ _ ▸ h with h | h
    · exact absurd (of_decide_eq_true h) (by omega)
    · exact h2 (of_decide_eq_true h)
  case waitEvent ev inv =>
    simp [appendedInstr] at h
    obtain ⟨h1, rfl⟩ := h
    simp only [encodeOp, finOfNat_eq h1]
    rw [if_neg (by omega)]
  case flushPeriph ev =>
    simp [appendedInstr] at h
    obtain ⟨h1, rfl⟩ := h
    simp only [encodeOp, finOfNat_eq h1]
    rw [if_neg (by omega)]
  case go cn addr ns =>
    simp [appendedInstr] at h
    obtain ⟨h1, rfl⟩ := h
    simp only [encodeOp, finOfNat_eq h1]
    rw [if_neg (by omega)]
  all_goals
    simp [appendedInstr] at h
  all_goals
    subst h
    rfl

/-! ## Commands on buffers (R404, R406) -/

/-- An encoder command on a live buffer that is not attached. -/
theorem cmdInst_live {s : State} {h : Nat} {b : Buffer} (hb : bufGet s.buffers h = some b)
    (ha : s.attached h = false) (op : EncOp) :
    cmdInst (some h) op s =
      match encodeOp op b (s.bufByte b) with
      | .error e => replyStatus s e
      | .ok ed => replyStatus (s.applyEdit h b ed) .success := by
  have hf : s.findBuffer (some h) = some (h, b) := by rw [findBuffer_some, hb, Option.map_some]
  unfold cmdInst onBuffer
  rw [hf]
  exact if_neg (by rw [ha]; exact Bool.false_ne_true)

/-- A command on a live buffer that is attached is refused (R231, I28). -/
theorem onBuffer_attached {s : State} {h : Nat} {b : Buffer} (hb : bufGet s.buffers h = some b)
    (ha : s.attached h = true) (f : Nat → Buffer → Result) :
    onBuffer (some h) s f = .refused .attachedProgram := by
  simp [onBuffer, findBuffer_some, hb, ha]

/-- An edit changes its buffer's bytes and record, and nothing else. -/
theorem applyEdit_frame {s : State} {h : Nat} {b : Buffer} (hb : bufGet s.buffers h = some b) (ed : Edit) :
    onlyBuffersChange s (s.applyEdit h b ed) ∧ onlyBuffer h ed.buffer s (s.applyEdit h b ed) ∧
      (s.applyEdit h b ed).mem = applyWrites b ed.writes s.mem :=
  ⟨rfl, ⟨bufGet_bufSet_self hb, fun _ hn => bufGet_bufSet_ne hn⟩, rfl⟩

/-- The bounds a well-formed buffer gives (R101, R102, R104). -/
theorem wf_bounds {b : Buffer} (h : b.wf = true) :
    b.len < b.cap ∧ b.cap < 2 ^ 32 ∧ b.depth = b.loops.length := by
  simp only [Buffer.wf, Bool.and_eq_true, decide_eq_true_eq, beq_iff_eq] at h
  obtain ⟨⟨⟨⟨⟨⟨h1, h2⟩, h3⟩, -⟩, -⟩, -⟩, -⟩ := h
  exact ⟨h1, h2, h3⟩

end Sys2Proof.Machine
end

