-- ==== Sys2Proof/Laws/Codec.lean ====
section
/-! SUPPORT. The small facts of the encodings: byte order, the fields of the operand byte, and which iteration counts are
well formed. -/

namespace Sys2Proof

/-! ## Byte order (R25, R205) -/

/-- Reading back the four bytes of a word. -/
@[simp] theorem ofLe32_byteOf (v : Word) :
    ofLe32 (byteOf v 0) (byteOf v 1) (byteOf v 2) (byteOf v 3) = v := by
  apply BitVec.eq_of_getLsbD_eq
  intro i hi
  simp only [ofLe32, byteOf, BitVec.getLsbD_or, BitVec.getLsbD_setWidth, BitVec.getLsbD_shiftLeft,
    BitVec.getLsbD_extractLsb', hi, decide_true, Bool.true_and]
  rcases (by omega : i < 8 ∨ (8 ≤ i ∧ i < 16) ∨ (16 ≤ i ∧ i < 24) ∨ 24 ≤ i) with h | h | h | h
  · simp [h, show i < 16 by omega, show i < 24 by omega]
  · simp [show ¬ i < 8 by omega, show i - 8 < 8 by omega, show i < 16 by omega, show i < 24 by omega,
      show 8 + (i - 8) = i by omega, show i - 8 < 32 by omega]
  · simp [show ¬ i < 8 by omega, show ¬ i - 8 < 8 by omega, show ¬ i < 16 by omega,
      show i - 16 < 8 by omega, show i < 24 by omega, show 16 + (i - 16) = i by omega,
      show i - 16 < 32 by omega]
  · simp [show ¬ i < 8 by omega, show ¬ i - 8 < 8 by omega, show ¬ i - 16 < 8 by omega,
      show ¬ i < 24 by omega, show i - 24 < 8 by omega, show 24 + (i - 24) = i by omega,
      show i - 24 < 32 by omega]

/-- The four bytes of a word are those it was made of. -/
theorem byteOf_ofLe32 (b0 b1 b2 b3 : Byte) :
    byteOf (ofLe32 b0 b1 b2 b3) 0 = b0 ∧ byteOf (ofLe32 b0 b1 b2 b3) 1 = b1 ∧
      byteOf (ofLe32 b0 b1 b2 b3) 2 = b2 ∧ byteOf (ofLe32 b0 b1 b2 b3) 3 = b3 := by
  refine ⟨?_, ?_, ?_, ?_⟩ <;>
  · apply BitVec.eq_of_getLsbD_eq
    intro i hi
    simp only [ofLe32, byteOf, BitVec.getLsbD_or, BitVec.getLsbD_setWidth, BitVec.getLsbD_shiftLeft,
      BitVec.getLsbD_extractLsb']
    rcases (by omega : i = 0 ∨ i = 1 ∨ i = 2 ∨ i = 3 ∨ i = 4 ∨ i = 5 ∨ i = 6 ∨ i = 7) with
      rfl | rfl | rfl | rfl | rfl | rfl | rfl | rfl <;> simp

/-- Reading back the two bytes of a half word. -/
@[simp] theorem ofLe16_extract (v : BitVec 16) : ofLe16 (v.extractLsb' 0 8) (v.extractLsb' 8 8) = v := by
  apply BitVec.eq_of_getLsbD_eq
  intro i hi
  simp only [ofLe16, BitVec.getLsbD_or, BitVec.getLsbD_setWidth, BitVec.getLsbD_shiftLeft,
    BitVec.getLsbD_extractLsb', hi, decide_true, Bool.true_and]
  by_cases h : i < 8
  · simp [h]
  · simp [h, show i - 8 < 8 by omega, show 8 + (i - 8) = i by omega, show i - 8 < 16 by omega]

/-- The two bytes of a half word are those it was made of. -/
theorem extract_ofLe16 (b0 b1 : Byte) :
    (ofLe16 b0 b1).extractLsb' 0 8 = b0 ∧ (ofLe16 b0 b1).extractLsb' 8 8 = b1 := by
  refine ⟨?_, ?_⟩ <;>
  · apply BitVec.eq_of_getLsbD_eq
    intro i hi
    simp only [ofLe16, BitVec.getLsbD_or, BitVec.getLsbD_setWidth, BitVec.getLsbD_shiftLeft,
      BitVec.getLsbD_extractLsb']
    rcases (by omega : i = 0 ∨ i = 1 ∨ i = 2 ∨ i = 3 ∨ i = 4 ∨ i = 5 ∨ i = 6 ∨ i = 7) with
      rfl | rfl | rfl | rfl | rfl | rfl | rfl | rfl <;> simp

/-! ## The operand byte (R303, R316, R317) -/

/-- A number in `b1[7:3]` is read back, and leaves `b1[2:0]` zero. -/
theorem numByte_fields (n : Fin 32) :
    (numByte n).extractLsb' 0 3 = 0#3 ∧ fieldNum (numByte n) = n := by
  revert n
  decide

/-- An operand byte with `b1[2:0] = 0` is the byte of its number. -/
theorem numByte_fieldNum (b : Byte) : b.extractLsb' 0 3 = 0#3 → numByte (fieldNum b) = b := by
  revert b
  decide

/-- A DMAWFE's operand byte is read back (R316). -/
theorem wfeByte_fields (n : Fin 32) (inv : Bool) :
    (numByte n ||| (if inv then 0x02 else 0x00)) &&& 0x05#8 = 0 ∧
      fieldNum (numByte n ||| (if inv then 0x02 else 0x00)) = n ∧
      (numByte n ||| (if inv then 0x02 else 0x00)).getLsbD 1 = inv := by
  revert n inv
  decide

/-- A DMAWFE's operand byte is the byte of its fields. -/
theorem wfeByte_of_fields (b : Byte) : b &&& 0x05#8 = 0 →
    numByte (fieldNum b) ||| (if b.getLsbD 1 then 0x02 else 0x00) = b := by
  revert b
  decide

/-- A channel in `b1[2:0]` is read back, and leaves `b1[7:3]` zero (R303). -/
theorem chanByte_fields (n : Fin 8) :
    (BitVec.ofNat 8 n.val).extractLsb' 3 5 = 0#5 ∧ fieldChan (BitVec.ofNat 8 n.val) = n := by
  revert n
  decide

/-- An operand byte with `b1[7:3] = 0` is the byte of its channel. -/
theorem chanByte_fieldChan (b : Byte) : b.extractLsb' 3 5 = 0#5 →
    BitVec.ofNat 8 (fieldChan b).val = b := by
  revert b
  decide

/-! ## Well-formedness (R314) -/

/-- The iteration counts of a well-formed DMALP. -/
theorem wellFormed_dmalp (c : LoopCtr) (iter : Nat) :
    (Instr.dmalp c iter).wellFormed = true ↔ 1 ≤ iter ∧ iter ≤ 256 := by
  exact ⟨fun h => of_decide_eq_true h, fun h => decide_eq_true h⟩

/-- The iteration byte of a well-formed DMALP is one less than its count. -/
theorem iterByte_toNat {iter : Nat} (h : iter ≤ 256) (h1 : 1 ≤ iter) :
    (BitVec.ofNat 8 (iter - 1)).toNat = iter - 1 := by
  simp
  omega

end Sys2Proof
end

