-- ==== Sys2Proof/Laws/Contexts.lean ====
section
/-! SUPPORT. What the shared operations of the context commands do: the checks of R602, the register accesses, one issue
(R700), and the reconciliation of one channel (R621). -/

namespace Sys2Proof.Machine

/-! ## The checks of R602 -/

/-- A command on an initialised context. -/
theorem onContext_ready {s : State} {c : Context} (hc : s.ctx = some c) (hi : c.initialised = true)
    (f : Context → CtxResult) : onContext .ctx s f = andThen (f c) putContext := by
  simp [onContext, hc, hi]

/-- A command without a context (R810). -/
theorem onContext_null {s : State} {cr : CtxRef} (h : cr = .null ∨ s.ctx = none) (f : Context → CtxResult) :
    onContext cr s f = replyStatus s .nullptr := by
  cases cr
  · rfl
  · simp [onContext, show s.ctx = none by simpa using h]

/-- A command on an uninitialised context (R810). -/
theorem onContext_notReady {s : State} {c : Context} (hc : s.ctx = some c) (hi : c.initialised = false)
    (f : Context → CtxResult) : onContext .ctx s f = replyStatus s .notReady := by
  simp [onContext, hc, hi]

/-- A command on one channel of an initialised context. -/
theorem onCtxChannel_ready {s : State} {c : Context} (hc : s.ctx = some c) (hi : c.initialised = true)
    (ch : Fin 8) (f : Fin 8 → Context → CtxResult) :
    onCtxChannel .ctx ch.val s f = andThen (f ch c) putContext := by
  rw [onCtxChannel, onContext_ready hc hi]
  simp [Config.numChannels]

/-- A context command that answers without a change. -/
theorem putContext_same {s : State} {c : Context} (hc : s.ctx = some c) (st : Status) (v : Word) :
    andThen (ctxReply c s st v) putContext = reply s st v := by
  cases s
  cases hc
  rfl

/-- A command on a channel that does not exist (R602, R810). -/
theorem onCtxChannel_range {s : State} {c : Context} (hc : s.ctx = some c) (hi : c.initialised = true)
    {ch : Nat} (h : 7 < ch) (f : Fin 8 → Context → CtxResult) :
    onCtxChannel .ctx ch s f = replyStatus s .range := by
  have h' : ¬ ch < Config.numChannels := by
    show ¬ ch < 8
    omega
  rw [onCtxChannel, onContext_ready hc hi, dif_neg h', putContext_same hc]
  rfl

/-- A context command that answers. -/
theorem putContext_reply (s : State) (c : Context) (st : Status) (v : Word) :
    andThen (ctxReply c s st v) putContext = reply { s with ctx := some c } st v := rfl

/-! ## Register accesses (R161) -/

/-- With nothing for the environment to do, a register access sees the state as it is. -/
@[simp] theorem gap_nil {s : State} (h : s.gaps = []) : s.gap = s := by
  simp [State.gap, h]

/-- Every register that can be read is found at its own offset, below the block's size, in its region (R140,
R141). -/
theorem rdRegs_find (r : RdReg) :
    rdRegs.find? (fun q => q.offset == r.offset) = some r ∧ r.offset < Config.regBlockBytes ∧
      r.offset % 4 = 0 := by
  cases r
  case ftr n => revert n; decide
  case csr n => revert n; decide
  case cpc n => revert n; decide
  case sar n => revert n; decide
  case dar n => revert n; decide
  case ccr n => revert n; decide
  case lc0 n => revert n; decide
  case lc1 n => revert n; decide
  case cr n => revert n; decide
  all_goals decide

/-- Every register that can be written is found at its own offset, below the block's size (R140, R141). -/
theorem wrRegs_find (r : WrReg) :
    wrRegs.find? (fun q => q.offset == r.offset) = some r ∧ r.offset < Config.regBlockBytes := by
  cases r <;> decide

/-- An offset of the block, reached from its base. -/
theorem blockOffset_base (base : Word) {off : Nat} (h : off < Config.regBlockBytes) :
    blockOffset base (base + BitVec.ofNat 32 off) = some off := by
  have h' : off < 4096 := h
  have e : base + BitVec.ofNat 32 off - base = BitVec.ofNat 32 off := by
    rw [BitVec.add_comm, BitVec.add_sub_cancel]
  have e' : (BitVec.ofNat 32 off).toNat = off := by
    rw [BitVec.toNat_ofNat]
    omega
  simp only [blockOffset, e, e', h, if_true]

/-- The register space at a register's address reads the register (R140, R141). -/
@[simp] theorem spaceRead_reg (s : State) (base : Word) (r : RdReg) :
    s.spaceRead base (base + BitVec.ofNat 32 r.offset) = s.engine.read r := by
  simp only [State.spaceRead, blockOffset_base base (rdRegs_find r).2.1, Option.bind_some, (rdRegs_find r).1]

/-- The register space at the address of DBGSTATUS says whether the debug interface is busy (R155). -/
@[simp] theorem dbgBusy_eq (s : State) (base : Word) : s.dbgBusy base = s.engine.dbgstatus.getLsbD 0 := by
  rw [State.dbgBusy, spaceRead_reg]
  rfl

/-- A write at a register's address writes the register, but for DBGCMD (R140, R141). -/
theorem spaceWrite_reg (s : State) (base : Word) {r : WrReg} (hr : r ≠ .dbgcmd) (v : Word) :
    s.spaceWrite base (base + BitVec.ofNat 32 r.offset) v = { s with engine := s.engine.write r v } := by
  simp only [State.spaceWrite, blockOffset_base base (wrRegs_find r).2, Option.bind_some, (wrRegs_find r).1]

/-- The write of 0 to DBGCMD triggers the debug instruction (R156, R216). -/
theorem spaceWrite_dbgcmd (s : State) (base : Word) :
    s.spaceWrite base (base + BitVec.ofNat 32 (WrReg.offset .dbgcmd)) 0 = triggerDebug s := by
  simp only [State.spaceWrite, blockOffset_base base (wrRegs_find .dbgcmd).2, Option.bind_some,
    (wrRegs_find .dbgcmd).1]
  rfl

/-- A register read gives what the environment leaves in the register (R161). -/
theorem regRead_eq (base : Word) (r : RdReg) (s : State) : regRead base r s = (s.gap, s.gap.engine.read r) := by
  simp only [regRead, spaceRead_reg]

/-- A register read with nothing for the environment to do. -/
theorem regRead_quiet {s : State} (h : s.gaps = []) (base : Word) (r : RdReg) :
    regRead base r s = (s, s.engine.read r) := by
  rw [regRead_eq, gap_nil h]

/-- A register write with nothing for the environment to do. -/
theorem regWrite_quiet {s : State} (h : s.gaps = []) (base : Word) {r : WrReg} (hr : r ≠ .dbgcmd) (v : Word) :
    regWrite base r v s = { s with engine := s.engine.write r v } := by
  rw [regWrite, gap_nil h, spaceWrite_reg s base hr]

/-! ## Reconciliation (R621) -/

/-- `ReconcileCh` with nothing for the environment to do: the state is as before, and the channel's state and
fault are what its registers say. -/
theorem reconcileCh_quiet {s : State} (h : s.gaps = []) (fsrc : Word) (ch : Fin 8) (c : Context) :
    reconcileCh fsrc ch c s =
      (if c.chState[ch] = .free ∨ c.chState[ch] = .aborted then c
      else if c.chState[ch] = .busy ∧ fsrc.getLsbD ch.val = true then
        { c with
          lastFault := c.lastFault.set ch (s.engine.read (.ftr ch))
          errAck := c.errAck.set ch false
          chState := c.chState.set ch .error }
      else if c.abortPending = true ∧ statusOf (s.engine.read (.csr ch)) = stStopped then
        { c with chState := c.chState.set ch .aborted }
      else if c.chState[ch] = .busy ∧ statusOf (s.engine.read (.csr ch)) = stStopped then
        { c with chState := c.chState.set ch .done }
      else c, s) := by
  unfold reconcileCh
  simp only [regRead_quiet h c.base]
  split
  · rfl
  · split
    · rfl
    · simp only [beq_iff_eq, Bool.and_eq_true]
      split
      · rfl
      · split <;> rfl

/-- The state `ReconcileCh` gives a channel, with nothing for the environment to do (R621). -/
def reconciledState (s : State) (fsrc : Word) (c : Context) (ch : Fin 8) : ChState :=
  let st := c.chState[ch]
  if st = .free ∨ st = .aborted then st
  else if st = .busy ∧ fsrc.getLsbD ch.val = true then .error
  else if c.abortPending = true ∧ statusOf (s.engine.read (.csr ch)) = stStopped then .aborted
  else if st = .busy ∧ statusOf (s.engine.read (.csr ch)) = stStopped then .done
  else st

/-- The fields of the context after `ReconcileCh`, with nothing for the environment to do. -/
theorem reconcileCh_fields {s : State} (h : s.gaps = []) (fsrc : Word) (ch : Fin 8) (c : Context) :
    let r := reconcileCh fsrc ch c s
    let faults := c.chState[ch] = .busy ∧ fsrc.getLsbD ch.val = true
    r.2 = s ∧ r.1.pending = c.pending ∧ r.1.mgrFault = c.mgrFault ∧ r.1.abortPending = c.abortPending ∧
      r.1.initialised = c.initialised ∧ r.1.dbg = c.dbg ∧
      r.1.chState = c.chState.set ch (reconciledState s fsrc c ch) ∧
      r.1.lastFault = c.lastFault.set ch (if faults then s.engine.read (.ftr ch) else c.lastFault[ch]) ∧
      r.1.errAck = c.errAck.set ch (if faults then false else c.errAck[ch]) := by
  simp only
  rw [reconcileCh_quiet h]
  refine ⟨rfl, ?_⟩
  simp only
  unfold reconciledState
  simp only
  by_cases a1 : c.chState[ch] = .free ∨ c.chState[ch] = .aborted
  · have : ¬ c.chState[ch] = .busy := by rcases a1 with a | a <;> simp [a]
    simp only [if_pos a1, this]
    simp
  · simp only [if_neg a1]
    by_cases a2 : c.chState[ch] = .busy ∧ fsrc.getLsbD ch.val = true
    · simp only [if_pos a2]; simp
    · simp only [if_neg a2]
      by_cases a3 : c.abortPending = true ∧ statusOf (s.engine.read (.csr ch)) = stStopped
      · simp only [if_pos a3]; simp
      · simp only [if_neg a3]
        by_cases a4 : c.chState[ch] = .busy ∧ statusOf (s.engine.read (.csr ch)) = stStopped
        · simp only [if_pos a4]; simp
        · simp only [if_neg a4]; simp

/-- The fields of the context after `ReconcileCh` for several channels, with nothing for the environment to do. -/
theorem reconcileChs_fields {s : State} (h : s.gaps = []) (fsrc : Word) (l : List (Fin 8)) (hl : l.Nodup)
    (c : Context) :
    let r := reconcileChs fsrc l c s
    r.2 = s ∧ r.1.pending = c.pending ∧ r.1.mgrFault = c.mgrFault ∧ r.1.abortPending = c.abortPending ∧
      r.1.initialised = c.initialised ∧ r.1.dbg = c.dbg ∧
      ∀ k : Fin 8,
        r.1.chState[k] = (if k ∈ l then reconciledState s fsrc c k else c.chState[k]) ∧
        r.1.lastFault[k] = (if k ∈ l ∧ c.chState[k] = .busy ∧ fsrc.getLsbD k.val = true
          then s.engine.read (.ftr k) else c.lastFault[k]) ∧
        r.1.errAck[k] = (if k ∈ l ∧ c.chState[k] = .busy ∧ fsrc.getLsbD k.val = true
          then false else c.errAck[k]) := by
  induction l generalizing c with
  | nil => simp [reconcileChs]
  | cons a l ih =>
    obtain ⟨o1, o2, o3, o4, o5, o6, o7, o8, o9⟩ := reconcileCh_fields h fsrc a c
    rw [List.nodup_cons] at hl
    have e : reconcileChs fsrc (a :: l) c s = reconcileChs fsrc l (reconcileCh fsrc a c s).1 s := by
      simp only [reconcileChs]
      rw [o1]
    obtain ⟨i1, i2, i3, i4, i5, i6, i7⟩ := ih hl.2 (reconcileCh fsrc a c s).1
    rw [← e] at i1 i2 i3 i4 i5 i6 i7
    refine ⟨i1, by rw [i2, o2], by rw [i3, o3], by rw [i4, o4], by rw [i5, o5], by rw [i6, o6], fun k => ?_⟩
    obtain ⟨j1, j2, j3⟩ := i7 k
    rw [j1, j2, j3, o8, o9]
    have ecs : ∀ k : Fin 8, (reconcileCh fsrc a c s).1.chState[k] =
        if k = a then reconciledState s fsrc c a else c.chState[k] := by
      intro k
      rw [o7]
      by_cases x : k = a
      · subst x
        simp
      · have e' : ¬ (a : Nat) = k := fun y => x (Fin.ext y.symm)
        simp [x, e']
    simp only [reconciledState, ecs, o4]
    by_cases x : k = a
    · subst x
      simp [hl.1]
    · have e' : ¬ (a : Nat) = k := fun y => x (Fin.ext y.symm)
      simp [x, e']

/-- `ClearAbortPending` writes the pending abort, and nothing else (R656). -/
theorem clearAbortPending_eq (c : Context) :
    clearAbortPending c = { c with abortPending := c.abortPending && !allChannels.all fun ch =>
      c.chState[ch] == .free || c.chState[ch] == .aborted } := by
  unfold clearAbortPending
  generalize (allChannels.all fun ch => c.chState[ch] == .free || c.chState[ch] == .aborted) = b
  obtain ⟨_, _, _, _, _, _, _, _, ap, _, _⟩ := c
  cases ap <;> cases b <;> rfl

/-- `Reconcile` with nothing for the environment to do (R620): the state is as before. -/
theorem reconcile_quiet {s : State} (h : s.gaps = []) (c : Context) :
    reconcile c s =
      (clearAbortPending (reconcileChs s.engine.fsrc allChannels
        { c with mgrFault := if s.engine.fsrd.getLsbD 0 then s.engine.ftrd else 0 } s).1, s) := by
  have h' := (reconcileChs_fields h s.engine.fsrc allChannels (by decide)
    { c with mgrFault := if s.engine.fsrd.getLsbD 0 then s.engine.ftrd else 0 }).1
  simp only [reconcile, regRead_quiet h c.base, Engine.read]
  exact congrArg (Prod.mk _) h'

/-! ## Forced abort (R653) -/

/-- A forced abort leaves Free channels and makes every other one Aborted. -/
@[simp] theorem abortStates_getElem (v : Vector ChState 8) (ch : Fin 8) :
    (abortStates v)[ch] = if v[ch] = .free then .free else .aborted := by
  simp [abortStates]

/-! ## Release (R640) -/

/-- Releasing a channel with a live program frees the program if it is marked so, keeps the other buffers, and
makes the channel Free. -/
theorem release_live {s : State} {c : Context} {ch : Fin 8} {h : Nat} {b : Buffer} (hw : s.buffersWf = true)
    (hp : c.pending[ch] = some h) (hb : bufGet s.buffers h = some b) :
    ∃ l, release ch c s =
      ({ c with
        pending := c.pending.set ch none
        lastFault := c.lastFault.set ch 0
        errAck := c.errAck.set ch false
        chState := c.chState.set ch .free }, { s with buffers := l }) ∧
      bufGet l h = (if b.autoFree then none else some b) ∧
      ∀ h', h' ≠ h → bufGet l h' = bufGet s.buffers h' := by
  simp only [State.buffersWf, Bool.and_eq_true] at hw
  simp only [release, hp, findBuffer_some, hb, Option.map_some]
  cases e : b.autoFree
  · exact ⟨s.buffers, rfl, by simp [hb], fun _ _ => rfl⟩
  · exact ⟨bufErase s.buffers h, rfl, by simp [bufGet_bufErase_self hw.1], fun _ hn => bufGet_bufErase_ne hn⟩

end Sys2Proof.Machine
end

