-- ==== Sys2Proof/Laws/Waits.lean ====
section
/-! SUPPORT. What waiting for a peripheral does (R432; log 19), and the fields of the status words it leaves. -/

namespace Sys2Proof.Machine

/-- The CSR with the marks of a wait for a peripheral (R152). -/
def wfpMarks (csr : Word) (type : WfpType) : Word :=
  putBit (putBit csr wfpBurstBit (type == .burst)) wfpPeriphBit (type == .periph)

/-- A wait whose peripheral raises a request that fits takes it and goes on. -/
theorem waitPeriphOp_takes {s : State} {n : Fin 8} (h : s.runsOn n) {type : WfpType} {p : Fin 32}
    {ty : ReqType} (hp : s.periphAllowed n p = true) (hm : wfpMatch type s.engine.periph[p] = some ty) :
    waitPeriphOp type p n s =
      { s with engine := { s.engine with periph := s.engine.periph.set p none } }.setChan n { s.chan n with
        reqType := ty
        csr := withStatus (wfpMarks (s.chan n).csr type) stExecuting
        pc := (s.chan n).pc + 2 } := by
  simp only [waitPeriphOp, hp, hm, State.markWfp, setChan_chan_self, setChan_setChan, Bool.not_true,
    Bool.false_eq_true, if_false]
  rw [retire_channel (n := n) (by exact h)]
  simp [State.chan, State.setChan, wfpMarks]

/-- A wait whose peripheral raises no request that fits shows that it waits, and does nothing else. -/
theorem waitPeriphOp_waits {s : State} {n : Fin 8} (h : s.runsOn n) {type : WfpType} {p : Fin 32}
    (hp : s.periphAllowed n p = true) (hm : wfpMatch type s.engine.periph[p] = none) :
    waitPeriphOp type p n s = s.setChan n { s.chan n with
      csr := withWakeup (withStatus (wfpMarks (s.chan n).csr type) stWaitPeriph) p } := by
  simp only [waitPeriphOp, hp, hm, State.markWfp, Bool.not_true, Bool.false_eq_true, if_false]
  rw [waitFor_channel (by exact runsOn_origin h), setChan_chan_self, setChan_setChan]
  rfl

/-- The fields of a marked CSR: the form, and the bits around it as they were. -/
theorem wfpMarks_fields (csr : Word) (type : WfpType) :
    (wfpMarks csr type).getLsbD 14 = (type == .burst) ∧
      (wfpMarks csr type).getLsbD 15 = (type == .periph) ∧
      ∀ i, i ≠ 14 → i ≠ 15 → (wfpMarks csr type).getLsbD i = csr.getLsbD i := by
  refine ⟨?_, ?_, fun i h14 h15 => ?_⟩ <;>
    rw [wfpMarks, putBit_bit _ _ _ _ (by decide), putBit_bit _ _ _ _ (by decide)]
  · rfl
  · rfl
  · rw [if_neg (by exact h15), if_neg (by exact h14)]

end Sys2Proof.Machine
end

