-- ==== Sys2Proof/Tests/Slice0.lean ====
section
/-! SUPPORT. The model's own tests: the WellFormed smoke, a word of every instruction written out from 30_encoding.md,
small vectors of 95_test_vectors.md, and for every statement with hypotheses a state that meets them. -/

namespace Sys2Proof.Tests

open Sys2Proof Sys2Proof.Machine

/-! ## WellFormed -/

/-- An iteration count outside 1..256 is refused (R13, R314). -/
theorem test_wellFormed_refuses :
    (Instr.dmalp .lc0 0).wellFormed = false ∧ (Instr.dmalp .lc1 257).wellFormed = false ∧
      (Instr.dmalp .lc0 1).wellFormed = true ∧ (Instr.dmalp .lc1 256).wellFormed = true := by decide

/-! ## One word of every instruction, from the tables of 30_encoding.md (R301..R318, R335, R340) -/

/-- The one-byte instructions (R335). -/
theorem test_decode_f1 :
    decodeWhole [0x00] = some .dmaend ∧ decodeWhole [0x01] = some .dmakill ∧
    decodeWhole [0x04] = some .dmald ∧ decodeWhole [0x05] = some .dmalds ∧
    decodeWhole [0x07] = some .dmaldb ∧ decodeWhole [0x08] = some .dmast ∧
    decodeWhole [0x09] = some .dmasts ∧ decodeWhole [0x0B] = some .dmastb ∧
    decodeWhole [0x0C] = some .dmastz ∧ decodeWhole [0x12] = some .dmarmb ∧
    decodeWhole [0x13] = some .dmawmb ∧ decodeWhole [0x18] = some .dmanop := by decide

/-- The loop instructions (R313..R315; E12, E16, E18, E19). -/
theorem test_decode_loops :
    decodeWhole [0x22, 0xFF] = some (.dmalp .lc1 256) ∧ decodeWhole [0x20, 0x00] = some (.dmalp .lc0 1) ∧
    decodeWhole [0x3C, 0x02] = some (.dmalpend .lc1 2) ∧ decodeWhole [0x38, 0xFF] = some (.dmalpend .lc0 255) ∧
    decodeWhole [0x39, 0x00] = some (.dmalpends .lc0 0) ∧ decodeWhole [0x3F, 0x00] = some (.dmalpendb .lc1 0) := by
  decide

/-- The event and peripheral instructions (R316..R318; E25, E27, E29, E31). -/
theorem test_decode_events :
    decodeWhole [0x34, 0xF8] = some (.dmasev 31) ∧ decodeWhole [0x36, 0xFA] = some (.dmawfe 31 true) ∧
    decodeWhole [0x36, 0x40] = some (.dmawfe 8 false) ∧ decodeWhole [0x30, 0x00] = some (.dmawfpSingle 0) ∧
    decodeWhole [0x32, 0x20] = some (.dmawfpBurst 4) ∧ decodeWhole [0x31, 0xF8] = some (.dmawfpPeriph 31) ∧
    decodeWhole [0x35, 0xF8] = some (.dmaflushp 31) := by decide

/-- The six-byte instructions (R302, R303; E1, E2, E3, E32). -/
theorem test_decode_f6 :
    decodeWhole [0xBC, 0x00, 0x03, 0x10, 0x00, 0x00] = some (.dmamov .sar 0x00001003) ∧
    decodeWhole [0xBC, 0x01, 0x85, 0x40, 0x21, 0x00] = some (.dmamov .ccr 0x00214085) ∧
    decodeWhole [0xBC, 0x02, 0x00, 0x20, 0x00, 0x00] = some (.dmamov .dar 0x00002000) ∧
    decodeWhole [0xA0, 0x00, 0x00, 0x00, 0x10, 0x00] = some (.dmago false 0 0x00100000) ∧
    decodeWhole [0xA2, 0x07, 0xEF, 0xBE, 0xAD, 0xDE] = some (.dmago true 7 0xDEADBEEF) := by decide

/-- The excluded instructions (R340). -/
theorem test_decode_excluded :
    decodeWhole [0x54, 0x34, 0x12] = some (.dmaaddh .sar 0x1234) ∧
    decodeWhole [0x5E, 0xFF, 0x00] = some (.dmaadnh .dar 0x00FF) ∧
    decodeWhole [0x25, 0x08] = some (.dmaldps 1) ∧ decodeWhole [0x27, 0x08] = some (.dmaldpb 1) ∧
    decodeWhole [0x29, 0xF8] = some (.dmastps 31) ∧ decodeWhole [0x2B, 0x00] = some (.dmastpb 0) ∧
    decodeWhole [0x2C, 0x04] = some (.dmalpfe .lc1 4) := by decide

/-- Reserved bytes are rejected by name (R312, R341, R342). -/
theorem test_decode_reserved :
    decode [0x34, 0x39] = .error (.reservedOperand 0x34 0x39) ∧
    decode [0x36, 0x04] = .error (.reservedOperand 0x36 0x04) ∧
    decode [0xA0, 0x08, 0, 0, 0, 0] = .error (.reservedOperand 0xA0 0x08) ∧
    decode [0x33, 0x00] = .error (.undefinedOpcode 0x33) ∧ decode [0xBC, 0x00] = .error .truncated := by
  decide

/-- The opcode table's numbers, first byte most significant. -/
theorem test_decodeTableWord :
    decodeTableWord 8 0x18 = some .dmanop ∧ decodeTableWord 16 0x3438 = some (.dmasev 7) ∧
    decodeTableWord 48 0xBC0003100000 = some (.dmamov .sar 0x1003) ∧ decodeTableWord 8 0x06 = none := by decide

/-! ## States for the tests -/

/-- A channel that executes at 0x100. -/
def running : Channel := { Channel.reset with csr := 0x1, pc := 0x100 }

/-- The machine after reset but for channel 0, which is the active thread. -/
def withChan (c : Channel) : State := State.reset.setChan 0 c

/-- The machine after reset with another platform. -/
def onPlatform (p : Platform) (c : Channel) : State := { withChan c with platform := p }

/-- A state with another security configuration. -/
def secured (c : Security) (s : State) : State := { s with engine := { s.engine with security := c } }

/-- The machine after reset with the manager active. -/
def asManager (o : Origin) : State := { State.reset with active := { thread := .manager, origin := o } }

/-- The state a step leaves. -/
def after (o : Host.Outcome State Fault Refusal) : State := leftIn o State.reset

/-- Memory with the given bytes from an address on. -/
def bytesAt (a : Word) (bs : List Byte) : Memory := memWrites [] ((span a bs.length).zip bs)

/-- A program buffer of one DMAEND at 0x200. -/
def program : Buffer where
  cap := 20
  len := 1
  depth := 0
  ctrMask := 0
  loops := []
  nonSecure := true
  autoFree := true
  base := 0x200
  loose := false

/-- A context of word size 4 whose channel 2 is in the given state with program 5. -/
def context (st : ChState) : Context :=
  let c := newContext 0xFFE01000 4 (newDebugBuffer 0x900)
  if st = .free then c
  else { c with chState := c.chState.set 2 st, pending := c.pending.set 2 (some 5) }

/-- The machine after reset with a context and program 5. -/
def withContext (c : Context) : State :=
  { State.reset with ctx := some c, buffers := [(5, program)], nextHandle := 6 }

/-- An environment that obtains storage and does nothing. -/
def env : Env where
  gaps := []
  allocOk := true
  allocBase := 0x00100000

/-- The default parameters of word size 4 (R112). -/
def params : XferParams := defaultParams (context .free) 0

/-! ## One step of the engine -/

/-- A coherent machine runs the instruction of a table word first (log 2): DMAMOV DAR. -/
theorem test_step_runs_word :
    ((after (step (State.reset.withFetchWord 48 0xBC0200200000))).chan 0).dar = 0x2000 ∧
      ((after (step (State.reset.withFetchWord 48 0xBC0200200000))).chan 0).pc = 6 := by decide

/-- PR2's burst, 4 beats of 4 bytes: DMALD pushes 16 bytes and moves SAR (R561). -/
theorem test_dmald :
    let s := { withChan { running with sar := 0x4000, ccr := 0x000D4035 } with mem := bytesAt 0x4000 [1, 2, 3] }
    let t := (after (exec .dmald s)).chan 0
    t.sar = 0x4010 ∧ t.pc = 0x101 ∧ t.fifo = [1, 2, 3, 0, 0, 0, 0, 0, 0, 0, 0, 0, 0, 0, 0, 0] := by decide

/-- A fixed source reads the same beat again (R561). -/
theorem test_dmald_fixed :
    let s := { withChan { running with sar := 0x4000, ccr := 0x00000012 } with mem := bytesAt 0x4000 [1, 2, 3] }
    let t := (after (exec .dmald s)).chan 0
    t.sar = 0x4000 ∧ t.fifo = [1, 2, 1, 2] := by decide

/-- SWAP32 of S9d: each four bytes are stored in reverse (R207). -/
theorem test_dmast_swap :
    let t := after (exec .dmast (withChan { running with
      dar := 0x2000, ccr := 0x20054015, fifo := [0x11, 0x22, 0x33, 0x44, 0x55, 0x66, 0x77, 0x88] }))
    t.mem = bytesAt 0x2000 [0x44, 0x33, 0x22, 0x11, 0x88, 0x77, 0x66, 0x55] ∧
      (t.chan 0).dar = 0x2008 ∧ (t.chan 0).fifo = [] := by decide

/-- Too few bytes: st_data_unavailable, bit 13 (R561). -/
theorem test_dmast_fault :
    let t := after (exec .dmast (withChan { running with ccr := 0x00054015, fifo := [0x11] }))
    (t.chan 0).ftr = 0x2000 ∧ statusOf (t.chan 0).csr = 0xF#4 ∧ t.engine.fsrc = 1 ∧ (t.chan 0).pc = 0x100 := by
  decide

/-- S6's suffix store: one zero byte (R413, R561). -/
theorem test_dmastz :
    let s := { withChan { running with dar := 0x2002, ccr := 0x00004001, fifo := [9] } with
      mem := bytesAt 0x2001 [7, 7, 7] }
    let t := after (exec .dmastz s)
    t.mem = bytesAt 0x2001 [7, 0, 7] ∧ (t.chan 0).fifo = [9] := by decide

/-- Conditional forms look at the request type (R305). -/
theorem test_conditional :
    let s := withChan { running with ccr := 1, reqType := .burst }
    ((after (exec .dmalds s)).chan 0).fifo = [] ∧ ((after (exec .dmaldb s)).chan 0).fifo = [0] := by decide

/-- A loop of 2 (PR2: `20 01 .. 38 02`) goes back once (R314, R315). -/
theorem test_loop :
    ((after (exec (.dmalp .lc0 2) (withChan running))).chan 0).lc0 = 1 ∧
    ((after (exec (.dmalpend .lc0 2) (withChan { running with lc0 := 1 }))).chan 0).pc = 0xFE ∧
    ((after (exec (.dmalpend .lc0 2) (withChan running))).chan 0).pc = 0x102 := by decide

/-- DMASEV raises an enabled interrupt, else makes the event active where no thread waits for it (R144). -/
theorem test_dmasev :
    let s := { withChan running with engine := { (withChan running).engine with inten := 0x80 } }
    (after (exec (.dmasev 7) s)).engine.irqs = 0x80 ∧ (after (exec (.dmasev 7) s)).engine.events = 0 ∧
    (after (exec (.dmasev 6) s)).engine.events = 0x40 := by decide

/-- DMASEV of a disabled interrupt lets every thread go on that waits for the event, and no other (R144). -/
theorem test_dmasev_wakes :
    let s := ((withChan running).setChan 1 { running with csr := 0x34 }).setChan 7 { running with csr := 0x34 }
    let t := after (exec (.dmasev 3) (s.setChan 2 { running with csr := 0x44 }))
    t.engine.events = 0 ∧ ((t.chan 1).pc = 0x102 ∧ (t.chan 1).csr = 0x31) ∧
      ((t.chan 7).pc = 0x102 ∧ (t.chan 7).csr = 0x31) ∧ (t.chan 2).pc = 0x100 ∧ (t.chan 2).csr = 0x44 := by decide

/-- DMAWFE waits at its pc with the event's number in the status (R152). -/
theorem test_dmawfe_waits :
    let t := (after (exec (.dmawfe 31 true) (withChan running))).chan 0
    t.csr = 0x1F4 ∧ t.pc = 0x100 := by decide

/-- DMAWFP periph takes the type of the request (R318). -/
theorem test_dmawfp :
    let s := withChan running
    let r := { s with engine := { s.engine with periph := s.engine.periph.set 4 (some .burst) } }
    ((after (exec (.dmawfpPeriph 4) r)).chan 0).reqType = .burst ∧
    ((after (exec (.dmawfpBurst 4) s)).chan 0).csr = 0x4047 := by decide

/-- DMAGO of the manager (F2): the channel executes at the address, non-secure as asked (R711). -/
theorem test_dmago :
    let t := (after (exec (.dmago true 7 0xDEADBEEF) (asManager .debug))).chan 7
    t.pc = 0xDEADBEEF ∧ t.csr = 0x00200001 := by decide

/-- A non-secure manager may start no secure channel at power-on (R150, R830; log 29): dmago_err, bit 4. -/
theorem test_dmago_secure :
    let s : State := { asManager .memory with engine := { Engine.reset with dsr := 0x201 } }
    (after (exec (.dmago false 0 0x100) s)).engine.ftrd = 0x10 ∧
      (after (exec (.dmago true 0 0x100) s)).engine.ftrd = 0 := by decide

/-- A Faulting channel shows no other status by itself (R662); one that runs may show Faulting completing (R152,
I10) and may then fault. -/
theorem test_showStatus :
    let f := takeFaultBit fltDataReadErr (withChan running)
    let e := showStatus (.channel 0) 0xE (withChan running)
    showStatus (.channel 0) 0xE f = f ∧ statusOf (e.chan 0).csr = 0xE#4 ∧
      statusOf ((asyncFault (.channel 0) 1 e).chan 0).csr = 0xF#4 := by decide

/-- DMAKILL ends a fault (R662, R823). -/
theorem test_dmakill :
    let t := after (exec .dmakill (takeFaultBit fltDataReadErr (withChan running)))
    t.engine.fsrc = 0 ∧ (t.chan 0).csr = 0 := by decide

/-- DMAEND, DMANOP and an excluded instruction. -/
theorem test_control :
    ((after (exec .dmaend (withChan running))).chan 0).csr = 0 ∧
    ((after (exec .dmanop (withChan running))).chan 0).pc = 0x101 ∧
    ((after (exec (.dmaaddh .sar 1) (withChan running))).chan 0).ftr = 1 := by decide

/-- An excluded first byte is undef_instr whatever its second byte (R340, I5); a reserved bit of a DMASEV is
operand_invalid (R342; log 33). -/
theorem test_excluded_reserved :
    ((after (runBytes [0x25, 0x09] (withChan running))).chan 0).ftr = 1 ∧
      ((after (runBytes [0x34, 0x39] (withChan running))).chan 0).ftr = 2 := by decide

/-- The register block stands at its base (R140, R141): DBGCMD at offset 0xD04 triggers, and the same offset of
another block is none of its addresses. -/
theorem test_block :
    (State.reset.spaceWrite 0xFFE01000 0xFFE01D04 0).engine.dbgstatus = 1 ∧
      State.reset.spaceWrite 0xFFE01000 0xFFE02D04 0 = State.reset ∧
      (onPlatform Config.defaultPlatform running).spaceRead 0xFFE01000 0xFFE01104 = 0x100 := by decide

/-- DMAWMB completes the queued writes (R225). -/
theorem test_dmawmb :
    (after (exec .dmawmb (withChan { running with writes := [(0x10, 1), (0x10, 2)] }))).mem = [(0x10, 2)] := by
  decide

/-! ## DPES -/

/-- What an encoder command leaves of a fresh buffer of a capacity, as its status and bytes. -/
def encoded (cap : Nat) (ops : List EncOp) : List Status × List Byte :=
  let s : State := { State.reset with buffers := [(1, freshBuffer cap 0x3000)], nextHandle := 2 }
  let r := ops.foldl (fun (p : State × List Status) op =>
    match cmdInst (some 1) op p.1 with
    | .next (t, r) => (t, p.2 ++ [r.status])
    | _ => p) (s, [])
  match bufGet r.1.buffers 1 with
  | none => (r.2, [])
  | some b => (r.2, (List.range b.len).map fun i => r.1.bufByte b i)

/-- E16: nested loops close innermost first. -/
theorem test_E16 :
    encoded 64 [.loopStart 0 4, .loopStart 1 2, .load (some .always), .store (some .always),
      .loopEnd (some .always), .loopEnd (some .always)] =
    (List.replicate 6 .success, [0x20, 0x03, 0x22, 0x01, 0x04, 0x08, 0x3C, 0x02, 0x38, 0x06]) := by decide

/-- E22 and E23: a wrapped loop, and the one that has no room. -/
theorem test_E22_E23 :
    encoded 64 [.load (some .always), .store (some .always), .chLoop 1 3 2] =
      (List.replicate 3 .success, [0x22, 0x02, 0x04, 0x08, 0x3C, 0x02]) ∧
    encoded 6 [.load (some .always), .store (some .always), .chLoop 0 2 2] =
      ([.success, .success, .noSpace], [0x04, 0x08]) := by decide

/-- What the synthesizer makes of a transfer with the default parameters changed as given. -/
def synthesized (R W L : Word) (p : XferParams) : Option (List Byte) :=
  let chk : Chunk := { readAddr := R, writeAddr := W, length := L, isLast := true, params := none }
  match synthesize env chk p State.reset with
  | (t, .ok (P, _)) => some ((List.range P.len).map fun i => t.bufByte P i)
  | _ => none

/-- V-SYN-1: the end-to-end scenario of the source. -/
theorem test_V_SYN_1 :
    synthesized 0x1003 0x2000 37 params = some [
      0xBC, 0x00, 0x03, 0x10, 0x00, 0x00, 0xBC, 0x02, 0x00, 0x20, 0x00, 0x00, 0xBC, 0x01, 0x01, 0x40, 0x00, 0x00,
      0x04, 0xBC, 0x01, 0x85, 0x40, 0x21, 0x00, 0x04, 0x08, 0xBC, 0x01, 0x01, 0x40, 0x00, 0x00, 0x08, 0x13, 0x34,
      0x00, 0x00] := by decide

/-- S5: ten single bursts, looped. -/
theorem test_S5 :
    synthesized 0x1000 0x2000 40 { params with burstEnable := false } = some [
      0xBC, 0x00, 0x00, 0x10, 0x00, 0x00, 0xBC, 0x02, 0x00, 0x20, 0x00, 0x00, 0xBC, 0x01, 0x05, 0x40, 0x01, 0x00,
      0x22, 0x09, 0x04, 0x08, 0x3C, 0x02, 0x13, 0x34, 0x00, 0x00] := by decide

/-- What a command leaves and answers. -/
def replied (r : Result) : State × Response :=
  match r with
  | .next p => p
  | _ => (State.reset, response .invalid 0)

/-- F30: sendEvent of event 2 writes the two debug words and triggers (R713). -/
theorem test_F30 :
    let p := replied (cmdSendEvent .ctx 2 (withContext (context .free)))
    p.2.status = .success ∧ p.1.engine.dbginst0 = 0x10340000 ∧ p.1.engine.dbginst1 = 0 ∧
      p.1.engine.events = 4 := by decide

/-- F16: after a forced abort `aborted` reports and frees the channel (R638, R653). -/
theorem test_F16 :
    let t := (replied (cmdAbort .ctx (some .force) (withContext (context .ready)))).1
    let p := replied (cmdAborted .ctx t)
    p.2.payload = 4 ∧ p.1.buffers = [] := by decide

/-! ## Witnesses: for every statement with hypotheses, states and operands that meet them -/

/-- `DecodeEncode`: the least and the greatest iteration count. -/
theorem witness_DecodeEncode :
    (Instr.dmalp .lc0 1).wellFormed = true ∧ (Instr.dmalp .lc1 256).wellFormed = true := by decide

/-- `EncodeDecode`. -/
theorem witness_EncodeDecode :
    decode [0x20, 0xFF, 0x00] = .ok (.dmalp .lc0 256, [0x00]) ∧ decode [0x36, 0xFA] = .ok (.dmawfe 31 true, []) :=
  ⟨rfl, rfl⟩

/-- `StepRunsDecoded`, on a channel whose instruction's last byte is the last of the address space. -/
theorem witness_StepRunsDecoded :
    let s : State := { withChan { running with pc := 0xFFFFFFFE } with
      mem := bytesAt 0xFFFFFFFE [0x34, 0xF8], agenda := [.activity (.thread (.channel 0))] }
    s.agenda = .activity (.thread (.channel 0)) :: [] ∧ s.board.resetHeld = false ∧
    runs (s.threadStatus (.channel 0)) = true ∧ s.platform.fetchCoherent = true ∧
    s.platform.icacheMayBeStale = false ∧ (Instr.dmasev 31).wellFormed = true ∧
    s.fetchMapped (s.threadPc (.channel 0)) (encode (.dmasev 31)).length = true ∧
    ∀ k, (h : k < (encode (.dmasev 31)).length) →
      s.byteAt (s.threadPc (.channel 0) + BitVec.ofNat 32 k) = (encode (.dmasev 31))[k] := by
  refine ⟨rfl, rfl, by decide, rfl, rfl, by decide, by decide, by decide⟩

/-- `DebugRunsDecoded`: a triggered DMANOP of the manager. -/
theorem witness_DebugRunsDecoded :
    let s : State := { State.reset with
      engine := { Engine.reset with dbgPending := true, dbgstatus := 1, dbginst0 := 0x00180000 } }
    let u : State := { s with
      active := { thread := debugThread s.engine.dbginst0, origin := .debug }
      engine := { s.engine with dbgPending := false } }
    s.board.resetHeld = false ∧ s.engine.dbgPending = true ∧
    decode (debugBytes s.engine.dbginst0 s.engine.dbginst1) = .ok (.dmanop, [0, 0, 0, 0, 0]) ∧
    exec .dmanop u = .next u := ⟨rfl, rfl, rfl, rfl⟩

/-- `StepKeepsMemoryForm`, `StepKeepsBuffers` and `StepKeepsContext`: a start command on a Ready channel. -/
theorem witness_StepKeeps :
    ∃ s t : State, s.mem.wf = true ∧ s.buffersWf = true ∧ s.ctxInv = true ∧ step s = .next t :=
  ⟨{ withContext (context .ready) with
      mem := [(0x10, 1), (2 ^ 32 - 1, 2)], agenda := [.command (.startTransferCh .ctx 2) env] }, _,
    by decide, by decide, by decide, rfl⟩

/-- `DmamovWritesRegister`: the greatest swap that is not reserved, and a reserved one that is not faulted. -/
theorem witness_DmamovWritesRegister :
    (withChan running).runsOn 0 ∧ ((0x4FFFFFFF#32).extractLsb' 28 4).toNat < 5 ∧
    (onPlatform { Config.defaultPlatform with reservedSwapFaults := false } running).runsOn 0 ∧
    (onPlatform { Config.defaultPlatform with reservedSwapFaults := false } running).platform.reservedSwapFaults
      = false := ⟨rfl, by decide, rfl, rfl⟩

/-- `DmaldFillsFifo`: one byte at the last address, incrementing, on a single request; and 16 beats of 8 bytes at
a fixed address, on a burst request, into a FIFO they just fill. -/
theorem witness_DmaldFillsFifo :
    let s := withChan { running with sar := 0xFFFFFFFF, ccr := 0x1 }
    let u := onPlatform { Config.defaultPlatform with mfifoBytes := some 128 }
      { running with sar := 0xFFFFFFF8, ccr := 0xF6, reqType := .burst }
    (s.runsOn 0 ∧ s.loadReady 0 = true ∧ (s.chan 0).ccr.getLsbD 0 = true ∧ (s.chan 0).reqType = .single) ∧
    (u.runsOn 0 ∧ u.loadReady 0 = true ∧ (u.chan 0).ccr.getLsbD 0 = false ∧ (u.chan 0).reqType = .burst) :=
  ⟨⟨rfl, by decide, by decide, by decide⟩, ⟨rfl, by decide, by decide, by decide⟩⟩

/-- `DmastIncrementing`: four words up to the last address without a swap, and one group of 16 bytes. -/
theorem witness_DmastIncrementing :
    let good := fun (s : State) =>
      let c := s.chan 0
      let size := ((c.ccr.extractLsb' 18 4).toNat + 1) * 2 ^ (c.ccr.extractLsb' 15 3).toNat
      s.storeReady 0 = true ∧ s.mem.wf = true ∧ c.ccr.getLsbD 14 = true ∧
      s.platform.stopImpliesWritesDone = true ∧ size ≤ c.fifo.length ∧ (c.ccr.extractLsb' 28 4).toNat < 5 ∧
      size % 2 ^ (c.ccr.extractLsb' 28 4).toNat = 0
    let s := withChan { running with dar := 0xFFFFFFF0, ccr := 0x000D4035, fifo := List.replicate 16 0x11 }
    let u := withChan { running with
      dar := 0x3, ccr := 0x400D4035, fifo := List.replicate 17 0x11, reqType := .burst }
    (s.runsOn 0 ∧ good s ∧ (s.chan 0).reqType = .single) ∧ (u.runsOn 0 ∧ good u ∧ (u.chan 0).reqType = .burst) :=
  ⟨⟨rfl, by decide, by decide⟩, ⟨rfl, by decide, by decide⟩⟩

/-- `DmastFixed`: two beats of two bytes over the last two addresses, without a swap and with the greatest one
that four bytes take. -/
theorem witness_DmastFixed :
    let good := fun (s : State) =>
      let c := s.chan 0
      s.storeReady 0 = true ∧ s.mem.wf = true ∧ c.ccr.getLsbD 14 = false ∧
      s.platform.stopImpliesWritesDone = true ∧
      ((c.ccr.extractLsb' 18 4).toNat + 1) * 2 ^ (c.ccr.extractLsb' 15 3).toNat ≤ c.fifo.length ∧
      (c.ccr.extractLsb' 28 4).toNat < 5 ∧
      ((c.ccr.extractLsb' 18 4).toNat + 1) * 2 ^ (c.ccr.extractLsb' 15 3).toNat %
        2 ^ (c.ccr.extractLsb' 28 4).toNat = 0
    let s := withChan { running with dar := 0xFFFFFFFE, ccr := 0x00048000, fifo := [1, 2, 3, 4] }
    let u := withChan { running with dar := 0x0, ccr := 0x20048000, fifo := [1, 2, 3, 4], reqType := .burst }
    (s.runsOn 0 ∧ good s ∧ (s.chan 0).reqType = .single) ∧ (u.runsOn 0 ∧ good u ∧ (u.chan 0).reqType = .burst) :=
  ⟨⟨rfl, by decide, by decide⟩, ⟨rfl, by decide, by decide⟩⟩

/-- `DmastzWritesZeros`, incrementing up to the last address and fixed. -/
theorem witness_DmastzWritesZeros :
    let good := fun (s : State) =>
      s.storeReady 0 = true ∧ s.mem.wf = true ∧ s.platform.stopImpliesWritesDone = true
    let s := withChan { running with dar := 0xFFFFFFFC, ccr := 0x00014000 }
    let u := withChan { running with dar := 0x2000, ccr := 0x00040000 }
    (s.runsOn 0 ∧ good s ∧ (s.chan 0).ccr.getLsbD 14 = true) ∧
    (u.runsOn 0 ∧ good u ∧ (u.chan 0).ccr.getLsbD 14 = false) :=
  ⟨⟨rfl, by decide, by decide⟩, ⟨rfl, by decide, by decide⟩⟩

/-- `StoresQueueUntilBarrier`: a queue that is not empty, a FIFO that just suffices, without a swap on a single
request and with one on a burst request. -/
theorem witness_StoresQueueUntilBarrier :
    let good := fun (s : State) =>
      let c := s.chan 0
      s.platform.stopImpliesWritesDone = false ∧ s.storeReady 0 = true ∧ c.dst.size ≤ c.fifo.length ∧
      (c.ccr.extractLsb' 28 4).toNat < 5 ∧ c.dst.size % 2 ^ (c.ccr.extractLsb' 28 4).toNat = 0
    let c : Channel :=
      { running with dar := 0x2000, ccr := 0x00054015, fifo := List.replicate 8 0x11, writes := [(0x10, 1)] }
    let p : Platform := { Config.defaultPlatform with stopImpliesWritesDone := false }
    let s := onPlatform p c
    let u := onPlatform p { c with ccr := 0x30054015, reqType := .burst }
    (s.runsOn 0 ∧ good s ∧ (s.chan 0).reqType = .single) ∧ (u.runsOn 0 ∧ good u ∧ (u.chan 0).reqType = .burst) :=
  ⟨⟨rfl, by decide, by decide⟩, ⟨rfl, by decide, by decide⟩⟩

/-- `ConditionalPassedOver`. -/
theorem witness_ConditionalPassedOver :
    ((withChan { running with reqType := .burst }).runsOn 0 ∧
      ((withChan { running with reqType := .burst }).chan 0).reqType = .burst) ∧
    (withChan running).runsOn 0 ∧ ((withChan running).chan 0).reqType = .single :=
  ⟨⟨rfl, by decide⟩, rfl, by decide⟩

/-- `DmalpLoadsCounter` at both ends of the count. -/
theorem witness_DmalpLoadsCounter : (withChan running).runsOn 0 ∧ 1 ≤ 1 ∧ 256 ≤ 256 := ⟨rfl, by decide, by decide⟩

/-- `LoopEndCountsDown`: a counter at 0 and one at 255, on either request type. -/
theorem witness_LoopEndCountsDown :
    ((withChan running).runsOn 0 ∧ ((withChan running).chan 0).lc .lc0 = 0 ∧
      ((withChan running).chan 0).reqType = .single) ∧
    (withChan { running with lc1 := 255, reqType := .burst }).runsOn 0 ∧
      ((withChan { running with lc1 := 255, reqType := .burst }).chan 0).lc .lc1 ≠ 0 ∧
      ((withChan { running with lc1 := 255, reqType := .burst }).chan 0).reqType = .burst :=
  ⟨⟨rfl, by decide, by decide⟩, rfl, by decide, by decide⟩

/-- `DmasevSignals`: the first and the last event, and a non-secure thread whose events are restricted. -/
theorem witness_DmasevSignals :
    let s := secured { Config.openSecurity with nsEvents := 0x1 } (withChan { running with csr := 0x00200001 })
    (s.runsOn 0 ∧ s.eventAllowed (.channel 0) 0 = true) ∧
    ((withChan running).runsOn 0 ∧ (withChan running).eventAllowed (.channel 0) 31 = true) ∧
    ((asManager .memory).runsManager ∧ (asManager .memory).eventAllowed .manager 31 = true) ∧
    (asManager .debug).debugsManager ∧ (asManager .debug).eventAllowed .manager 8 = true :=
  ⟨⟨rfl, by decide⟩, ⟨rfl, by decide⟩, ⟨rfl, by decide⟩, rfl, by decide⟩

/-- The cases of an event's signal in `DmasevSignals`: an enabled interrupt, an event that nobody waits for, one
that the manager waits for and one that channel 7 waits for. -/
theorem witness_signalled :
    let i : Engine := { Engine.reset with inten := 0x80 }
    let m : Engine := { Engine.reset with dsr := 0x1F4 }
    let c := State.reset.setChan 7 { running with csr := 0x4 }
    i.inten.getLsbD (7 : Fin 32).val = true ∧
    (Engine.reset.inten.getLsbD (7 : Fin 32).val = false ∧ Engine.reset.awaited 7 = false) ∧
    (m.inten.getLsbD (31 : Fin 32).val = false ∧ statusOf m.dsr = 0x4#4 ∧
      (m.dsr.extractLsb' 4 5).toNat = (31 : Fin 32).val) ∧
    (c.engine.inten.getLsbD (0 : Fin 32).val = false ∧ statusOf (c.chan 7).csr = 0x4#4 ∧
      ((c.chan 7).csr.extractLsb' 4 5).toNat = (0 : Fin 32).val) := by decide

/-- `InterruptRaisedAndCleared` at the first and the last interrupt. -/
theorem witness_InterruptRaisedAndCleared :
    let s : State := { State.reset with engine := { Engine.reset with inten := 0x80000001 } }
    s.engine.inten.getLsbD (0 : Fin 32).val = true ∧ s.engine.inten.getLsbD (31 : Fin 32).val = true := by decide

/-- `DmawfeTakesOrWaits`: event 31 active, event 0 not. -/
theorem witness_DmawfeTakesOrWaits :
    let s : State := { withChan running with engine := { (withChan running).engine with events := 0x80000000 } }
    s.runsOn 0 ∧ s.eventAllowed (.channel 0) 31 = true ∧ s.engine.events.getLsbD (31 : Fin 32).val = true ∧
      s.eventAllowed (.channel 0) 0 = true ∧ s.engine.events.getLsbD (0 : Fin 32).val = false :=
  ⟨rfl, by decide, by decide, by decide, by decide⟩

/-- `DmawfpTakesOrWaits` and `DmaflushpDropsRequest`: no request, a single one and a burst one. -/
theorem witness_Dmawfp_Dmaflushp :
    let s : State := { withChan running with engine := { (withChan running).engine with
      periph := (Engine.reset.periph.set 1 (some .single)).set 31 (some .burst) } }
    s.runsOn 0 ∧ (s.periphAllowed 0 0 = true ∧ s.engine.periph[(0 : Fin 32)] = none) ∧
    (s.periphAllowed 0 1 = true ∧ s.engine.periph[(1 : Fin 32)] = some .single) ∧
    (s.periphAllowed 0 31 = true ∧ s.engine.periph[(31 : Fin 32)] = some .burst) :=
  ⟨rfl, by decide, by decide, by decide⟩

/-- `NopAndReadBarrier` and `DmawmbCompletesWrites`, with two writes on their way to one byte. -/
theorem witness_barriers :
    let s := withChan { running with writes := [(0x10, 1), (0xFFFFFFFF, 2), (0x10, 3)] }
    s.runsOn 0 ∧ s.mem.wf = true ∧
      ((s.chan 0).writes = [(0x10, 1)] ++ (0xFFFFFFFF, 2) :: [(0x10, 3)] ∧
        (0xFFFFFFFF : Word) ∉ ([(0x10, 3)] : List (Word × Byte)).map Prod.fst) ∧
      (0x11 : Word) ∉ (s.chan 0).writes.map Prod.fst := ⟨rfl, by decide, by decide, by decide⟩

/-- `DmaendStops`: a channel with an empty FIFO and a queued write that its stop completes, one with both where
stops leave writes, and the manager. -/
theorem witness_DmaendStops :
    let u := onPlatform { Config.defaultPlatform with stopImpliesWritesDone := false }
      { running with fifo := [1], writes := [(0x10, 1)] }
    let s := withChan { running with writes := [(0x10, 1), (0x20, 2)] }
    (s.runsOn 0 ∧ (s.chan 0).fifo = [] ∧ s.platform.stopImpliesWritesDone = true) ∧
    (u.runsOn 0 ∧ u.platform.stopImpliesWritesDone = false) ∧ (asManager .memory).runsManager :=
  ⟨⟨rfl, by decide, rfl⟩, ⟨rfl, rfl⟩, rfl⟩

/-- `DmagoStartsChannel`: a Stopped channel and one that executes, from the debug interface and from memory. -/
theorem witness_DmagoStartsChannel :
    let u := (asManager .debug).setChan 7 running
    let v := (asManager .memory).setChan 7 running
    (asManager .debug).goAllowed true 7 = true ∧ statusOf ((asManager .debug).chan 7).csr = 0x0#4 ∧
    (asManager .debug).debugsManager ∧
    ((asManager .memory).goAllowed false 0 = true ∧ statusOf ((asManager .memory).chan 0).csr = 0x0#4 ∧
      (asManager .memory).runsManager) ∧
    (u.goAllowed true 7 = true ∧ statusOf (u.chan 7).csr ≠ 0x0#4 ∧ u.debugsManager) ∧
    v.goAllowed true 7 = true ∧ statusOf (v.chan 7).csr ≠ 0x0#4 ∧ v.runsManager :=
  ⟨by decide, by decide, rfl, ⟨by decide, by decide, rfl⟩, ⟨by decide, by decide, rfl⟩, by decide, by decide, rfl⟩

/-- `DmakillStops`: a faulting channel from the debug interface, a stopped one from memory, the manager faulting
and stopped. -/
theorem witness_DmakillStops :
    let s : State := { withChan { running with csr := 0xF } with
      active := { thread := .channel 0, origin := .debug } }
    let u : State := { asManager .debug with engine := { Engine.reset with dsr := 0xF, fsrd := 1 } }
    ((s.active.origin = .debug ∨ s.platform.killFromMemoryStops = true) ∧ s.active.thread = .channel 0 ∧
      statusOf (s.chan 0).csr ≠ 0x0#4) ∧
    ((State.reset.active.origin = .debug ∨ State.reset.platform.killFromMemoryStops = true) ∧
      State.reset.active.thread = .channel 0 ∧ statusOf (State.reset.chan 0).csr = 0x0#4) ∧
    (u.active.origin = .debug ∨ u.platform.killFromMemoryStops = true) ∧ u.active.thread = .manager ∧
      statusOf u.engine.dsr ≠ 0x0#4 ∧
      (asManager .debug).active.thread = .manager ∧ statusOf (asManager .debug).engine.dsr = 0x0#4 := by decide

/-- `ExcludedTakeUndefFault` on either thread. -/
theorem witness_ExcludedTakeUndefFault :
    Instr.dmalpfe .lc1 255 ∈ [Instr.dmaaddh .sar 0, .dmaadnh .sar 0, .dmaldps 0, .dmaldpb 0, .dmastps 0, .dmastpb 0,
      .dmalpfe .lc1 255] ∧ (withChan running).runsOn 0 ∧ (asManager .memory).runsManager :=
  ⟨by decide, rfl, rfl⟩

/-- `FaultEntry`: a channel from memory and the manager from the debug interface. -/
theorem witness_FaultEntry :
    (withChan running).active.thread = .channel 0 ∧ (withChan running).active.origin = .memory ∧
    (asManager .debug).active.thread = .manager ∧ (asManager .debug).active.origin = .debug := by decide

/-- `DataFaults`: a FIFO one byte short, a non-secure channel without rights, a FIFO one byte too small, and an
address just past the memory. -/
theorem witness_DataFaults :
    let s := withChan { running with ccr := 0x00054015, fifo := List.replicate 7 0x11 }
    let u := secured { Config.openSecurity with nsProts := 0xFE } (withChan { running with csr := 0x00200001 })
    let f := onPlatform { Config.defaultPlatform with mfifoBytes := some 7 } { running with ccr := 0x00054015 }
    let m := onPlatform { Config.defaultPlatform with mapped := [{ base := 0, size := 0x1000 }] }
      { running with sar := 0x1000, dar := 0x1000, fifo := [1] }
    (s.runsOn 0 ∧ s.protAllowed 0 (s.chan 0).dstProt = true ∧ (s.chan 0).fifo.length < (s.chan 0).dst.size) ∧
    (u.runsOn 0 ∧ u.protAllowed 0 (u.chan 0).srcProt = false ∧ u.protAllowed 0 (u.chan 0).dstProt = false) ∧
    (f.runsOn 0 ∧ f.protAllowed 0 (f.chan 0).srcProt = true ∧ f.fifoRoom 0 (f.chan 0).src.size = false) ∧
    (m.runsOn 0 ∧ m.protAllowed 0 (m.chan 0).srcProt = true ∧ m.fifoRoom 0 (m.chan 0).src.size = true ∧
      (m.chan 0).src.crossesTop = false ∧ m.mappedAt (m.chan 0).sar = false ∧
      m.protAllowed 0 (m.chan 0).dstProt = true ∧ (m.chan 0).dst.crossesTop = false ∧
      (m.chan 0).dst.size ≤ (m.chan 0).fifo.length ∧
      m.mappedAt (m.chan 0).dar = false) :=
  ⟨⟨rfl, by decide⟩, ⟨rfl, by decide⟩, ⟨rfl, by decide⟩, ⟨rfl, by decide⟩⟩

/-- `InstructionFaults`: a pc just past the memory, an undefined byte, a DMAGO on a channel, the least and the
greatest reserved swap, a start that security forbids. -/
theorem witness_InstructionFaults :
    let m := onPlatform { Config.defaultPlatform with mapped := [{ base := 0, size := 0x100 }] } running
    let g := secured { Config.openSecurity with secureStartsSecure := 0x7F } (asManager .memory)
    (m.board.resetHeld = false ∧ runs (statusOf (m.chan 0).csr) = true ∧ m.fetch (m.chan 0).pc = none) ∧
    ((withChan running).runsOn 0 ∧ instrLength 0x06 = none) ∧
    (5 ≤ ((0x50000000#32).extractLsb' 28 4).toNat ∧ 5 ≤ ((0xFFFFFFFF#32).extractLsb' 28 4).toNat ∧
      (withChan running).platform.reservedSwapFaults = true) ∧
    g.runsManager ∧ g.goAllowed false 7 = false :=
  ⟨by decide, ⟨rfl, by decide⟩, by decide, rfl, by decide⟩

/-- `InstructionFaults`: the reserved operand bytes at the ends of their ranges, and the events and peripherals a
non-secure thread may not use. -/
theorem witness_InstructionFaults_reserved :
    ((0xF9#8).extractLsb' 0 3 ≠ 0#3 ∧ (0x04#8).extractLsb' 0 3 ≠ 0#3) ∧
    ((0x01#8).getLsbD 0 = true ∧ (0xFC#8).getLsbD 2 = true) ∧
    (4 ≤ ([0, 0, 0, 0] : List Byte).length ∧ (0x08#8).extractLsb' 3 5 ≠ 0#5 ∧ 3 ≤ (0x03#8).toNat ∧
      3 ≤ (0xFF#8).toNat) ∧
    (let s := secured { Config.openSecurity with nsEvents := 0x7FFFFFFF, nsPeriphs := 0xFFFFFFFE }
      (withChan { running with csr := 0x00200001 })
     s.runsOn 0 ∧ s.eventAllowed (.channel 0) 31 = false ∧ s.periphAllowed 0 0 = false) ∧
    (let m := secured { Config.openSecurity with nsEvents := 0xFFFFFFFE }
      { asManager .memory with engine := { Engine.reset with dsr := 0x201 } }
     m.runsManager ∧ m.eventAllowed .manager 0 = false) :=
  ⟨by decide, by decide, by decide, ⟨rfl, by decide, by decide⟩, rfl, by decide⟩

/-- The machine with one live, unattached buffer. -/
def withBuffer (b : Buffer) : State :=
  { State.reset with buffers := [(1, b)], nextHandle := 2, mem := bytesAt b.base [1, 2, 3, 4] }

/-- A buffer of 4 bytes whose loop of counter 1 is open since offset 2. -/
def open1 : Buffer :=
  { freshBuffer 9 0xFFFFFFFE with len := 4, depth := 1, ctrMask := 2, loops := [(.lc1, 2)] }

/-- The witness buffers are editable. -/
theorem witness_editable :
    (withBuffer open1).editable 1 open1 ∧ (withBuffer (freshBuffer 7 0x3000)).editable 1 (freshBuffer 7 0x3000) :=
  ⟨⟨rfl, rfl, by decide, by decide⟩, ⟨rfl, rfl, by decide, by decide⟩⟩

/-- `EncoderAppends`: a six-byte instruction that just fits; event 31. -/
theorem witness_EncoderAppends :
    appendedInstr (.mov (some .sar) 1) = some (.dmamov .sar 1) ∧
    (freshBuffer 7 0x3000).len + (encode (.dmamov .sar 1)).length + 1 ≤ (freshBuffer 7 0x3000).cap ∧
    appendedInstr (.sendEvent 31) = some (.dmasev 31) ∧ appendedInstr (.go 7 0 true) = some (.dmago true 7 0) := by
  decide

/-- `EncoderFailureWritesNothing`: an operand out of range. -/
theorem witness_EncoderFailureWritesNothing :
    ∃ s t p op r, cmdInst p op s = .next (t, r) ∧ r.status ≠ .success :=
  ⟨withBuffer open1, _, some 1, .sendEvent 8, _, rfl, by decide⟩

/-- `EncoderCheckOrder`: an attached program, one that is not, a capacity one byte short. -/
theorem witness_EncoderCheckOrder :
    (bufGet (withContext (context .ready)).buffers 5 = some program ∧
      (withContext (context .ready)).attached 5 = true) ∧
    (bufGet (withBuffer (freshBuffer 6 0x3000)).buffers 1 = some (freshBuffer 6 0x3000) ∧
      (withBuffer (freshBuffer 6 0x3000)).attached 1 = false) ∧
    appendedInstr (.mov (some .sar) 1) = some (.dmamov .sar 1) ∧
    (freshBuffer 6 0x3000).cap < (freshBuffer 6 0x3000).len + (encode (.dmamov .sar 1)).length + 1 := by decide

/-- `LoopStartOpens`: a free and a reserved counter, a capacity that just suffices, and one byte less. -/
theorem witness_LoopStartOpens :
    (withBuffer open1).editable 1 open1 ∧
    (withBuffer (freshBuffer 2 0x3000)).editable 1 (freshBuffer 2 0x3000) ∧
    (freshBuffer 2 0x3000).reserved .lc0 = false ∧ (freshBuffer 2 0x3000).cap < (freshBuffer 2 0x3000).len + 3 ∧
    loopCtrOf 0 = some .lc0 ∧ open1.reserved .lc0 = false ∧ open1.len + 3 ≤ open1.cap ∧
    loopCtrOf 1 = some .lc1 ∧ open1.reserved .lc1 = true ∧
    (freshBuffer 3 0x3000).len + 3 ≤ (freshBuffer 3 0x3000).cap :=
  ⟨⟨rfl, rfl, by decide, by decide⟩, ⟨rfl, rfl, by decide, by decide⟩, by decide⟩

/-- `LoopInsertMovesBody` and `ChLoopWraps`: a body that reaches back to the open loop's start, one byte more, a
reserved counter, and a capacity that just suffices for both loop instructions, for the loop start only, or
for neither. -/
theorem witness_LoopInsert_ChLoop :
    loopCtrOf 0 = some .lc0 ∧ open1.reserved .lc0 = false ∧ 2 ≤ open1.len - open1.floor ∧
    open1.len - open1.floor < 3 ∧ open1.len + 5 ≤ open1.cap ∧
    ({ open1 with cap := 8 } : Buffer).cap < open1.len + 5 ∧
    (withBuffer { open1 with cap := 8 }).attached 1 = false ∧ ({ open1 with cap := 8 } : Buffer).wf = true ∧
    open1.reserved .lc1 = true ∧ ({ open1 with cap := 6 } : Buffer).cap < open1.len + 3 ∧
    (withBuffer { open1 with cap := 6 }).attached 1 = false ∧ ({ open1 with cap := 6 } : Buffer).wf = true := by
  decide

/-- `EncoderKeepsSentinel`: an open loop is closed behind its sentinel. -/
theorem witness_EncoderKeepsSentinel :
    ∃ t r, (withBuffer { open1 with len := 6 }).editable 1 { open1 with len := 6 } ∧
      (withBuffer { open1 with len := 6 }).bufByte { open1 with len := 6 } 6 = 0x00 ∧
      cmdInst (some 1) (.loopEnd (some .burst)) (withBuffer { open1 with len := 6 }) = .next (t, r) :=
  ⟨_, _, ⟨rfl, rfl, by decide, by decide⟩, by decide, rfl⟩

/-- A buffer whose open loop's body has the given length. -/
def longBody (n : Nat) : Buffer :=
  { freshBuffer 300 0x3000 with len := n, depth := 1, ctrMask := 1, loops := [(.lc0, 0)] }

/-- `LoopEndCloses`: no open loop, a body of 255 bytes and one of 256. -/
theorem witness_LoopEndCloses :
    ((freshBuffer 7 0x3000).depth = 0) ∧
    ((withBuffer (longBody 255)).editable 1 (longBody 255) ∧ (longBody 255).loops = [] ++ [(.lc0, 0)] ∧
      (longBody 255).len - 0 ≤ 255 ∧ (longBody 255).len + 3 ≤ (longBody 255).cap ∧
      ({ longBody 255 with cap := 257 } : Buffer).cap < (longBody 255).len + 3) ∧
    (withBuffer (longBody 256)).editable 1 (longBody 256) ∧ 255 < (longBody 256).len - 0 :=
  ⟨rfl, ⟨⟨rfl, rfl, by decide, by decide⟩, rfl, by decide, by decide, by decide⟩,
    ⟨rfl, rfl, by decide, by decide⟩, by decide⟩

/-- `AllocProgramFresh`: size 0, and the greatest size with and without storage. -/
theorem witness_AllocProgramFresh :
    State.reset.mem.wf = true ∧ (0xFFFFFFFF : Word) ≠ 0 ∧ env.allocOk = true ∧
      ({ env with allocOk := false } : Env).allocOk = false := by decide

/-- The legal form of the default parameters. -/
def legal : LegalParams where
  srcType := .memory
  dstType := .memory
  srcProt := 0
  dstProt := 0
  srcCache := 0
  dstCache := 0
  burstBytes := 4
  swap := .none
  channel := 0
  burstEnable := true
  completionEvent := true

/-- `SynthesizedProgram`: V-SYN-1 with a capacity that just suffices, and with one byte less. -/
theorem witness_SynthesizedProgram :
    checkParams params = .ok legal ∧ env.allocOk = true ∧ State.reset.mem.wf = true ∧
    misaligned legal (quantities legal 0x1003 0x2000 37) 37 = false ∧
    synthLength legal 0x1003 0x2000 37 = 38 ∧
    38 + 1 ≤ ({ Config.defaultPlatform with synthCapacity := 39 } : Platform).synthCapacity.toNat ∧
    ({ Config.defaultPlatform with synthCapacity := 38 } : Platform).synthCapacity.toNat < 38 + 1 ∧
    0 < ({ Config.defaultPlatform with synthCapacity := 38 } : Platform).synthCapacity.toNat :=
  ⟨rfl, rfl, rfl, by decide, by decide, by decide, by decide, by decide⟩

/-- `StrictAlignment`: a register source (S9a), whose address, or whose length alone, is no multiple of 4; it asks
nothing of the storage. -/
theorem witness_StrictAlignment :
    checkParams { params with srcType := some .register } = .ok { legal with srcType := .register } ∧
    ({ env with allocOk := false } : Env).allocOk = false ∧
    (0x1002#32).toNat % 4 ≠ 0 ∧ (0x1000#32).toNat % 4 = 0 ∧ (6#32).toNat % 4 ≠ 0 :=
  ⟨rfl, by decide, by decide, by decide, by decide⟩

/-- `SynthesizerChecks` at the boundary values of S9c and S12. -/
theorem witness_SynthesizerChecks :
    let p := params
    (p.srcType = some .memory ∧ p.dstType = some .memory ∧ p.swap = some .none ∧
      SrcType.memory ≠ .peripheral ∧ DstType.memory ≠ .peripheral) ∧
    3 ∉ [1, 2, 4, 8] ∧ p.burstBytes ∈ [1, 2, 4, 8] ∧ 7 < 8 ∧ p.channel ≤ 7 ∧ p.srcProt ≤ 7 ∧ p.srcCache ≤ 7 ∧
    p.dstProt ≤ 7 ∧ p.dstCache ≤ 7 ∧ 2 < swapBytes .swap32 := by decide

/-- `ContextChecks`: no context, an uninitialised one, channel 8. -/
theorem witness_ContextChecks :
    commandCtx (.busyCh .ctx 8) = some .ctx ∧ State.reset.ctx = none ∧
    (withContext { context .free with initialised := false }).ctx = some { context .free with initialised := false } ∧
    (context .free).initialised = true ∧ commandChannel (.busyCh .ctx 8) = some 8 ∧ 7 < 8 := by decide

/-- `SetupAttaches`: each of its clauses. -/
theorem witness_SetupAttaches :
    let s := withContext (context .free)
    (s.ctx = some (context .free) ∧ (context .free).initialised = true ∧ (context .free).abortPending = false ∧
      (context .free).chState[(7 : Fin 8)] = .free ∧ bufGet s.buffers 5 = some program ∧
      (∀ k : Fin 8, (context .free).pending[k] ≠ some 5) ∧ program.len < program.cap ∧
      s.bufByte program program.len = 0x00 ∧ program.depth = 0 ∧ program.ctrMask = 0) ∧
    ({ context .free with abortPending := true } : Context).abortPending = true ∧
    (context .busy).chState[(2 : Fin 8)] = .busy ∧ (context .error).chState[(2 : Fin 8)] = .error ∧
    ((context .ready).chState[(4 : Fin 8)] = .free ∧ (context .ready).pending[(2 : Fin 8)] = some 5) ∧
    ¬ ({ program with cap := 1 } : Buffer).len < ({ program with cap := 1 } : Buffer).cap ∧
    ({ program with depth := 1 } : Buffer).depth ≠ 0 := by decide

/-- `SetupAttaches` with a start: an idle debug interface; and for `setupTransfer` a length one above the threshold
on the last channel, and channel 8. -/
theorem witness_SetupAttaches_start :
    let s := withContext (context .free)
    (s.gaps = [] ∧ (context .free).dbg = some (newDebugBuffer 0x900) ∧ (newDebugBuffer 0x900).hdr.cap = 8 ∧
      s.engine.dbgstatus.getLsbD 0 = false) ∧
    ((context .free).shortThreshold < (9 : Word) ∧ (defaultParams (context .free) 7).channel = (7 : Fin 8).val ∧
      s.inv = true) ∧
    7 < ({ params with channel := 8 } : XferParams).channel := by decide

/-- `SetupAttaches`: a synthesis that succeeds and one that does not. -/
theorem witness_SetupAttaches_synthesis :
    let s := withContext (context .free)
    let k : Chunk := { readAddr := 0x1003, writeAddr := 0x2000, length := 37, isLast := true, params := none }
    (∃ t P ccrs, synthesize env k params s = (t, .ok (P, ccrs))) ∧
    ∃ t st, synthesize { env with allocOk := false } k params s = (t, .error st) :=
  ⟨⟨_, _, _, rfl⟩, ⟨_, _, rfl⟩⟩

/-- `StartIssuesGo` and the clauses of `StartRefuses`. -/
theorem witness_Start :
    let s := withContext (context .ready)
    let b : State := { s with engine := { s.engine with dbgstatus := 1 } }
    (s.quiet (context .ready) ∧ (context .ready).dbg = some (newDebugBuffer 0x900) ∧
      (newDebugBuffer 0x900).hdr.cap = 8 ∧ (context .ready).abortPending = false ∧
      (context .ready).chState[(2 : Fin 8)] = .ready ∧ (context .ready).pending[(2 : Fin 8)] = some 5 ∧
      bufGet s.buffers 5 = some program ∧ s.engine.dbgstatus.getLsbD 0 = false ∧
      s.platform.goVisibleAtIdle = true ∧ s.goAllowed program.nonSecure 2 = true ∧
      statusOf (s.chan 2).csr = 0x0#4) ∧
    ({ Config.defaultPlatform with goVisibleAtIdle := false } : Platform).goVisibleAtIdle = false ∧
    (b.quiet (context .ready) ∧ b.engine.dbgstatus.getLsbD 0 = true) ∧
    (context .ready).chState[(3 : Fin 8)] ≠ .ready :=
  ⟨⟨⟨rfl, rfl, rfl⟩, by decide⟩, by decide, ⟨⟨rfl, rfl, rfl⟩, by decide⟩, by decide⟩

/-- `ReconcileReads`: nothing for the environment to do; `ReconcileTransitions` has no hypotheses. -/
theorem witness_ReconcileReads : (withContext (context .busy)).gaps = [] := rfl

/-- `CheckStateReportsOnce`. -/
theorem witness_CheckStateReportsOnce :
    (withContext (context .error)).quiet (context .error) ∧ (context .error).abortPending = false ∧
    (context .error).chState[(2 : Fin 8)] = .error ∧ (context .error).errAck[(2 : Fin 8)] = false :=
  ⟨⟨rfl, rfl, rfl⟩, by decide, by decide, by decide⟩

/-- `AcknowledgedOnce`: a Done channel, a Busy one whose thread has stopped, an Aborted one. -/
theorem witness_AcknowledgedOnce :
    let s := withContext (context .busy)
    ((withContext (context .done)).quiet (context .done) ∧ (withContext (context .done)).buffersWf = true ∧
      (context .done).pending[(2 : Fin 8)] = some 5 ∧
      bufGet (withContext (context .done)).buffers 5 = some program ∧ (context .done).abortPending = false ∧
      (context .done).chState[(2 : Fin 8)] = .done) ∧
    (s.quiet (context .busy) ∧ (context .busy).chState[(2 : Fin 8)] = .busy ∧
      s.engine.fsrc.getLsbD (2 : Fin 8).val = false ∧ statusOf (s.chan 2).csr = 0x0#4) ∧
    ((withContext (context .aborted)).quiet (context .aborted) ∧
      (context .aborted).chState[(2 : Fin 8)] = .aborted) :=
  ⟨⟨⟨rfl, rfl, rfl⟩, by decide⟩, ⟨⟨rfl, rfl, rfl⟩, by decide⟩, ⟨rfl, rfl, rfl⟩, by decide⟩

/-- `AbortModes`, with every channel Free. -/
theorem witness_AbortModes :
    (withContext (context .free)).quiet (context .free) ∧
    ∀ ch : Fin 8, (context .free).chState[ch] = .free := ⟨⟨rfl, rfl, rfl⟩, by decide⟩

/-- `SafeAbortKills`: the one channel that is not Free is Busy, its thread executing. -/
theorem witness_SafeAbortKills :
    let s := withContext (context .busy)
    s.quiet (context .busy) ∧ (context .busy).dbg = some (newDebugBuffer 0x900) ∧
    (newDebugBuffer 0x900).hdr.cap = 8 ∧ (context .busy).chState[(2 : Fin 8)] ≠ .free ∧
    s.engine.fsrc.getLsbD (2 : Fin 8).val = false ∧
    (∀ k : Fin 8, k ≠ 2 → (context .busy).chState[k] = .free) ∧ (context .busy).pending[(2 : Fin 8)] = some 5 ∧
    bufGet s.buffers 5 = some program ∧ s.engine.dbgstatus.getLsbD 0 = false ∧
    s.platform.goVisibleAtIdle = true := ⟨⟨rfl, rfl, rfl⟩, by decide⟩

/-- `InitialiseResets`: the clauses' bases and word sizes (I-1, I-2, I-3). -/
theorem witness_InitialiseResets :
    (0xFFE01002#32).toNat % 4 ≠ 0 ∧ (0xFFFFFFFC#32).toNat % 4 = 0 ∧ 3 ∉ [1, 2, 4, 8] ∧ 8 ∈ [1, 2, 4, 8] ∧
      env.allocOk = true ∧ ({ env with allocOk := false } : Env).allocOk = false := by decide

/-- `CleanupDiscards`: it completes with a channel that is not Free (I-10), and with all of them Free. -/
theorem witness_CleanupDiscards :
    (withContext (context .ready)).ctx = some (context .ready) ∧ (context .ready).initialised = true ∧
    (∃ t r, cmdCleanup .ctx (withContext (context .ready)) = .next (t, r)) ∧
    ∀ ch : Fin 8, (context .free).chState[ch] = .free := ⟨rfl, rfl, ⟨_, _, rfl⟩, by decide⟩

/-- `BypassCopies`: as long as the threshold, next to each other at the top of memory (V-FAC-1's length), and onto
itself. -/
theorem witness_BypassCopies :
    let s := withContext (context .free)
    let k : Chunk := { readAddr := 0xFFFFFFF8, writeAddr := 0xFFFFFFF0, length := 8, isLast := true, params := none }
    s.ctx = some (context .free) ∧ (context .free).initialised = true ∧ s.mem.wf = true ∧ k.params = none ∧
    k.length ≤ (context .free).shortThreshold ∧
    (∀ i, i < k.length.toNat → s.mappedAt (k.readAddr + BitVec.ofNat 32 i) = true ∧
      s.mappedAt (k.writeAddr + BitVec.ofNat 32 i) = true) ∧
    (k.length.toNat ≤ (k.writeAddr - k.readAddr).toNat ∧ k.length.toNat ≤ (k.readAddr - k.writeAddr).toNat) ∧
    ({ k with readAddr := k.writeAddr } : Chunk).readAddr = ({ k with readAddr := k.writeAddr } : Chunk).writeAddr := by
  decide

/-- `StoresStayInside`: a store into program 5 under a reserved ES, which falls under neither of `DmastIncrementing`
and `DmastFixed`. -/
theorem witness_StoresStayInside :
    let s : State := { withContext (context .ready) with engine := (withChan { running with
      dar := 0x200, ccr := 0xF0004001, fifo := [1] }).engine }
    s.runsOn 0 ∧ s.storeMapped 0 = true ∧ s.platform.stopImpliesWritesDone = true ∧ s.storeLoose 0 = true ∧
      (s.chan 0).dst.size ≤ (s.chan 0).fifo.length := ⟨rfl, by decide, rfl, by decide, by decide⟩

/-- `InterruptCommands`. -/
theorem witness_InterruptCommands : (withContext (context .free)).quiet (context .free) := ⟨rfl, rfl, rfl⟩

end Sys2Proof.Tests
end

section
/-! PROOFS. What the controller reset writes and leaves (R171, R902, R903, R912), and the values after reset. -/

namespace Sys2Proof.Machine

/-! ## A cleared bit -/

/-- Clearing a bit writes that bit alone. -/
theorem clearBit_bit (w : Word) (k i : Nat) (hk : k < 32) :
    (clearBit w k).getLsbD i = if i = k then false else w.getLsbD i :=
  putBit_bit w k false i hk

/-! ## Holding the controller in reset: nothing but the board's flag moves (R200) -/

@[simp] theorem resetAssert_mem (s : State) : (resetAssert s).mem = s.mem := rfl
@[simp] theorem resetAssert_buffers (s : State) : (resetAssert s).buffers = s.buffers := rfl
@[simp] theorem resetAssert_ctx (s : State) : (resetAssert s).ctx = s.ctx := rfl
@[simp] theorem resetAssert_board (s : State) :
    (resetAssert s).board = { s.board with resetHeld := true } := rfl
@[simp] theorem resetAssert_engine (s : State) : (resetAssert s).engine = s.engine := rfl
@[simp] theorem resetAssert_platform (s : State) : (resetAssert s).platform = s.platform := rfl
@[simp] theorem resetAssert_draws (s : State) : (resetAssert s).draws = s.draws := rfl

/-! ## Leaving reset: the engine is reset, and the host's side stays (R902, R903) -/

@[simp] theorem resetRelease_mem (s : State) : (resetRelease s).mem = s.mem := rfl
@[simp] theorem resetRelease_buffers (s : State) : (resetRelease s).buffers = s.buffers := rfl
@[simp] theorem resetRelease_ctx (s : State) : (resetRelease s).ctx = s.ctx := rfl
@[simp] theorem resetRelease_board (s : State) :
    (resetRelease s).board = { s.board with resetHeld := false } := rfl
@[simp] theorem resetRelease_engine (s : State) :
    (resetRelease s).engine = resetEngine s.platform.boardFamily s.board.hwConfig s.draws s.engine := rfl
@[simp] theorem resetRelease_platform (s : State) : (resetRelease s).platform = s.platform := rfl
@[simp] theorem resetRelease_draws (s : State) : (resetRelease s).draws = s.draws + 8 := rfl

/-! ## The engine's threads after the controller reset -/

/-- The engine's channel threads are reset one by one. -/
theorem resetEngine_chan (f : BoardFamily) (hw : Option HwConfig) (k : Nat) (e : Engine) (n : Fin 8) :
    (resetEngine f hw k e).chan[n] = resetChannel k n e.chan[n] := by
  fin_cases n <;> rfl

/-- A channel thread that has been reset is Stopped, whatever the free bits of its CSR are. -/
theorem resetChannel_stopped (k : Nat) (n : Fin 8) (c : Channel) :
    statusOf (resetChannel k n c).csr = stStopped :=
  statusOf_withStatus _ _

/-! ## The values of R171 -/

/-- What R171 and R912 ask of an engine that has left reset, read through its registers: every thread Stopped, no
thread's fault recorded, the debug interface idle and no interrupt enabled. -/
def Engine.hasResetValues (e : Engine) : Prop :=
  (∀ n : Fin 8, statusOf (e.read (.csr n)) = 0x0#4) ∧ statusOf (e.read .dsr) = 0x0#4 ∧
  e.read .fsrc = 0 ∧ e.read .fsrd = 0 ∧ (e.read .dbgstatus).getLsbD 0 = false ∧ e.read .inten = 0

/-- Power-on (R171, R912; log 5). -/
theorem hasResetValues_reset : Engine.reset.hasResetValues := by
  refine ⟨?channels, rfl, rfl, rfl, rfl, rfl⟩
  case channels => decide

/-- The controller reset, from any engine and for every draw of the free bits (R171, R902, R912). -/
theorem hasResetValues_resetEngine (f : BoardFamily) (hw : Option HwConfig) (k : Nat) (e : Engine) :
    (resetEngine f hw k e).hasResetValues := by
  refine ⟨fun n => ?channel, ?manager, rfl, rfl, ?debugIdle, rfl⟩
  case channel =>
    calc statusOf (resetEngine f hw k e).chan[n].csr
      _ = statusOf (resetChannel k n e.chan[n]).csr := by rw [resetEngine_chan]
      _ = stStopped := resetChannel_stopped k n e.chan[n]
  case manager => exact statusOf_withStatus (Config.freeReg k (RdReg.offset .dsr)) stStopped
  case debugIdle => exact clearBit_bit (Config.freeReg k (RdReg.offset .dbgstatus)) 0 0 (by decide)

/-- Settles O10: power-on has the values of R171, and the controller reset gives them to any engine and leaves the
host's side as it was. -/
theorem resetValues : Obligations.ResetValues :=
  ⟨hasResetValues_reset, fun s =>
    have values : (resetRelease (resetAssert s)).engine.hasResetValues := by
      rw [resetRelease_engine]
      exact hasResetValues_resetEngine _ _ _ _
    ⟨values, by simp, by simp, by simp, by simp, by simp⟩⟩

end Sys2Proof.Machine
end

section
/-! PROOFS. The decoder takes back every well-formed instruction's encoding (R346): what decoding reads from an
encoded operand, what it does by the length of an instruction, and the two put together for each form of R301..R304
and R340. -/

namespace Sys2Proof

/-! ## What decoding reads from an encoded operand (R310..R318, R340) -/

/-- The operand byte of a number passes the check of R342 and gives the number back (R316, R317). -/
theorem numInstr_numByte (n : Fin 32) (f : Fin 32 → Instr) : numInstr (numByte n) f = some (f n) := by
  obtain ⟨reserved, number⟩ := numByte_fields n
  exact (if_pos reserved).trans (by rw [number])

theorem decodeF2_wfe (ev : Fin 32) (inv : Bool) :
    decodeF2 0x36 (numByte ev ||| if inv then 0x02 else 0x00) = some (.dmawfe ev inv) := by
  obtain ⟨reserved, event, invalidate⟩ := wfeByte_fields ev inv
  exact (if_pos reserved).trans (by rw [event, invalidate])

/-- An iteration count of 1 to 256 fits the operand byte of DMALP, which holds it less 1 (R314). -/
theorem decodeF2_lp {c : LoopCtr} {iter : Nat} (wf : (Instr.dmalp c iter).wellFormed = true) :
    decodeF2 (0x20 ||| c.lpBit) (BitVec.ofNat 8 (iter - 1)) = some (.dmalp c iter) := by
  obtain ⟨pos, max⟩ := (wellFormed_dmalp c iter).mp wf
  have count : (BitVec.ofNat 8 (iter - 1)).toNat + 1 = iter := by
    rw [iterByte_toNat max pos, Nat.sub_add_cancel pos]
  cases c <;> exact congrArg (fun n => some (Instr.dmalp _ n)) count

theorem decodeF3_addh (ra : AddrReg) (imm : BitVec 16) :
    decodeF3 (0x54 ||| ra.bit) (imm.extractLsb' 0 8) (imm.extractLsb' 8 8) = some (.dmaaddh ra imm) := by
  cases ra <;> exact congrArg (fun half => some (Instr.dmaaddh _ half)) (ofLe16_extract imm)

theorem decodeF3_adnh (ra : AddrReg) (imm : BitVec 16) :
    decodeF3 (0x5C ||| ra.bit) (imm.extractLsb' 0 8) (imm.extractLsb' 8 8) = some (.dmaadnh ra imm) := by
  cases ra <;> exact congrArg (fun half => some (Instr.dmaadnh _ half)) (ofLe16_extract imm)

theorem decodeF6_go (ns : Bool) (cn : Fin 8) (addr : Word) :
    decodeF6 (if ns then 0xA2 else 0xA0) (BitVec.ofNat 8 cn.val) addr = some (.dmago ns cn addr) := by
  obtain ⟨reserved, channel⟩ := chanByte_fields cn
  cases ns <;> simp [decodeF6, reserved, channel]

theorem decodeF6_mov (rd : RegId) (imm : Word) : decodeF6 0xBC rd.id imm = some (.dmamov rd imm) := by
  cases rd <;> rfl

/-! ## Decoding by the length of the instruction (R345) -/

section
variable {b0 b1 b2 : Byte} {i : Instr} (rest : List Byte)

theorem decode_of_decodeF1 (length : instrLength b0 = some 1) (h : decodeF1 b0 = some i) :
    decode (b0 :: rest) = .ok (i, rest) := by
  simp only [decode, length, h]

theorem decode_of_decodeF2 (length : instrLength b0 = some 2) (h : decodeF2 b0 b1 = some i) :
    decode (b0 :: b1 :: rest) = .ok (i, rest) := by
  simp only [decode, length, h, decoded]

theorem decode_of_decodeF3 (length : instrLength b0 = some 3) (h : decodeF3 b0 b1 b2 = some i) :
    decode (b0 :: b1 :: b2 :: rest) = .ok (i, rest) := by
  simp only [decode, length, h, decoded]

/-- The four bytes of a six-byte instruction's immediate are read back as one word. -/
theorem decode_of_decodeF6 {imm : Word} (length : instrLength b0 = some 6) (h : decodeF6 b0 b1 imm = some i) :
    decode (b0 :: b1 :: (le32 imm ++ rest)) = .ok (i, rest) := by
  simp only [le32, List.cons_append, List.nil_append, decode, length, ofLe32_byteOf, h, decoded]

end

/-! ## The round trip -/

/-- Settles O1, form by form: the first byte of the encoding selects the length and the form, and the operand is read
back from the bytes after it. -/
theorem decodeEncode : Obligations.DecodeEncode := by
  intro i rest wf
  cases i with
  | dmaend | dmakill | dmald | dmalds | dmaldb | dmast | dmasts | dmastb | dmastz | dmarmb | dmawmb | dmanop =>
    exact decode_of_decodeF1 rest rfl rfl
  | dmalp c iter => cases c <;> exact decode_of_decodeF2 rest rfl (decodeF2_lp wf)
  | dmalpend c jump | dmalpends c jump | dmalpendb c jump | dmalpfe c jump =>
    cases c <;> exact decode_of_decodeF2 rest rfl rfl
  | dmawfpSingle n | dmawfpPeriph n | dmawfpBurst n | dmaflushp n | dmasev n | dmaldps n | dmaldpb n | dmastps n
  | dmastpb n =>
    exact decode_of_decodeF2 rest rfl (numInstr_numByte n _)
  | dmawfe ev inv => exact decode_of_decodeF2 rest rfl (decodeF2_wfe ev inv)
  | dmaaddh ra imm => cases ra <;> exact decode_of_decodeF3 rest rfl (decodeF3_addh _ imm)
  | dmaadnh ra imm => cases ra <;> exact decode_of_decodeF3 rest rfl (decodeF3_adnh _ imm)
  | dmago ns cn addr => cases ns <;> exact decode_of_decodeF6 rest rfl (decodeF6_go _ cn addr)
  | dmamov rd imm => exact decode_of_decodeF6 rest rfl (decodeF6_mov rd imm)

end Sys2Proof
end

section
/-! PROOFS. What the encoder commands do (40_encoder.md): how a command answers its buffer's edit, what an append and an
insertion leave in memory, and which edit or status each loop command gives. -/

namespace Sys2Proof.Machine

/-! ## The answer of an encoder command (R404, R406, R407) -/

/-- What a command on no buffer answers. -/
theorem cmdInst_null (op : EncOp) (s : State) : Answers (cmdInst none op s) s .nullptr := rfl

/-- An encoder command is refused, or answers with the state as it was, or answers success. -/
theorem cmdInst_cases (p : Handle) (op : EncOp) (s : State) :
    cmdInst p op s = .refused .attachedProgram ∨ (∃ e, Answers (cmdInst p op s) s e) ∨
      ∃ t, Answers (cmdInst p op s) t .success := by
  unfold cmdInst onBuffer
  cases s.findBuffer p with
  | none => exact .inr (.inl ⟨.nullptr, rfl⟩)
  | some live =>
    dsimp only
    split
    · exact .inl rfl
    · split
      next e _ => exact .inr (.inl ⟨e, rfl⟩)
      next => exact .inr (.inr ⟨_, rfl⟩)

section
variable {s : State} {h : Nat} {b : Buffer} {op : EncOp}

/-- What an editable buffer gives (R101, R104): canonical memory, a capacity that is a u32, and a depth that counts
the open loops. -/
theorem editable_bounds (hb : s.editable h b) :
    s.mem.wf = true ∧ b.cap < 2 ^ 32 ∧ b.depth = b.loops.length := by
  obtain ⟨-, -, wf, hm⟩ := hb
  obtain ⟨-, cap, depth⟩ := wf_bounds wf
  exact ⟨hm, cap, depth⟩

/-- A failing check is answered with its status, and nothing is written (R406). -/
theorem cmdInst_error {e : Status} (hb : s.editable h b) (failed : encodeOp op b (s.bufByte b) = .error e) :
    Answers (cmdInst (some h) op s) s e := by
  obtain ⟨live, free, -, -⟩ := hb
  rw [cmdInst_live live free, failed]
  rfl

/-- Where every check passes, the buffer's record and bytes become those of the edit, and nothing else changes. -/
theorem cmdInst_ok {ed : Edit} (op : EncOp) (hb : s.editable h b) (passed : encodeOp op b (s.bufByte b) = .ok ed) :
    ∃ t, Answers (cmdInst (some h) op s) t .success ∧ onlyBuffersChange s t ∧ onlyBuffer h ed.buffer s t ∧
      t.mem = applyWrites b ed.writes s.mem := by
  obtain ⟨live, free, -, -⟩ := hb
  refine ⟨s.applyEdit h b ed, ?_, applyEdit_frame live ed⟩
  rw [cmdInst_live live free, passed]
  rfl

end

/-! ## Places in a buffer (R101) -/

/-- The offsets of a buffer are different addresses. -/
theorem addr_inj {b : Buffer} {i j : Nat} (hi : i < 2 ^ 32) (hj : j < 2 ^ 32) (e : b.addr i = b.addr j) : i = j :=
  burst_offset_inj b.base hi hj e

/-- A byte outside the changed range is as before. -/
theorem sameOutside_byte {b : Buffer} {start n i : Nat} {s t : State} (same : sameOutside b start n s t)
    (hr : start + n ≤ 2 ^ 32) (hi : i < 2 ^ 32) (out : i < start ∨ start + n ≤ i) :
    t.byteAt (b.addr i) = s.byteAt (b.addr i) := by
  refine same _ fun k hk e => ?_
  have := addr_inj hi (by omega) e
  omega

/-- A range that holds every changed range holds the change. -/
theorem sameOutside_mono {b : Buffer} {start n start' n' : Nat} {s t : State} (same : sameOutside b start' n' s t)
    (lo : start ≤ start') (hi : start' + n' ≤ start + n) : sameOutside b start n s t := by
  refine fun a out => same a fun k hk => ?_
  have := out (start' - start + k) (by omega)
  rwa [← Nat.add_assoc, Nat.add_sub_cancel' lo] at this

/-- Two changes within one range are a change within it. -/
theorem sameOutside_trans {b : Buffer} {start n : Nat} {s u t : State} (first : sameOutside b start n s u)
    (second : sameOutside b start n u t) : sameOutside b start n s t :=
  fun a out => (second a out).trans (first a out)

/-! ## Memory after an append, an insertion and a closed loop (R403, R421, R423) -/

/-- Writes of an edit followed by further writes. -/
theorem applyWrites_append (b : Buffer) (ws ws' : List (Nat × Byte)) (m : Memory) :
    applyWrites b (ws ++ ws') m = applyWrites b ws' (applyWrites b ws m) := by
  rw [applyWrites, List.map_append, memWrites_append]
  rfl

/-- An append leaves its bytes and the sentinel behind the last instruction, and every other byte alone (R403). -/
theorem append_bytes {s t : State} {b : Buffer} {bs : List Byte} (hm : s.mem.wf = true)
    (room : b.len + bs.length + 1 ≤ 2 ^ 32) (ht : t.mem = applyWrites b (appendBytes b bs).writes s.mem) :
    t.holdsAt b b.len (bs ++ [0x00]) ∧ sameOutside b b.len (bs.length + 1) s t := by
  obtain ⟨written, kept⟩ := appendBytes_read hm room
  constructor
  · intro k hk
    rw [State.byteAt, ht, written k hk]
  · intro a out
    rw [State.byteAt, ht, kept a out, State.byteAt]

/-- The offsets an insertion writes: those of the moved body and sentinel from the last down, then the loop start's. -/
theorem insertEdit_offsets (k : LoopCtr) (n body : Nat) (b : Buffer) (content : Nat → Byte) :
    (insertEdit k n body b content).writes.map Prod.fst =
      (List.range (body + 1)).reverse.map (fun i => b.len - body + i + 2) ++ [b.len - body, b.len - body + 1] := by
  simp [insertEdit, encode, offsetWrites, Function.comp_def]

/-- An insertion writes no offset twice. -/
theorem insertEdit_nodup (k : LoopCtr) (n body : Nat) (b : Buffer) (content : Nat → Byte) :
    ((insertEdit k n body b content).writes.map Prod.fst).Nodup := by
  have moved : ((List.range (body + 1)).reverse.map fun i => b.len - body + i + 2).Nodup :=
    (List.nodup_reverse.2 List.nodup_range).map fun i j e => by simpa using e
  rw [insertEdit_offsets, List.nodup_append]
  refine ⟨moved, by simp, fun x hx y hy => ?_⟩
  simp only [List.mem_map] at hx
  obtain ⟨i, -, rfl⟩ := hx
  simp only [List.mem_cons, List.not_mem_nil, or_false] at hy
  omega

/-- An insertion writes within the body, the sentinel and the two new bytes. -/
theorem insertEdit_offset_range {k : LoopCtr} {n body : Nat} {b : Buffer} {content : Nat → Byte} {w : Nat × Byte}
    (hw : w ∈ (insertEdit k n body b content).writes) :
    b.len - body ≤ w.1 ∧ w.1 < b.len - body + (body + 3) := by
  have := List.mem_map_of_mem (f := Prod.fst) hw
  rw [insertEdit_offsets] at this
  simp only [List.mem_append, List.mem_map, List.mem_reverse, List.mem_range, List.mem_cons, List.not_mem_nil,
    or_false] at this
  rcases this with ⟨i, hi, e⟩ | e | e <;> omega

/-- An insertion leaves the loop start where the body stood and the body and the sentinel two bytes up, and every
other byte alone (R421). -/
theorem insert_bytes {s t : State} {b : Buffer} {k : LoopCtr} {n body : Nat} (hm : s.mem.wf = true)
    (inside : body ≤ b.len) (room : b.len + 3 ≤ 2 ^ 32)
    (ht : t.mem = applyWrites b (insertEdit k n body b (s.bufByte b)).writes s.mem) :
    t.holdsAt b (b.len - body) (encode (.dmalp k n)) ∧
    (∀ j, j ≤ body → t.byteAt (b.addr (b.len - body + 2 + j)) = s.byteAt (b.addr (b.len - body + j))) ∧
    sameOutside b (b.len - body) (body + 3) s t := by
  have read {i : Nat} {v : Byte} (hw : (i, v) ∈ (insertEdit k n body b (s.bufByte b)).writes) :
      t.byteAt (b.addr i) = v := by
    rw [State.byteAt, ht]
    refine memRead_applyWrites hm (insertEdit_nodup ..) hw fun w hw => ?_
    have := insertEdit_offset_range hw
    omega
  refine ⟨fun i hi => ?start, fun j hj => ?moved, fun a out => ?others⟩
  case start => exact read (List.mem_append_right _ (mem_offsetWrites hi))
  case moved =>
    have written : (b.len - body + j + 2, s.bufByte b (b.len - body + j)) ∈
        (insertEdit k n body b (s.bufByte b)).writes :=
      List.mem_append_left _ (List.mem_map.2 ⟨j, by simpa using Nat.lt_succ_of_le hj, rfl⟩)
    rw [Nat.add_right_comm]
    exact read written
  case others =>
    rw [State.byteAt, ht]
    refine memRead_applyWrites_ne fun w hw => ?_
    obtain ⟨lo, hi⟩ := insertEdit_offset_range hw
    have := out (w.1 - (b.len - body)) (by omega)
    rwa [Nat.add_sub_cancel' lo] at this

/-- The bytes of a closed loop (R423): `u` is after the insertion, `t` after the loop end, which is appended over the
sentinel that the insertion moved, above everything else the insertion wrote. -/
theorem chLoop_bytes {s u t : State} {b : Buffer} {k : LoopCtr} {n body : Nat} (hm : s.mem.wf = true)
    (inside : body ≤ b.len) (room : b.len + 5 ≤ 2 ^ 32)
    (hu : u.mem = applyWrites b (insertEdit k n body b (s.bufByte b)).writes s.mem)
    (ht : t.mem = applyWrites b
      (appendBytes { b with len := b.len + 2 } (encode (.dmalpend k (BitVec.ofNat 8 body)))).writes u.mem) :
    t.holdsAt b (b.len - body) (encode (.dmalp k n)) ∧
    (∀ j, j < body → t.byteAt (b.addr (b.len - body + 2 + j)) = s.byteAt (b.addr (b.len - body + j))) ∧
    t.holdsAt b (b.len + 2) (encode (.dmalpend k (BitVec.ofNat 8 body)) ++ [0x00]) ∧
    sameOutside b (b.len - body) (body + 5) s t := by
  obtain ⟨start, moved, others⟩ := insert_bytes hm inside (by omega) hu
  obtain ⟨finish, kept⟩ : t.holdsAt b (b.len + 2) (encode (.dmalpend k (BitVec.ofNat 8 body)) ++ [0x00]) ∧
      sameOutside b (b.len + 2) 3 u t :=
    append_bytes (b := { b with len := b.len + 2 }) (hu ▸ applyWrites_wf hm) room ht
  have below {i : Nat} (hi : i < b.len + 2) : t.byteAt (b.addr i) = u.byteAt (b.addr i) :=
    sameOutside_byte kept (by omega) (by omega) (.inl hi)
  refine ⟨fun i hi => ?start, fun j hj => ?moved, finish, ?others⟩
  case start =>
    have two : i < 2 := hi
    rw [below (by omega)]
    exact start i hi
  case moved =>
    rw [below (by omega)]
    exact moved j (by omega)
  case others =>
    exact sameOutside_trans (sameOutside_mono others (by omega) (by omega))
      (sameOutside_mono kept (by omega) (by omega))

/-- A command whose edit is an append succeeds with the bytes and the sentinel behind the last instruction, the
buffer's record that of the edit, and nothing else changed. -/
theorem cmdInst_appends {s : State} {h : Nat} {b b' : Buffer} {bs : List Byte} (op : EncOp) (hb : s.editable h b)
    (passed : encodeOp op b (s.bufByte b) = .ok { buffer := b', writes := (appendBytes b bs).writes })
    (room : b.len + bs.length + 1 ≤ b.cap) :
    ∃ t, Answers (cmdInst (some h) op s) t .success ∧ onlyBuffersChange s t ∧ onlyBuffer h b' s t ∧
      t.holdsAt b b.len (bs ++ [0x00]) ∧ sameOutside b b.len (bs.length + 1) s t := by
  obtain ⟨t, answer, frame, record, mem⟩ := cmdInst_ok op hb passed
  obtain ⟨hm, cap, -⟩ := editable_bounds hb
  exact ⟨t, answer, frame, record, append_bytes hm (by omega) mem⟩

/-! ## The edit of each command, or the status of its first failing check -/

/-- Bytes are appended where they and the sentinel have room. -/
theorem emit_room {P : Buffer} {i : Instr} (room : P.len + (encode i).length + 1 ≤ P.cap) :
    emit P i = .ok (appendBytes P (encode i)) :=
  if_pos (decide_eq_true room)

/-- Nothing is appended where they have none. -/
theorem emit_full {P : Buffer} {i : Instr} (full : P.cap < P.len + (encode i).length + 1) :
    emit P i = .error .noSpace :=
  if_neg fun room => absurd (of_decide_eq_true room) (Nat.not_le.2 full)

/-- The two counters are numbered 0 and 1 (R11). -/
theorem loopCtrOf_eq_some {c : Nat} {k : LoopCtr} : loopCtrOf c = some k ↔ c = ctrIndex k := by
  match c with
  | 0 | 1 => cases k <;> simp [loopCtrOf, ctrIndex]
  | c + 2 => cases k <;> simp [loopCtrOf, ctrIndex]

/-- A counter or a count out of range names no loop (R420, R421). -/
theorem loopOperands_illegal {c n : Nat} (bad : 1 < c ∨ n < 1 ∨ 256 < n) : loopOperands c n = none := by
  unfold loopOperands Config.maxLoopIter
  split
  · rfl
  · rename_i legal
    match c with
    | 0 | 1 => simp at legal; omega
    | c + 2 => rfl

/-- A legal pair names its counter (R420, R421). -/
theorem loopOperands_legal {c n : Nat} {k : LoopCtr} (hk : loopCtrOf c = some k) (pos : 1 ≤ n) (max : n ≤ 256) :
    loopOperands c n = some k := by
  refine (if_neg fun bad => ?_).trans hk
  have limit : Config.maxLoopIter = 256 := rfl
  simp only [Bool.or_eq_true, decide_eq_true_eq] at bad
  omega

/-- The bytes of a loop start (R313, R314). -/
theorem encode_dmalp {c n : Nat} {k : LoopCtr} (hk : loopCtrOf c = some k) :
    encode (.dmalp k n) = [0x20 + BitVec.ofNat 8 (2 * c), BitVec.ofNat 8 (n - 1)] := by
  obtain rfl := loopCtrOf_eq_some.1 hk
  cases k <;> rfl

/-- The bytes of the unconditional loop end (R304, R313, R315). -/
theorem encode_dmalpend {c : Nat} {k : LoopCtr} (hk : loopCtrOf c = some k) (jump : Byte) :
    encode (.dmalpend k jump) = [0x38 + BitVec.ofNat 8 (4 * c), jump] := by
  obtain rfl := loopCtrOf_eq_some.1 hk
  cases k <;> rfl

/-- The number of a loop end's condition in its first byte (R304). -/
def condCode : Cond → Byte
  | .always => 0
  | .single => 1
  | .burst => 3

/-- The bytes of a loop end (R304, R313, R315). -/
theorem encode_loopEndInstr (cond : Cond) (k : LoopCtr) (jump : Byte) :
    encode (loopEndInstr cond k jump) = [0x38 + BitVec.ofNat 8 (4 * ctrIndex k) + condCode cond, jump] := by
  cases cond <;> cases k <;> rfl

section
variable {c n body : Nat} {k : LoopCtr} {P : Buffer} {content : Nat → Byte}

/-! ### The loop start (R420) -/

theorem loopStartEdit_range (bad : 1 < c ∨ n < 1 ∨ 256 < n) : loopStartEdit c n P = .error .range := by
  rw [loopStartEdit, loopOperands_illegal bad]

theorem loopStartEdit_inUse (legal : loopOperands c n = some k) (used : P.reserved k = true) :
    loopStartEdit c n P = .error .inUse := by
  rw [loopStartEdit, legal]
  exact if_pos used

/-- With a free counter the loop start is an append that opens the loop. -/
theorem loopStartEdit_free (legal : loopOperands c n = some k) (free : P.reserved k = false) :
    loopStartEdit c n P =
      (emit P (.dmalp k n)).map fun ed => { ed with buffer := ed.buffer.openLoop k ed.buffer.len } := by
  rw [loopStartEdit, legal]
  dsimp only
  rw [if_neg (Bool.eq_false_iff.1 free)]
  cases emit P (.dmalp k n) <;> rfl

/-! ### The loop insertion (R421) -/

theorem loopInsertEdit_range (bad : 1 < c ∨ n < 1 ∨ 256 < n) :
    loopInsertEdit c n body P content = .error .range := by
  rw [loopInsertEdit, loopOperands_illegal bad]

theorem loopInsertEdit_inUse (legal : loopOperands c n = some k) (used : P.reserved k = true) :
    loopInsertEdit c n body P content = .error .inUse := by
  rw [loopInsertEdit, legal]
  exact if_pos used

/-- With a free counter the body's length is checked, then the room. -/
theorem loopInsertEdit_free (legal : loopOperands c n = some k) (free : P.reserved k = false) :
    loopInsertEdit c n body P content =
      if 255 < body ∨ P.len - P.floor < body then .error .range
      else if P.len + 3 ≤ P.cap then .ok (insertEdit k n body P content) else .error .noSpace := by
  have bodyCheck : (decide (Config.maxLoopJump < body) || decide (P.len - P.floor < body)) = true ↔
      255 < body ∨ P.len - P.floor < body := by
    rw [Bool.or_eq_true, decide_eq_true_eq, decide_eq_true_eq]
    exact Iff.rfl
  rw [loopInsertEdit, legal]
  dsimp only
  rw [if_neg (Bool.eq_false_iff.1 free)]
  exact if_congr bodyCheck rfl (if_congr decide_eq_true_iff rfl rfl)

/-! ### The loop end (R422) -/

theorem loopEndEdit_notFound {cond : Cond} (closed : P.depth = 0) :
    loopEndEdit (some cond) P = .error .notFound :=
  if_pos closed

/-- With an open loop the body's length is checked; then the loop end is an append that closes the loop. -/
theorem loopEndEdit_open {cond : Cond} {start : Nat} (opened : P.depth ≠ 0)
    (innermost : P.loops.getLast? = some (k, start)) :
    loopEndEdit (some cond) P =
      if 255 < P.len - start then .error .range
      else (emit P (loopEndInstr cond k (BitVec.ofNat 8 (P.len - start)))).map fun ed =>
        { ed with buffer := ed.buffer.closeLoop k } := by
  rw [loopEndEdit, if_neg opened, innermost]
  dsimp only
  refine if_congr Iff.rfl rfl ?_
  cases emit P (loopEndInstr cond k (BitVec.ofNat 8 (P.len - start))) <;> rfl

/-! ### The closed loop (R423) -/

theorem chLoopEdit_insertFails {e : Status} (failed : loopInsertEdit c n body P content = .error e) :
    chLoopEdit c n body P content = .error e := by
  rw [chLoopEdit, failed]

/-- A free bit of the counter mask, reserved and released, is free again. -/
theorem clear_set_bit : ∀ (m : BitVec 2) (i : Fin 2), m.getLsbD i = false →
    (m ||| 1#2 <<< i.val) &&& ~~~(1#2 <<< i.val) = m := by
  decide

/-- Closing the loop just opened gives the bookkeeping back, wherever the write position has gone. -/
theorem closeLoop_openLoop {start len : Nat} (free : P.reserved k = false) :
    ({ P.openLoop k start with len := len } : Buffer).closeLoop k = { P with len := len } := by
  have restored : (P.ctrMask ||| 1#2 <<< ctrIndex k) &&& ~~~(1#2 <<< ctrIndex k) = P.ctrMask := by
    cases k with
    | lc0 => exact clear_set_bit P.ctrMask 0 free
    | lc1 => exact clear_set_bit P.ctrMask 1 free
  simp [Buffer.closeLoop, Buffer.openLoop, restored]

/-- The jump of a loop just inserted goes back over its body. -/
theorem insertEdit_jump (inside : body ≤ P.len) :
    (insertEdit k n body P content).buffer.len - (P.len - body + 2) = body := by
  change P.len + 2 - (P.len - body + 2) = body
  omega

/-- The loop end that follows an insertion closes the inserted loop. -/
theorem loopEndEdit_inserted (inside : body ≤ P.len) (short : body ≤ 255) (room : P.len + 5 ≤ P.cap)
    (free : P.reserved k = false) :
    loopEndEdit (some .always) (insertEdit k n body P content).buffer = .ok {
      buffer := { P with len := P.len + 4 }
      writes := (appendBytes { P with len := P.len + 2 } (encode (.dmalpend k (BitVec.ofNat 8 body)))).writes } := by
  have innermost : (insertEdit k n body P content).buffer.loops.getLast? = some (k, P.len - body + 2) :=
    List.getLast?_concat
  rw [loopEndEdit_open (Nat.succ_ne_zero P.depth) innermost, insertEdit_jump inside, if_neg (Nat.not_lt.2 short),
    emit_room room]
  exact congrArg (fun B => Except.ok (Edit.mk B _)) (closeLoop_openLoop free)

/-- A legal insertion with no room for the loop end behind it fails, whether the loop start has room or not. -/
theorem chLoopEdit_noSpace (legal : loopOperands c n = some k) (free : P.reserved k = false) (short : body ≤ 255)
    (inside : body ≤ P.len - P.floor) (full : P.cap < P.len + 5) :
    chLoopEdit c n body P content = .error .noSpace := by
  have insertion : loopInsertEdit c n body P content =
      if P.len + 3 ≤ P.cap then .ok (insertEdit k n body P content) else .error .noSpace :=
    (loopInsertEdit_free legal free).trans (if_neg (by omega))
  rw [chLoopEdit, insertion]
  by_cases start : P.len + 3 ≤ P.cap
  · rw [if_pos start]
    exact if_neg fun room => absurd (of_decide_eq_true room) (Nat.not_le.2 full)
  · rw [if_neg start]

/-- A legal closed loop is the insertion, then the append of its loop end, with the bookkeeping as it was. -/
theorem chLoopEdit_ok (legal : loopOperands c n = some k) (free : P.reserved k = false) (short : body ≤ 255)
    (inside : body ≤ P.len - P.floor) (room : P.len + 5 ≤ P.cap) :
    chLoopEdit c n body P content = .ok {
      buffer := { P with len := P.len + 4 }
      writes := (insertEdit k n body P content).writes ++
        (appendBytes { P with len := P.len + 2 } (encode (.dmalpend k (BitVec.ofNat 8 body)))).writes } := by
  have insertion : loopInsertEdit c n body P content = .ok (insertEdit k n body P content) := by
    rw [loopInsertEdit_free legal free, if_neg (by omega), if_pos (by omega)]
  have both : P.room 4 = true := decide_eq_true room
  rw [chLoopEdit, insertion]
  dsimp only
  rw [if_pos both, loopEndEdit_inserted (by omega) short room free]

end

end Sys2Proof.Machine
end

section
/-! PROOFS. The claims on the encoder (40_encoder.md): a failing command writes nothing, and each command appends, opens,
moves, closes or wraps as its rule says, or fails with the status of its first failing check. -/

namespace Sys2Proof.Machine

/-- Settles O35: of the three things a command can do, only the answer with the state as it was is a failing one. -/
theorem encoderFailureWritesNothing : Obligations.EncoderFailureWritesNothing := by
  intro s t p op r answered failed
  rcases cmdInst_cases p op s with refused | ⟨e, answer⟩ | ⟨u, answer⟩
  · cases refused.symm.trans answered
  · cases answer.symm.trans answered
    exact ⟨rfl, rfl⟩
  · cases answer.symm.trans answered
    exact absurd rfl failed

/-- Settles O34: such a command's edit is the append of its instruction. -/
theorem encoderAppends : Obligations.EncoderAppends := by
  intro s h b op i hb hop room
  exact cmdInst_appends op hb ((encodeOp_append b (s.bufByte b) hop).trans (emit_room room)) room

/-- Settles O37: the checks of R420 in their order, then the append of the loop start. -/
theorem loopStartOpens : Obligations.LoopStartOpens := by
  intro s h b c n hb
  refine ⟨cmdInst_null _ s, fun bad => cmdInst_error hb (loopStartEdit_range bad), fun k hk pos max => ?_⟩
  have legal := loopOperands_legal hk pos max
  refine ⟨fun used => cmdInst_error hb (loopStartEdit_inUse legal used), fun free full => ?noSpace,
    fun free room => ?opens⟩
  case noSpace =>
    refine cmdInst_error hb ((loopStartEdit_free legal free).trans ?_)
    rw [emit_full full]
    rfl
  case opens =>
    have bytes := encode_dmalp (n := n) hk
    obtain rfl := loopCtrOf_eq_some.1 hk
    have opened := loopStartEdit_free legal free
    rw [emit_room room, bytes] at opened
    exact cmdInst_appends (.loopStart (ctrIndex k) n) hb opened room

/-- Settles O39: the checks of R422 in their order, then the append of the loop end. -/
theorem loopEndCloses : Obligations.LoopEndCloses := by
  intro s h b cond hb
  refine ⟨cmdInst_null _ s, cmdInst_error hb rfl, fun closed => cmdInst_error hb (loopEndEdit_notFound closed),
    fun k start outer loops => ?_⟩
  obtain ⟨-, -, depth⟩ := editable_bounds hb
  have opened : b.depth ≠ 0 := by simp [depth, loops]
  have innermost : b.loops.getLast? = some (k, start) := by rw [loops, List.getLast?_concat]
  have ends := loopEndEdit_open (cond := cond) opened innermost
  refine ⟨fun long => cmdInst_error hb (ends.trans (if_pos long)), fun short full => ?noSpace,
    fun short room => ?closes⟩
  case noSpace =>
    rw [if_neg (Nat.not_lt.2 short), emit_full (by rwa [encode_loopEndInstr])] at ends
    exact cmdInst_error hb ends
  case closes =>
    rw [if_neg (Nat.not_lt.2 short), emit_room (by rwa [encode_loopEndInstr]), encode_loopEndInstr] at ends
    have outerLeft : b.loops.dropLast = outer := by rw [loops, List.dropLast_concat]
    have closed := cmdInst_appends (.loopEnd (some cond)) hb ends room
    simp only [Buffer.closeLoop, appendBytes, outerLeft] at closed
    cases cond <;> exact closed

/-- Settles O38: the checks of R421 in their order, then the insertion. -/
theorem loopInsertMovesBody : Obligations.LoopInsertMovesBody := by
  intro s h b c n body hb
  refine ⟨cmdInst_null _ s, fun bad => cmdInst_error hb (loopInsertEdit_range bad), fun k hk pos max => ?_⟩
  have legal := loopOperands_legal hk pos max
  have checks (free : b.reserved k = false) := loopInsertEdit_free (body := body) (content := s.bufByte b) legal free
  refine ⟨fun used => cmdInst_error hb (loopInsertEdit_inUse legal used),
    fun free bad => cmdInst_error hb ((checks free).trans (if_pos bad)),
    fun free short inside full => ?noSpace, fun free short inside room => ?moves⟩
  case noSpace =>
    refine cmdInst_error hb ((checks free).trans ?_)
    rw [if_neg (by omega), if_neg (by omega)]
  case moves =>
    have inserted := checks free
    rw [if_neg (by omega), if_pos room] at inserted
    obtain ⟨t, answer, frame, record, mem⟩ := cmdInst_ok (.loopInsert c n body) hb inserted
    obtain ⟨hm, cap, -⟩ := editable_bounds hb
    obtain ⟨start, moved, others⟩ := insert_bytes hm (by omega) (by omega) mem
    rw [encode_dmalp hk] at start
    obtain rfl := loopCtrOf_eq_some.1 hk
    exact ⟨t, answer, frame, record, start, moved, others⟩

/-- Settles O40: the checks of R421 and the room for both instructions, then the insertion and the append. -/
theorem chLoopWraps : Obligations.ChLoopWraps := by
  intro s h b c n body hb
  refine ⟨cmdInst_null _ s,
    fun bad => cmdInst_error hb (chLoopEdit_insertFails (loopInsertEdit_range bad)), fun k hk pos max => ?_⟩
  have legal := loopOperands_legal hk pos max
  refine ⟨fun used => cmdInst_error hb (chLoopEdit_insertFails (loopInsertEdit_inUse legal used)),
    fun free bad => cmdInst_error hb (chLoopEdit_insertFails ((loopInsertEdit_free legal free).trans (if_pos bad))),
    fun free short inside full => cmdInst_error hb (chLoopEdit_noSpace legal free short inside full),
    fun free short inside room => ?_⟩
  obtain ⟨t, answer, frame, record, mem⟩ :=
    cmdInst_ok (.chLoop c n body) hb (chLoopEdit_ok legal free short inside room)
  have inserted : (s.applyEdit h b (insertEdit k n body b (s.bufByte b))).mem =
      applyWrites b (insertEdit k n body b (s.bufByte b)).writes s.mem := rfl
  rw [applyWrites_append, ← inserted] at mem
  obtain ⟨hm, cap, -⟩ := editable_bounds hb
  obtain ⟨start, moved, finish, others⟩ := chLoop_bytes hm (by omega) (by omega) inserted mem
  rw [encode_dmalp hk] at start
  rw [encode_dmalpend hk] at finish
  exact ⟨t, answer, frame, record, start, moved, finish, others⟩

end Sys2Proof.Machine
end

section
/-! PROOFS. What the synthesizer's encoder commands do in a row (R525..R542): the bytes each phase emits into a buffer
with no open loop, or that it runs out of space. -/

namespace Sys2Proof.Machine

/-! ## Encoder commands in a row (R542) -/

/-- Further commands go on with the buffer the first ones leave. -/
theorem runOps_append_ok {xs ys : List EncOp} {P P' : Buffer} {m m' : Memory}
    (run : runOps xs P m = (m', .ok P')) : runOps (xs ++ ys) P m = runOps ys P' m' := by
  induction xs generalizing P m with
  | nil =>
    cases run
    rfl
  | cons op xs ih =>
    rw [runOps] at run
    rw [List.cons_append, runOps]
    cases edit : encodeOp op P fun i => memRead m (P.addr i).toNat with
    | error e => simp [edit] at run
    | ok ed =>
      rw [edit] at run
      exact ih run

/-- A failing command ends the row. -/
theorem runOps_append_error {xs ys : List EncOp} {P : Buffer} {m m' : Memory} {e : Status}
    (run : runOps xs P m = (m', .error e)) : runOps (xs ++ ys) P m = (m', .error e) := by
  induction xs generalizing P m with
  | nil => cases run
  | cons op xs ih =>
    rw [runOps] at run
    rw [List.cons_append, runOps]
    cases edit : encodeOp op P fun i => memRead m (P.addr i).toNat with
    | error e => rwa [edit] at run
    | ok ed =>
      rw [edit] at run
      exact ih run

/-- Whatever the commands do, memory stays canonical. -/
theorem runOps_wf {ops : List EncOp} {P : Buffer} {m : Memory} (hm : m.wf = true) : (runOps ops P m).1.wf = true := by
  induction ops generalizing P m with
  | nil => exact hm
  | cons op ops ih =>
    rw [runOps]
    cases encodeOp op P fun i => memRead m (P.addr i).toNat with
    | error e => exact hm
    | ok ed => exact ih (applyWrites_wf hm)

/-! ## Emission of a known number of bytes -/

/-- No loop of the buffer is open (R104). -/
def Buffer.closed (P : Buffer) : Prop := P.ctrMask = 0 ∧ P.loops = []

/-- On a buffer with no open loop and at least `len` bytes, the commands emit `k` bytes and leave no loop open, or,
where these and the sentinel have no room, fail for lack of space. -/
def Emits (len : Nat) (ops : List EncOp) (k : Nat) : Prop :=
  ∀ (P : Buffer) (m : Memory), P.closed → len ≤ P.len → P.len < P.cap →
    (P.len + k < P.cap → ∃ m', runOps ops P m = (m', .ok { P with len := P.len + k })) ∧
    (P.cap ≤ P.len + k → ∃ m', runOps ops P m = (m', .error .noSpace))

section
variable {len j k : Nat} {xs ys : List EncOp} {op : EncOp}

/-- No commands emit nothing. -/
theorem Emits.nil : Emits len [] 0 :=
  fun _ m _ _ room => ⟨fun _ => ⟨m, rfl⟩, fun full => absurd room (Nat.not_lt.2 full)⟩

/-- One command that makes its edit where there is room. -/
theorem Emits.single
    (fits : ∀ (P : Buffer) (c : Nat → Byte), P.closed → len ≤ P.len → P.len + k < P.cap →
      ∃ ws, encodeOp op P c = .ok { buffer := { P with len := P.len + k }, writes := ws })
    (full : ∀ (P : Buffer) (c : Nat → Byte), P.closed → len ≤ P.len → P.cap ≤ P.len + k →
      encodeOp op P c = .error .noSpace) : Emits len [op] k := by
  intro P m closed least _
  constructor
  · intro room
    obtain ⟨ws, edit⟩ := fits P (fun i => memRead m (P.addr i).toNat) closed least room
    exact ⟨applyWrites P ws m, by rw [runOps, edit]; rfl⟩
  · intro noRoom
    exact ⟨m, by rw [runOps, full P _ closed least noRoom]⟩

/-- Two rows of commands, the second on at least the bytes that the first leaves. -/
theorem Emits.append (first : Emits len xs j) (second : Emits (len + j) ys k) : Emits len (xs ++ ys) (j + k) := by
  intro P m closed least room
  obtain ⟨firstFits, firstFull⟩ := first P m closed least room
  by_cases between : P.len + j < P.cap
  · obtain ⟨m', run⟩ := firstFits between
    rw [runOps_append_ok run, ← Nat.add_assoc]
    exact second { P with len := P.len + j } m' closed (Nat.add_le_add_right least j) between
  · obtain ⟨m', run⟩ := firstFull (Nat.not_lt.1 between)
    exact ⟨fun _ => by omega, fun _ => ⟨m', runOps_append_error run⟩⟩

/-- A command in front of others. -/
theorem Emits.cons (first : Emits len [op] j) (others : Emits (len + j) ys k) : Emits len (op :: ys) (j + k) :=
  first.append others

/-- A choice between two rows. -/
theorem Emits.ite {c : Prop} [Decidable c] (yes : c → Emits len xs j) (no : ¬ c → Emits len ys k) :
    Emits len (if c then xs else ys) (if c then j else k) := by
  by_cases h : c
  · rw [if_pos h, if_pos h]
    exact yes h
  · rw [if_neg h, if_neg h]
    exact no h

/-! ## One encoder command -/

/-- A command that appends one instruction emits that instruction's bytes. -/
theorem emits_instr {i : Instr} (h : appendedInstr op = some i) : Emits len [op] (encode i).length := by
  refine .single (fun P c _ _ room => ⟨(appendBytes P (encode i)).writes, ?_⟩) fun P c _ _ full => ?_
  · rw [encodeOp_append P c h, emit_room room]
    rfl
  · rw [encodeOp_append P c h, emit_full (Nat.lt_succ_of_le full)]

theorem emits_mov (rd : RegId) (v : Word) : Emits len [.mov (some rd) v] 6 := emits_instr (i := .dmamov rd v) rfl

theorem emits_load : Emits len [.load (some .always)] 1 := emits_instr (i := .dmald) rfl

theorem emits_store : Emits len [.store (some .always)] 1 := emits_instr (i := .dmast) rfl

theorem emits_storeZero : Emits len [.storeZero] 1 := emits_instr (i := .dmastz) rfl

theorem emits_writeBarrier : Emits len [.writeBarrier] 1 := emits_instr (i := .dmawmb) rfl

theorem emits_endProgram : Emits len [.endProgram] 1 := emits_instr (i := .dmaend) rfl

/-- The completion event of a channel is none that R430 refuses. -/
theorem emits_sendEvent {n : Nat} (channel : n ≤ 7) : Emits len [.sendEvent n] 2 := by
  have appended : appendedInstr (.sendEvent n) = some (.dmasev ⟨n, by omega⟩) := by
    rw [appendedInstr, dif_pos (show n < 32 by omega), if_neg (show n ≠ 8 by omega)]
  exact emits_instr appended

/-- A loop around the last `body` bytes is wrapped in its two instructions (R423). -/
theorem emits_chLoop {n body : Nat} (k : LoopCtr) (pos : 1 ≤ n) (max : n ≤ 256) (inside : body ≤ len)
    (short : body ≤ 255) : Emits len [.chLoop (ctrIndex k) n body] 4 := by
  have legal := loopOperands_legal (loopCtrOf_eq_some.2 rfl : loopCtrOf (ctrIndex k) = some k) pos max
  have free {P : Buffer} (closed : P.closed) : P.reserved k = false := by
    simp [Buffer.reserved, closed.1]
  have whole {P : Buffer} (closed : P.closed) (least : len ≤ P.len) : body ≤ P.len - P.floor := by
    have floor : P.floor = 0 := by rw [Buffer.floor, closed.2]; rfl
    omega
  exact .single
    (fun P c closed least room => ⟨_, chLoopEdit_ok legal (free closed) short (whole closed least) room⟩)
    (fun P c closed least full =>
      chLoopEdit_noSpace legal (free closed) short (whole closed least) (Nat.lt_succ_of_le full))

end

/-! ## The phases of a transfer (R525..R540) and their bytes (R543) -/

section
variable {len : Nat} {prm : LegalParams} {q : Quantities}

theorem transferLen_le (zero : Bool) : transferLen zero ≤ 2 := by
  cases zero <;> decide

/-- R543 counts a phase at `0 < n` that the emission leaves out at `n = 0`. -/
theorem ite_pos_eq (n k : Nat) : (if 0 < n then k else 0) = if n = 0 then 0 else k := by
  cases n <;> rfl

/-- One transfer (R525). -/
theorem emits_transferOps (zero : Bool) : Emits len (transferOps zero) (transferLen zero) :=
  .ite (fun _ => emits_storeZero) fun _ => emits_load.cons emits_store

/-- The address moves (R526). -/
theorem emits_moveOps (W : Word) : Emits len (moveOps q W) 12 := (emits_mov _ _).cons (emits_mov _ _)

/-- The bytes before the first aligned source address (R530). -/
theorem emits_prefixOps : Emits len (prefixOps prm q)
    (if 0 < q.readInitial then (if q.zero then 7 else 7 + (if 0 < q.prefixStore then 1 else 0)) else 0) := by
  have stored : Emits (len + 7) (if 0 < q.prefixStore then [.store (some .always)] else [])
      (if 0 < q.prefixStore then 1 else 0) := .ite (fun _ => emits_store) fun _ => .nil
  rw [ite_pos_eq]
  exact .ite (fun _ => .nil) fun _ => .ite (fun _ => (emits_mov _ _).cons emits_storeZero)
    fun _ => ((emits_mov _ _).cons emits_load).append stored

/-- A group of at most 256 full bursts (R532): every loop body lies in what the group has just emitted. -/
theorem emits_groupOps {g : Nat} (max : g ≤ 256) : Emits len (groupOps prm q g)
    (6 + (transferLen q.zero + (if prm.burstEnable then 0 else 4)) + (if 2 ≤ g then 4 else 0)) := by
  have small := transferLen_le q.zero
  have inner : Emits (len + (6 + transferLen q.zero))
      (if prm.burstEnable then [] else [.chLoop 1 16 (transferLen q.zero)]) (if prm.burstEnable then 0 else 4) :=
    .ite (fun _ => .nil) fun _ => emits_chLoop .lc1 (by decide) (by decide) (by omega) (by omega)
  have outer : Emits (len + (6 + transferLen q.zero + if prm.burstEnable then 0 else 4))
      (if 2 ≤ g then [.chLoop 0 g (if prm.burstEnable then transferLen q.zero else transferLen q.zero + 4)] else [])
      (if 2 ≤ g then 4 else 0) := by
    refine .ite (fun two => emits_chLoop .lc0 (by omega) max ?_ ?_) fun _ => .nil
    all_goals
      split <;> omega
  rw [← Nat.add_assoc 6]
  exact (((emits_mov _ _).append (emits_transferOps _)).append inner).append outer

/-- The groups hold at most 256 bursts each (R531). -/
theorem groupSizes_le {F g : Nat} (hg : g ∈ groupSizes F) : g ≤ 256 := by
  rw [groupSizes, List.mem_append] at hg
  rcases hg with whole | rest
  · exact (List.eq_of_mem_replicate whole).le
  · split at rest
    · cases rest
    · rw [List.mem_singleton] at rest
      omega

/-- All groups, one after the other (R531). -/
theorem emits_groups {gs : List Nat} (max : ∀ g ∈ gs, g ≤ 256) : Emits len (gs.flatMap (groupOps prm q))
    (gs.map fun g =>
      6 + (transferLen q.zero + (if prm.burstEnable then 0 else 4)) + (if 2 ≤ g then 4 else 0)).sum := by
  induction gs generalizing len with
  | nil => exact .nil
  | cons g gs ih =>
    rw [List.flatMap_cons, List.map_cons, List.sum_cons]
    exact (emits_groupOps (max g List.mem_cons_self)).append (ih fun g' hg => max g' (List.mem_cons_of_mem g hg))

/-- The remainder burst (R533), of less than 16 beats. -/
theorem emits_remainderOps (beats : q.remainder < 16) : Emits len (remainderOps prm q)
    (if 0 < q.remainder then
      6 + transferLen q.zero + (if !prm.burstEnable && decide (2 ≤ q.remainder) then 4 else 0) else 0) := by
  have small := transferLen_le q.zero
  have looped (beat : q.remainder ≠ 0) : Emits (len + (6 + transferLen q.zero))
      (if !prm.burstEnable && decide (2 ≤ q.remainder) then [.chLoop 1 q.remainder (transferLen q.zero)] else [])
      (if !prm.burstEnable && decide (2 ≤ q.remainder) then 4 else 0) :=
    .ite (fun _ => emits_chLoop .lc1 (by omega) (by omega) (by omega) (by omega)) fun _ => .nil
  rw [ite_pos_eq]
  exact .ite (fun _ => .nil) fun beat => ((emits_mov _ _).append (emits_transferOps _)).append (looped beat)

/-- The bytes behind the last whole beat (R534). -/
theorem emits_suffixOps : Emits len (suffixOps prm q) (if 0 < q.suffix then 6 + transferLen q.zero else 0) := by
  rw [ite_pos_eq]
  refine .ite (fun _ => .nil) fun _ => ?_
  rw [transferLen, add_ite]
  exact .ite (fun _ => (emits_mov _ _).cons emits_storeZero)
    fun _ => (emits_mov _ _).cons (emits_load.cons emits_store)

/-- The final store (R535). -/
theorem emits_finalOps : Emits len (finalOps prm q) (if q.suffix = 0 ∧ 0 < q.lag then 7 else 0) :=
  .ite (fun _ => (emits_mov _ _).cons emits_store) fun _ => .nil

/-- The completion barrier and event (R540). -/
theorem emits_completionOps (channel : prm.channel ≤ 7) : Emits len (completionOps prm)
    ((if prm.srcType = .memory ∧ prm.dstType = .memory then 1 else 0) + (if prm.completionEvent then 2 else 0)) :=
  .append (.ite (fun _ => emits_writeBarrier) fun _ => .nil) (.ite (fun _ => emits_sendEvent channel) fun _ => .nil)

end

/-! ## The whole program (R504, R541, R543) -/

/-- A program is commands that emit all bytes of R543 but the last, and then the END instruction (R541). -/
theorem planOps_endProgram {prm : LegalParams} {R W L : Word} (channel : prm.channel ≤ 7) :
    ∃ ops k, planOps prm R W L = ops ++ [.endProgram] ∧ synthLength prm R W L = k + 1 ∧ Emits 0 ops k := by
  by_cases empty : L = 0
  · exact ⟨[], 0, if_pos empty, if_pos empty, .nil⟩
  · have beats : (quantities prm R W L).remainder < 16 := Nat.mod_lt _ (by decide)
    refine ⟨_, _, if_neg empty, if_neg empty, ?_⟩
    rw [Nat.add_assoc _ (ite _ 1 0)]
    exact (((((emits_moveOps W).append emits_prefixOps).append (emits_groups fun _ => groupSizes_le)).append
      (emits_remainderOps beats)).append emits_suffixOps).append emits_finalOps |>.append (emits_completionOps channel)

/-- The whole program emits the bytes of R543. -/
theorem emits_plan {prm : LegalParams} {R W L : Word} (channel : prm.channel ≤ 7) :
    Emits 0 (planOps prm R W L) (synthLength prm R W L) := by
  obtain ⟨ops, k, plan, length, emits⟩ := planOps_endProgram (R := R) (W := W) (L := L) channel
  rw [plan, length]
  exact emits.append emits_endProgram

/-- A program that fits ends in the END instruction, and the END sentinel stands behind it (R541). -/
theorem runOps_plan_ends {prm : LegalParams} {R W L : Word} {P P' : Buffer} {m m' : Memory}
    (channel : prm.channel ≤ 7) (closed : P.closed) (cap : P.cap < 2 ^ 32) (hm : m.wf = true) (fits : P.len + synthLength prm R W L < P.cap)
    (run : runOps (planOps prm R W L) P m = (m', .ok P')) :
    memRead m' (P'.addr (P'.len - 1)).toNat = 0x00 ∧ memRead m' (P'.addr P'.len).toNat = 0x00 := by
  obtain ⟨ops, k, plan, length, emits⟩ := planOps_endProgram (R := R) (W := W) (L := L) channel
  rw [length] at fits
  obtain ⟨u, before⟩ := (emits P m closed (Nat.zero_le _) (by omega)).1 (by omega)
  have hu : u.wf = true := by
    have := runOps_wf (ops := ops) (P := P) hm
    rwa [before] at this
  have last : runOps [.endProgram] { P with len := P.len + k } u =
      (applyWrites P (appendBytes { P with len := P.len + k } [0x00]).writes u,
        .ok { P with len := P.len + k + 1 }) := by
    have room : ({ P with len := P.len + k } : Buffer).len + (encode .dmaend).length + 1 ≤ P.cap := fits
    rw [runOps, encodeOp_append (i := .dmaend) _ _ rfl, emit_room room]
    rfl
  rw [plan, runOps_append_ok before, last] at run
  cases run
  obtain ⟨written, -⟩ := appendBytes_read (P := { P with len := P.len + k }) (bs := [0x00]) hu (by simp; omega)
  exact ⟨written 0 (by decide), written 1 (by decide)⟩

end Sys2Proof.Machine
end

section
/-! PROOFS. The claims on the synthesizer (41_synthesizer.md): what it answers by the run of its commands, when a strict
transfer is misaligned, and the two statements. -/

namespace Sys2Proof.Machine

/-! ## What the checks give (R501) -/

/-- A burst width that passes the checks is 1, 2, 4 or 8 (R15). -/
theorem legalWidth_pow {B : Nat} (legal : legalWidth B = true) : ∃ k < 4, B = 2 ^ k := by
  simp only [legalWidth, Bool.or_eq_true, beq_iff_eq] at legal
  obtain ((rfl | rfl) | rfl) | rfl := legal
  · exact ⟨0, by decide, rfl⟩
  · exact ⟨1, by decide, rfl⟩
  · exact ⟨2, by decide, rfl⟩
  · exact ⟨3, by decide, rfl⟩

/-- Parameters that pass the checks have a legal burst width and name one of the 8 channels. -/
theorem checkParams_ok {prm : XferParams} {lp : LegalParams} (checked : checkParams prm = .ok lp) :
    legalWidth lp.burstBytes = true ∧ lp.channel ≤ 7 := by
  unfold checkParams at checked
  split at checked
  · split_ifs at checked with kinds width channel
    cases checked
    exact ⟨by simpa using width, Nat.not_lt.1 channel⟩
  · cases checked

/-! ## Alignment (R510, R511) -/

/-- Of a transfer that is not empty, a skew is 0 exactly when the address is a multiple of the burst width. -/
theorem skew_eq_zero {B : Nat} {a L : Word} (legal : legalWidth B = true) (hL : L ≠ 0) :
    skew a B L = 0 ↔ a.toNat % B = 0 := by
  obtain ⟨k, hk, rfl⟩ := legalWidth_pow legal
  have length : L.toNat ≠ 0 := fun h => hL (BitVec.eq_of_toNat_eq h)
  have mask : (BitVec.ofNat 32 (2 ^ k) - 1).toNat = 2 ^ k - 1 := by
    interval_cases k <;> rfl
  have toNext : ((0 - a) &&& (BitVec.ofNat 32 (2 ^ k) - 1)).toNat = (2 ^ 32 - a.toNat) % 2 ^ 32 % 2 ^ k := by
    rw [BitVec.toNat_and, mask, Nat.and_two_pow_sub_one_eq_mod, BitVec.toNat_sub]
    rfl
  have bound := a.isLt
  rw [skew, toNext, Nat.min_eq_zero_iff, or_iff_left length]
  interval_cases k <;> omega

/-- A transfer is misaligned exactly when it needs strict alignment, is not empty, and an address or the length is no
multiple of the burst width; a zero-fill source has no address. -/
theorem misaligned_iff {lp : LegalParams} {R W L : Word} (legal : legalWidth lp.burstBytes = true) :
    misaligned lp (quantities lp R W L) L = true ↔
      (lp.srcType = .register ∨ lp.dstType = .register ∨ lp.swap ≠ .none) ∧ L ≠ 0 ∧
        ((lp.srcType ≠ .zero ∧ R.toNat % lp.burstBytes ≠ 0) ∨
          W.toNat % lp.burstBytes ≠ 0 ∨ L.toNat % lp.burstBytes ≠ 0) := by
  by_cases empty : L = 0
  · simp [misaligned, empty]
  · have length : 0 < L.toNat := Nat.pos_of_ne_zero fun h => empty (BitVec.eq_of_toNat_eq h)
    have source : (quantities lp R W L).readInitial ≠ 0 ↔
        (if lp.srcType = .zero then W else R).toNat % lp.burstBytes ≠ 0 := by
      simp [quantities, skew_eq_zero legal empty]
    have destination : (quantities lp R W L).writeInitial ≠ 0 ↔ W.toNat % lp.burstBytes ≠ 0 :=
      not_congr (skew_eq_zero legal empty)
    simp only [misaligned, LegalParams.strict, Bool.and_eq_true, Bool.or_eq_true, bne_iff_ne, beq_iff_eq,
      decide_eq_true_eq, source, destination]
    have nonempty : L ≠ 0#32 := empty
    by_cases zero : lp.srcType = .zero <;> simp [zero, nonempty, length, or_assoc]

/-! ## The answer of the synthesizer (R500, R502, R542) -/

/-- The buffer the synthesizer emits into (R106, R502). -/
def synthBuffer (s : State) (e : Env) : Buffer :=
  { freshBuffer s.platform.synthCapacity.toNat e.allocBase with autoFree := true }

/-- Memory once that buffer is allocated: its END sentinel is written (R400). -/
def synthMemory (s : State) (e : Env) : Memory :=
  applyWrites (freshBuffer s.platform.synthCapacity.toNat e.allocBase) [(0, 0x00)] s.mem

theorem synthBuffer_closed (s : State) (e : Env) : (synthBuffer s e).closed := ⟨rfl, rfl⟩

section
variable {s : State} {e : Env} {chk : Chunk} {prm : XferParams} {lp : LegalParams}

/-- A misaligned transfer is refused with nothing changed (R511). -/
theorem synthesize_misaligned (checked : checkParams prm = .ok lp)
    (bad : misaligned lp (quantities lp chk.readAddr chk.writeAddr chk.length) chk.length = true) :
    synthesize e chk prm s = (s, .error .alignment) := by
  rw [synthesize, checked]
  exact if_pos bad

/-- Without storage there is no program (R400). -/
theorem synthesize_noStorage (checked : checkParams prm = .ok lp)
    (aligned : misaligned lp (quantities lp chk.readAddr chk.writeAddr chk.length) chk.length = false)
    (absent : s.platform.synthCapacity.toNat < 1 ∨ e.allocOk = false) :
    ∃ st, synthesize e chk prm s = (s, .error st) ∧ (st = .noSpace ∨ st = .nullptr) := by
  have failed : ∃ st, allocBuffer s.platform.synthCapacity e.allocBase e.allocOk s = .error st ∧
      (st = .noSpace ∨ st = .nullptr) := by
    unfold allocBuffer
    split
    · exact ⟨_, rfl, .inl rfl⟩
    · rename_i size
      rw [absent.resolve_left size]
      exact ⟨_, rfl, .inr rfl⟩
  obtain ⟨st, storage, which⟩ := failed
  refine ⟨st, ?_, which⟩
  rw [synthesize, checked]
  dsimp only
  rw [aligned, storage]
  rfl

/-- With storage the synthesizer answers as its commands end on the new buffer. -/
theorem synthesize_run {m : Memory} {r : Except Status Buffer} (checked : checkParams prm = .ok lp)
    (aligned : misaligned lp (quantities lp chk.readAddr chk.writeAddr chk.length) chk.length = false)
    (size : 0 < s.platform.synthCapacity.toNat) (obtained : e.allocOk = true)
    (run : runOps (planOps lp chk.readAddr chk.writeAddr chk.length) (synthBuffer s e) (synthMemory s e) = (m, r)) :
    synthesize e chk prm s = ({ s with mem := m },
      r.map fun P => (P, ccrValues (planOps lp chk.readAddr chk.writeAddr chk.length))) := by
  have storage : allocBuffer s.platform.synthCapacity e.allocBase e.allocOk s =
      .ok ({ s with mem := synthMemory s e }, freshBuffer s.platform.synthCapacity.toNat e.allocBase) := by
    rw [allocBuffer, if_neg (Nat.not_lt.2 size), if_pos obtained]
    rfl
  rw [synthBuffer] at run
  rw [synthesize, checked]
  dsimp only
  rw [aligned, storage]
  simp only [Bool.false_eq_true, if_false, run]
  cases r <;> rfl

/-- An aligned transfer never fails with ERR_ALIGNMENT: storage or space may lack, and nothing else. -/
theorem synthesize_aligned (checked : checkParams prm = .ok lp)
    (aligned : misaligned lp (quantities lp chk.readAddr chk.writeAddr chk.length) chk.length = false) :
    (synthesize e chk prm s).2 ≠ .error .alignment := by
  by_cases absent : s.platform.synthCapacity.toNat < 1 ∨ e.allocOk = false
  · obtain ⟨st, failed, rfl | rfl⟩ := synthesize_noStorage checked aligned absent
    all_goals
      rw [failed]
      nofun
  · rw [not_or, Nat.not_lt, Bool.not_eq_false] at absent
    obtain ⟨size, obtained⟩ := absent
    obtain ⟨fits, full⟩ := emits_plan (checkParams_ok checked).2 (synthBuffer s e) (synthMemory s e)
      (synthBuffer_closed s e) (Nat.zero_le _) size
    rcases Nat.lt_or_ge _ _ with room | noRoom
    · obtain ⟨m, run⟩ := fits room
      rw [synthesize_run checked aligned size obtained run]
      nofun
    · obtain ⟨m, run⟩ := full noRoom
      rw [synthesize_run checked aligned size obtained run]
      nofun

end

/-! ## The statements -/

/-- Settles O43: the program's commands emit the bytes of R543 into the new buffer, the END instruction last, or run out
of space. -/
theorem synthesizedProgram : Obligations.SynthesizedProgram := by
  intro s e chk prm lp checked obtained size hm aligned len
  obtain ⟨-, channel⟩ := checkParams_ok checked
  have closed := synthBuffer_closed s e
  have empty : (synthBuffer s e).len + len = len := Nat.zero_add len
  obtain ⟨fits, full⟩ := emits_plan (R := chk.readAddr) (W := chk.writeAddr) (L := chk.length) channel
    (synthBuffer s e) (synthMemory s e) closed (Nat.zero_le _) size
  constructor
  · intro room
    have inside : (synthBuffer s e).len + len < (synthBuffer s e).cap := empty.symm ▸ room
    obtain ⟨m, run⟩ := fits inside
    obtain ⟨last, sentinel⟩ := runOps_plan_ends channel closed s.platform.synthCapacity.isLt (applyWrites_wf hm)
      inside run
    exact ⟨_, _, _, synthesize_run checked aligned size obtained run, empty, rfl, rfl, rfl, rfl, rfl, rfl, rfl,
      inside, last, sentinel, rfl, rfl, rfl⟩
  · intro noRoom
    have outside : (synthBuffer s e).cap ≤ (synthBuffer s e).len + len := empty.symm ▸ Nat.le_of_lt_succ noRoom
    obtain ⟨m, run⟩ := full outside
    exact ⟨_, synthesize_run checked aligned size obtained run, rfl⟩

/-- Settles O44: the misaligned transfer is refused before the allocation, and nothing after it fails with
ERR_ALIGNMENT. -/
theorem strictAlignment : Obligations.StrictAlignment := by
  intro s e chk prm lp checked
  rw [← misaligned_iff (checkParams_ok checked).1]
  constructor
  · intro answer
    by_contra aligned
    exact synthesize_aligned checked (Bool.eq_false_iff.2 aligned) (congrArg Prod.snd answer)
  · exact synthesize_misaligned checked

end Sys2Proof.Machine
end

section
/-! PROOFS. The claims on the channel state machine (42_channel_fsm.md): the checks that every command on a context
makes first, what reconciliation leaves in each field of the context, and the modes of abort. -/

namespace Sys2Proof.Machine

/-! ## The checks of R602 are those of `onContext` and `onCtxChannel` -/

section
variable {cmd : Command} {r : CtxRef} (e : Env) (s : State)

/-- Every command that takes a context makes the checks of `onContext`; only `isInitialised`, whose answer they are,
makes them itself (R731). -/
theorem command_onContext (takes : commandCtx cmd = some r) :
    cmd = .isInitialised r ∨ ∃ f, command cmd e s = onContext r s f := by
  cases cmd
  case isInitialised =>
    cases takes
    exact .inl rfl
  all_goals cases takes
  all_goals exact .inr ⟨_, rfl⟩

/-- Every command on one channel makes the checks of `onCtxChannel`. -/
theorem command_onCtxChannel {ch : Nat} (takes : commandCtx cmd = some r) (names : commandChannel cmd = some ch) :
    ∃ f, command cmd e s = onCtxChannel r ch s f := by
  cases cmd
  all_goals cases names
  all_goals cases takes
  all_goals
    dsimp only [command, cmdSetupTransferProgram, cmdStartTransferCh, cmdBusyCh, cmdTransferError, cmdCheckState,
      cmdCompletedCh, cmdAbortedCh, pollCh]
    exact ⟨_, rfl⟩

variable {s}

/-- `isInitialised` without a context (R731, R810). -/
theorem cmdIsInitialised_null (absent : r = .null ∨ s.ctx = none) :
    cmdIsInitialised r s = replyStatus s .nullptr := by
  cases r
  case null => rfl
  case ctx => simp only [cmdIsInitialised, absent.resolve_left nofun]

/-- `isInitialised` of an uninitialised context (R731). -/
theorem cmdIsInitialised_notReady {c : Context} (hc : s.ctx = some c) (hi : c.initialised = false) :
    cmdIsInitialised .ctx s = replyStatus s .notReady := by
  simp [cmdIsInitialised, hc, hi]

end

/-- Settles O46: each check is that of the operation the command begins with. -/
theorem contextChecks : Obligations.ContextChecks := by
  intro s cmd e r takes
  refine ⟨fun absent => ?noContext, fun c hr hc hi => ?uninitialised, fun c ch hr hc hi names high => ?noChannel⟩
  case noContext =>
    obtain rfl | ⟨f, same⟩ := command_onContext e s takes
    · exact cmdIsInitialised_null absent
    · exact same.trans (onContext_null absent f)
  case uninitialised =>
    subst hr
    obtain rfl | ⟨f, same⟩ := command_onContext e s takes
    · exact cmdIsInitialised_notReady hc hi
    · exact same.trans (onContext_notReady hc hi f)
  case noChannel =>
    subst hr
    obtain ⟨f, same⟩ := command_onCtxChannel e s takes names
    exact same.trans (onCtxChannel_range hc hi high f)

/-! ## Reconciliation (R620, R621, R656) -/

/-- An abort stays pending exactly while some channel is neither Free nor Aborted (R656). -/
theorem clearAbortPending_abortPending (c : Context) : (clearAbortPending c).abortPending = true ↔
    c.abortPending = true ∧ ∃ ch : Fin 8, c.chState[ch] ≠ .free ∧ c.chState[ch] ≠ .aborted := by
  simp [clearAbortPending_eq, mem_allChannels]

/-- Settles O50: the fields that `ReconcileCh` of all channels leaves, of which the end of a pending abort changes that
flag alone. -/
theorem reconcileReads : Obligations.ReconcileReads := by
  intro s c quiet
  obtain ⟨-, pending, mgrFault, abortPending, -, -, channels⟩ := reconcileChs_fields quiet s.engine.fsrc allChannels
    (by decide) { c with mgrFault := if s.engine.fsrd.getLsbD 0 then s.engine.ftrd else 0 }
  rw [reconcile_quiet quiet]
  generalize (reconcileChs s.engine.fsrc allChannels _ s).1 = r at *
  dsimp only
  refine ⟨rfl, ?pending, ?mgrFault, ?abortPending, fun ch => ?channel⟩
  case abortPending => rw [clearAbortPending_abortPending, abortPending, clearAbortPending_eq]
  all_goals rw [clearAbortPending_eq]
  case pending => exact pending
  case mgrFault => exact mgrFault
  case channel =>
    obtain ⟨state, fault, ack⟩ := channels ch
    simp only [mem_allChannels, if_true, true_and] at state fault ack
    exact ⟨state, fault, ack⟩

/-! ## Abort (R650..R653) -/

/-- A safe abort finds nothing to kill where every channel is Free (R651). -/
theorem abortSafe_free {c : Context} (free : ∀ ch : Fin 8, c.chState[ch] = .free) (s : State) :
    abortSafe c s = ctxReply c s .skipped 0 := by
  have nothing : c.channels (· != .free) = [] := List.filter_eq_nil_iff.2 fun ch _ => by rw [free ch]; decide
  rw [abortSafe, nothing]
  rfl

section
variable {s : State} {c : Context} (hc : s.ctx = some c) (hi : c.initialised = true)
include hc hi

/-! ### `abort` by its mode, on an initialised context (R650) -/

theorem cmdAbort_none : cmdAbort .ctx (some .none) s = replyStatus s .skipped :=
  (onContext_ready hc hi _).trans (putContext_same hc _ _)

theorem cmdAbort_unknown : cmdAbort .ctx none s = replyStatus s .noSupport :=
  (onContext_ready hc hi _).trans (putContext_same hc _ _)

theorem cmdAbort_safe : cmdAbort .ctx (some .safe) s = andThen (abortSafe c s) putContext :=
  onContext_ready hc hi _

theorem cmdAbort_force : cmdAbort .ctx (some .force) s = andThen (abortForce c s) putContext :=
  onContext_ready hc hi _

/-- A safe abort with every channel Free leaves the context as it was. -/
theorem cmdAbort_safe_free (free : ∀ ch : Fin 8, c.chState[ch] = .free) :
    cmdAbort .ctx (some .safe) s = replyStatus s .skipped := by
  rw [cmdAbort_safe hc hi, abortSafe_free free]
  exact putContext_same hc _ _

end

/-- Settles O54: the skipped and the unknown modes put the context back as it was, and the forced abort is the
controller reset together with the new channel states. -/
theorem abortModes : Obligations.AbortModes := by
  rintro s c ⟨hc, hi, -⟩
  refine ⟨cmdAbort_none hc hi, cmdAbort_unknown hc hi, cmdAbort_safe_free hc hi, ?force⟩
  case force =>
    exact ⟨_, _, (cmdAbort_force hc hi).trans (putContext_reply _ _ _ _), rfl, abortStates_getElem c.chState, rfl, rfl,
      rfl, rfl, rfl, resetRelease_mem _, resetRelease_buffers _, rfl, rfl⟩

end Sys2Proof.Machine
end

section
/-! PROOFS. The claims on the debug facade (43_debug_facade.md): what each interrupt command reads and writes. -/

namespace Sys2Proof.Machine

/-! ## The interrupt commands with a quiet environment (R750..R752) -/

section
variable {s : State} {c : Context} (quiet : s.quiet c) (mask : Word)
include quiet

/-- A command that writes one register and answers success changes what that write changes in the engine, and nothing
else (R26). -/
theorem onContext_regWrite {r : WrReg} (hr : r ≠ .dbgcmd) (v : Word) :
    onContext .ctx s (fun c => ctxReply c (regWrite c.base r v s) .success 0) =
      replyStatus { s with engine := s.engine.write r v } .success := by
  obtain ⟨hc, hi, idle⟩ := quiet
  rw [onContext_ready hc hi, regWrite_quiet idle c.base hr]
  exact putContext_same (s := { s with engine := s.engine.write r v }) hc .success 0

/-- `irqSetEnable` reads INTEN and writes it back with the mask's bits set or cleared (R750). -/
theorem cmdIrqSetEnable_quiet (enable : Bool) :
    cmdIrqSetEnable .ctx mask enable s =
      replyStatus { s with engine := { s.engine with
        inten := if enable then s.engine.inten ||| mask else s.engine.inten &&& ~~~mask } } .success := by
  have ⟨_, _, idle⟩ := quiet
  simp only [cmdIrqSetEnable, regRead_quiet idle]
  exact onContext_regWrite quiet (by decide) _

/-- `irqFlags` reads INTMIS and changes nothing (R751). -/
theorem cmdIrqFlags_quiet : cmdIrqFlags .ctx mask s = reply s .success (s.engine.intmis &&& mask) := by
  obtain ⟨hc, hi, idle⟩ := quiet
  rw [cmdIrqFlags, onContext_ready hc hi, regRead_quiet idle]
  exact putContext_same hc .success (s.engine.intmis &&& mask)

/-- `irqClear` writes INTCLR, which clears the mask's pending interrupts (R147, R752). -/
theorem cmdIrqClear_quiet :
    cmdIrqClear .ctx mask s =
      replyStatus { s with engine := { s.engine with irqs := s.engine.irqs &&& ~~~mask } } .success :=
  onContext_regWrite quiet (by decide) mask

end

/-- Settles O59: the answers of the three commands, with INTMIS the pending interrupts that INTEN enables (R146). -/
theorem interruptCommands : Obligations.InterruptCommands := by
  intro s c mask quiet
  exact ⟨cmdIrqSetEnable_quiet quiet mask true, cmdIrqSetEnable_quiet quiet mask false,
    cmdIrqFlags_quiet quiet mask, cmdIrqClear_quiet quiet mask⟩

end Sys2Proof.Machine
end

section
/-! PROOFS. The encoder takes back whatever the decoder accepts (R300..R318, R340, R342): the operand byte of each form is
the byte of the fields read from it, and the bytes of an instruction are those its decoding consumed. -/

namespace Sys2Proof

/-! ## The instruction of each length and its bytes (R301..R318, R340) -/

/-- `bs` is the encoding of the instruction, and the instruction is well formed. -/
def IsEncodingOf (bs : List Byte) (i : Instr) : Prop := i.wellFormed = true ∧ bs = encode i

/-- A number accepted from `b1[7:3]` gives the operand byte back: `b1[2:0]` is 0 (R342). -/
theorem numInstr_eq_some {b1 : Byte} {f : Fin 32 → Instr} {i : Instr} (h : numInstr b1 f = some i) :
    ∃ n, b1 = numByte n ∧ i = f n := by
  unfold numInstr at h
  split at h
  · rename_i reserved
    cases h
    exact ⟨fieldNum b1, (numByte_fieldNum b1 reserved).symm, rfl⟩
  · cases h

theorem encode_of_decodeF1 {b0 : Byte} {i : Instr} (h : decodeF1 b0 = some i) : IsEncodingOf [b0] i := by
  unfold decodeF1 at h
  split at h <;> cases h <;> exact ⟨rfl, rfl⟩

/-- The iteration byte holds every count of 1 to 256, less 1 (R314). -/
theorem isEncodingOf_dmalp (c : LoopCtr) (b1 : Byte) : IsEncodingOf [0x20 ||| c.lpBit, b1] (.dmalp c (b1.toNat + 1)) := by
  have bound := b1.isLt
  refine ⟨(wellFormed_dmalp c _).2 (by omega), ?_⟩
  rw [encode, Nat.add_sub_cancel, BitVec.ofNat_toNat, BitVec.setWidth_eq]

theorem isEncodingOf_dmawfe {b1 : Byte} (reserved : b1 &&& 0x05#8 = 0) :
    IsEncodingOf [0x36, b1] (.dmawfe (fieldNum b1) (b1.getLsbD 1)) :=
  ⟨rfl, by rw [encode, wfeByte_of_fields b1 reserved]⟩

theorem encode_of_decodeF2 {b0 b1 : Byte} {i : Instr} (h : decodeF2 b0 b1 = some i) : IsEncodingOf [b0, b1] i := by
  unfold decodeF2 at h
  split at h
  case h_1 | h_2 =>
    cases h
    exact isEncodingOf_dmalp _ b1
  case h_14 =>
    split at h
    · rename_i reserved
      cases h
      exact isEncodingOf_dmawfe reserved
    · cases h
  case h_3 | h_4 | h_6 | h_7 | h_9 | h_10 | h_11 | h_12 | h_13 =>
    obtain ⟨n, rfl, rfl⟩ := numInstr_eq_some h
    exact ⟨rfl, rfl⟩
  all_goals cases h <;> exact ⟨rfl, rfl⟩

theorem encode_of_decodeF3 {b0 b1 b2 : Byte} {i : Instr} (h : decodeF3 b0 b1 b2 = some i) :
    IsEncodingOf [b0, b1, b2] i := by
  have half := extract_ofLe16 b1 b2
  unfold decodeF3 at h
  split at h <;> cases h <;> refine ⟨rfl, ?_⟩
  all_goals
    rw [encode, le16, half.1, half.2]
    rfl

/-- The register an id byte names has that id (R312). -/
theorem id_of_regOfByte {b1 : Byte} {rd : RegId} (h : regOfByte b1 = some rd) : rd.id = b1 := by
  unfold regOfByte at h
  split_ifs at h <;> cases h <;> exact Eq.symm ‹_›

theorem encode_of_decodeF6 {b0 b1 : Byte} {imm : Word} {i : Instr} (h : decodeF6 b0 b1 imm = some i) :
    IsEncodingOf (b0 :: b1 :: le32 imm) i := by
  unfold decodeF6 at h
  split at h
  case h_1 | h_2 =>
    split at h
    · rename_i reserved
      cases h
      exact ⟨rfl, by rw [encode, chanByte_fieldChan b1 reserved]; rfl⟩
    · cases h
  case h_3 =>
    obtain ⟨rd, register, rfl⟩ := Option.map_eq_some_iff.1 h
    exact ⟨rfl, by rw [encode, id_of_regOfByte register]; rfl⟩
  case h_4 => cases h

/-! ## The round trip -/

/-- What decoding an operand accepts is what its form gives, with the bytes after it. -/
theorem decoded_ok {b0 b1 : Byte} {o : Option Instr} {i : Instr} {after rest : List Byte}
    (h : decoded b0 b1 o after = .ok (i, rest)) : o = some i ∧ after = rest := by
  cases o <;> cases h
  exact ⟨rfl, rfl⟩

/-- The word of four bytes gives the bytes back (R205, R310). -/
theorem le32_ofLe32 (b0 b1 b2 b3 : Byte) : le32 (ofLe32 b0 b1 b2 b3) = [b0, b1, b2, b3] := by
  obtain ⟨h0, h1, h2, h3⟩ := byteOf_ofLe32 b0 b1 b2 b3
  rw [le32, h0, h1, h2, h3]

/-- Settles O2, length by length: an accepted operand is the encoding of the fields read from it. -/
theorem encodeDecode : Obligations.EncodeDecode := by
  intro bs rest i accepted
  suffices h : ∃ head, IsEncodingOf head i ∧ bs = head ++ rest by
    obtain ⟨_, ⟨wf, rfl⟩, whole⟩ := h
    exact ⟨wf, whole⟩
  unfold decode at accepted
  split at accepted
  · cases accepted
  · rename_i b0 after
    split at accepted
    · split at accepted <;> cases accepted
      exact ⟨[b0], encode_of_decodeF1 ‹_›, rfl⟩
    · split at accepted
      · obtain ⟨form, rfl⟩ := decoded_ok accepted
        exact ⟨[b0, _], encode_of_decodeF2 form, rfl⟩
      · cases accepted
    · split at accepted
      · obtain ⟨form, rfl⟩ := decoded_ok accepted
        exact ⟨[b0, _, _], encode_of_decodeF3 form, rfl⟩
      · cases accepted
    · split at accepted
      · obtain ⟨form, rfl⟩ := decoded_ok accepted
        exact ⟨_, encode_of_decodeF6 form, by rw [le32_ofLe32]; rfl⟩
      · cases accepted
    · cases accepted

/-! ## The examples of the spec -/

/-- Settles O3: the decoder run on each byte string. -/
theorem sampleWordsDecode : Obligations.SampleWordsDecode :=
  ⟨rfl, rfl, rfl, rfl, rfl, rfl, rfl, rfl, rfl⟩

end Sys2Proof
end

section
/-! PROOFS. What an encoder command can do to its buffer, said once: the five kinds of edit, and the bookkeeping of R102
and R104 that each of them keeps. -/

namespace Sys2Proof.Machine

/-! ## The bookkeeping of a buffer (R102, R104) -/

/-- `Buffer.wf` in the terms of lists: the reserved counters are those of the open loops, each once, and the body starts
rise from the outermost loop to the innermost. -/
structure Buffer.Wf (b : Buffer) : Prop where
  fits : b.len < b.cap
  u32 : b.cap < 2 ^ 32
  depth : b.depth = b.loops.length
  mask : ∀ k, b.reserved k = true ↔ k ∈ b.loops.map Prod.fst
  distinct : (b.loops.map Prod.fst).Nodup
  rise : (b.loops.map Prod.snd).Pairwise (· < ·)
  inside : ∀ start ∈ b.loops.map Prod.snd, start ≤ b.len

theorem holdsCtr_iff (l : List (LoopCtr × Nat)) (k : LoopCtr) : holdsCtr l k = true ↔ k ∈ l.map Prod.fst := by
  simp [holdsCtr]

theorem ctrsDistinct_iff (l : List (LoopCtr × Nat)) : ctrsDistinct l = true ↔ (l.map Prod.fst).Nodup := by
  induction l with
  | nil => simp [ctrsDistinct]
  | cons p l ih =>
    have absent : holdsCtr l p.1 = false ↔ p.1 ∉ l.map Prod.fst := by
      rw [← holdsCtr_iff, Bool.not_eq_true]
    rw [ctrsDistinct, Bool.and_eq_true, Bool.not_eq_true', absent, ih, List.map_cons, List.nodup_cons]

theorem startsRise_iff (lo len : Nat) (l : List (LoopCtr × Nat)) :
    startsRise lo len l = true ↔
      (l.map Prod.snd).Pairwise (· < ·) ∧ ∀ start ∈ l.map Prod.snd, lo ≤ start ∧ start ≤ len := by
  induction l generalizing lo with
  | nil => simp [startsRise]
  | cons p l ih =>
    simp only [startsRise, Bool.and_eq_true, decide_eq_true_eq, ih, List.map_cons, List.pairwise_cons,
      List.forall_mem_cons]
    constructor
    · rintro ⟨⟨low, high⟩, rise, rest⟩
      exact ⟨⟨fun x hx => (rest x hx).1, rise⟩, ⟨low, high⟩,
        fun x hx => ⟨by have := (rest x hx).1; omega, (rest x hx).2⟩⟩
    · rintro ⟨⟨above, rise⟩, ⟨low, high⟩, rest⟩
      exact ⟨⟨low, high⟩, rise, fun x hx => ⟨above x hx, (rest x hx).2⟩⟩

theorem buffer_wf_iff (b : Buffer) : b.wf = true ↔ b.Wf := by
  have counters : (b.reserved .lc0 = holdsCtr b.loops .lc0 ∧ b.reserved .lc1 = holdsCtr b.loops .lc1) ↔
      ∀ k, b.reserved k = true ↔ k ∈ b.loops.map Prod.fst := by
    simp only [← holdsCtr_iff, ← Bool.eq_iff_iff]
    exact ⟨fun h k => by cases k <;> simp only [h], fun h => ⟨h .lc0, h .lc1⟩⟩
  simp only [Buffer.wf, Bool.and_eq_true, decide_eq_true_eq, beq_iff_eq, ctrsDistinct_iff, startsRise_iff,
    Nat.zero_le, true_and]
  constructor
  · rintro ⟨⟨⟨⟨⟨⟨fits, u32⟩, depth⟩, zero⟩, one⟩, distinct⟩, rise, inside⟩
    exact ⟨fits, u32, depth, counters.1 ⟨zero, one⟩, distinct, rise, inside⟩
  · rintro ⟨fits, u32, depth, mask, distinct, rise, inside⟩
    obtain ⟨zero, one⟩ := counters.2 mask
    exact ⟨⟨⟨⟨⟨⟨fits, u32⟩, depth⟩, zero⟩, one⟩, distinct⟩, rise, inside⟩

/-- A fresh buffer has no loop to account for (R106). -/
theorem freshBuffer_wf {cap : Nat} (base : Word) (pos : 0 < cap) (u32 : cap < 2 ^ 32) : (freshBuffer cap base).Wf where
  fits := pos
  u32 := u32
  depth := rfl
  mask := fun k => by cases k <;> simp [freshBuffer, Buffer.reserved]
  distinct := .nil
  rise := .nil
  inside := nofun

section
variable {b : Buffer}

/-- The flags and the model's mark play no part. -/
theorem Buffer.Wf.flags (wf : b.Wf) (nonSecure autoFree loose : Bool) :
    ({ b with nonSecure := nonSecure, autoFree := autoFree, loose := loose } : Buffer).Wf :=
  ⟨wf.fits, wf.u32, wf.depth, wf.mask, wf.distinct, wf.rise, wf.inside⟩

/-- The write position moves on within the capacity. -/
theorem Buffer.Wf.grow (wf : b.Wf) {len : Nat} (le : b.len ≤ len) (fits : len < b.cap) :
    ({ b with len := len } : Buffer).Wf :=
  ⟨fits, wf.u32, wf.depth, wf.mask, wf.distinct, wf.rise, fun start h => (wf.inside start h).trans le⟩

/-- A reserved bit is read back, and the other counter's is as it was. -/
theorem openLoop_reserved (b : Buffer) (k j : LoopCtr) (start : Nat) :
    (b.openLoop k start).reserved j = (b.reserved j || j == k) := by
  have set : ∀ m : BitVec 2, (m ||| 1#2 <<< ctrIndex k).getLsbD (ctrIndex j) = (m.getLsbD (ctrIndex j) || j == k) := by
    cases k <;> cases j <;> decide
  exact set b.ctrMask

/-- A released bit is clear, and the other counter's is as it was. -/
theorem closeLoop_reserved (b : Buffer) (k j : LoopCtr) :
    (b.closeLoop k).reserved j = (b.reserved j && j != k) := by
  have clear : ∀ m : BitVec 2,
      (m &&& ~~~(1#2 <<< ctrIndex k)).getLsbD (ctrIndex j) = (m.getLsbD (ctrIndex j) && j != k) := by
    cases k <;> cases j <;> decide
  exact clear b.ctrMask

/-- A loop of a free counter opens with its body above every open one. -/
theorem Buffer.Wf.openLoop (wf : b.Wf) {k : LoopCtr} {start : Nat} (free : b.reserved k = false)
    (above : ∀ outer ∈ b.loops.map Prod.snd, outer < start) (inside : start ≤ b.len) : (b.openLoop k start).Wf where
  fits := wf.fits
  u32 := wf.u32
  depth := by simp [Buffer.openLoop, wf.depth]
  mask := fun j => by rw [openLoop_reserved, Bool.or_eq_true, wf.mask]; simp [Buffer.openLoop]
  distinct := by
    have absent : k ∉ b.loops.map Prod.fst := by simp [← wf.mask, free]
    simp only [Buffer.openLoop, List.map_append, List.map_cons, List.map_nil]
    exact List.nodup_append.2 ⟨wf.distinct, List.nodup_singleton k, fun x hx y hy e => by
      obtain rfl := List.mem_singleton.1 hy
      exact absent (e ▸ hx)⟩
  rise := by
    simp only [Buffer.openLoop, List.map_append, List.map_cons, List.map_nil]
    exact List.pairwise_append.2 ⟨wf.rise, List.pairwise_singleton .., fun x hx y hy => by
      obtain rfl := List.mem_singleton.1 hy
      exact above x hx⟩
  inside := by
    simp only [Buffer.openLoop, List.map_append, List.map_cons, List.map_nil, List.mem_append, List.mem_singleton]
    rintro x (old | rfl)
    · exact wf.inside x old
    · exact inside

/-- A list is its members before the last, and the last. -/
theorem eq_concat_of_getLast? {α : Type} {l : List α} {x : α} (h : l.getLast? = some x) : l = l.dropLast ++ [x] :=
  (List.dropLast_append_getLast? x h).symm

/-- The innermost loop closes. -/
theorem Buffer.Wf.closeLoop (wf : b.Wf) {k : LoopCtr} {start : Nat} (innermost : b.loops.getLast? = some (k, start)) :
    (b.closeLoop k).Wf := by
  have split := eq_concat_of_getLast? innermost
  obtain ⟨fits, u32, depth, mask, distinct, rise, inside⟩ := wf
  rw [split] at distinct rise inside
  simp only [List.map_append, List.map_cons, List.map_nil] at distinct rise inside
  have absent : k ∉ b.loops.dropLast.map Prod.fst := fun h =>
    (List.nodup_append.1 distinct).2.2 k h k (List.mem_singleton.2 rfl) rfl
  refine ⟨fits, u32, ?_, fun j => ?_, (List.nodup_append.1 distinct).1, (List.pairwise_append.1 rise).1,
    fun x hx => inside x (List.mem_append_left _ hx)⟩
  · simp [Buffer.closeLoop, depth]
  · rw [closeLoop_reserved, Bool.and_eq_true, bne_iff_ne, mask j, split, List.map_append, List.mem_append]
    simp only [Buffer.closeLoop, List.map_cons, List.map_nil, List.mem_singleton]
    constructor
    · rintro ⟨outer | last, other⟩
      · exact outer
      · exact absurd last other
    · exact fun outer => ⟨.inl outer, fun e => absent (e ▸ outer)⟩

/-- No body starts above the innermost one's (R421). -/
theorem Buffer.Wf.le_floor (wf : b.Wf) : ∀ start ∈ b.loops.map Prod.snd, start ≤ b.floor := by
  intro x hx
  have rise := wf.rise
  unfold Buffer.floor
  cases last : b.loops.getLast? with
  | none => simp [List.getLast?_eq_none_iff.1 last] at hx
  | some p =>
    rw [eq_concat_of_getLast? last, List.map_append] at hx rise
    rcases List.mem_append.1 hx with outer | innermost
    · exact Nat.le_of_lt ((List.pairwise_append.1 rise).2.2 x outer p.2 (List.mem_singleton.2 rfl))
    · exact Nat.le_of_eq (List.mem_singleton.1 innermost)

end

/-! ## The edits of the encoder commands (R403, R420..R423) -/

/-- What a successful encoder command does to a buffer `P` whose bytes are `content`. -/
inductive EditOf (P : Buffer) (content : Nat → Byte) : Edit → Prop where
  | append (i : Instr) (room : P.len + (encode i).length + 1 ≤ P.cap) : EditOf P content (appendBytes P (encode i))
  | opened (k : LoopCtr) (n : Nat) (free : P.reserved k = false) (room : P.len + 3 ≤ P.cap) :
    EditOf P content {
      buffer := ({ P with len := P.len + 2 } : Buffer).openLoop k (P.len + 2)
      writes := (appendBytes P (encode (.dmalp k n))).writes }
  | inserted (k : LoopCtr) (n body : Nat) (free : P.reserved k = false) (inside : body ≤ P.len - P.floor)
    (room : P.len + 3 ≤ P.cap) : EditOf P content (insertEdit k n body P content)
  | closed (cond : Cond) (k : LoopCtr) (start : Nat) (jump : Byte) (innermost : P.loops.getLast? = some (k, start))
    (room : P.len + 3 ≤ P.cap) :
    EditOf P content {
      buffer := ({ P with len := P.len + 2 } : Buffer).closeLoop k
      writes := (appendBytes P (encode (loopEndInstr cond k jump))).writes }
  | wrapped (k : LoopCtr) (n body : Nat) (inside : body ≤ P.len) (room : P.len + 5 ≤ P.cap) :
    EditOf P content {
      buffer := { P with len := P.len + 4 }
      writes := (insertEdit k n body P content).writes ++
        (appendBytes { P with len := P.len + 2 } (encode (.dmalpend k (BitVec.ofNat 8 body)))).writes }

section
variable {P : Buffer} {content : Nat → Byte} {ed : Edit}

theorem editOf_emit {i : Instr} (passed : emit P i = .ok ed) : EditOf P content ed := by
  rcases emit_cases P i with ⟨room, emitted⟩ | ⟨-, emitted⟩ <;> cases emitted.symm.trans passed
  exact .append i room

theorem editOf_loopStart {c n : Nat} (passed : loopStartEdit c n P = .ok ed) : EditOf P content ed := by
  cases legal : loopOperands c n with
  | none => simp [loopStartEdit, legal] at passed
  | some k =>
    cases free : P.reserved k with
    | true => cases (loopStartEdit_inUse legal free).symm.trans passed
    | false =>
      rw [loopStartEdit_free legal free] at passed
      rcases emit_cases P (.dmalp k n) with ⟨room, emitted⟩ | ⟨-, emitted⟩ <;> rw [emitted] at passed <;> cases passed
      exact .opened k n free room

/-- A successful insertion: a free counter, a body behind the innermost open loop's start, and room. -/
theorem loopInsertEdit_ok {c n body : Nat} (passed : loopInsertEdit c n body P content = .ok ed) :
    ∃ k, loopOperands c n = some k ∧ P.reserved k = false ∧ body ≤ 255 ∧ body ≤ P.len - P.floor ∧
      P.len + 3 ≤ P.cap ∧ ed = insertEdit k n body P content := by
  cases legal : loopOperands c n with
  | none => simp [loopInsertEdit, legal] at passed
  | some k =>
    cases free : P.reserved k with
    | true => cases (loopInsertEdit_inUse legal free).symm.trans passed
    | false =>
      rw [loopInsertEdit_free legal free] at passed
      split_ifs at passed with bad room
      cases passed
      exact ⟨k, rfl, free, by omega, by omega, room, rfl⟩

theorem editOf_loopInsert {c n body : Nat} (passed : loopInsertEdit c n body P content = .ok ed) :
    EditOf P content ed := by
  obtain ⟨k, -, free, -, inside, room, rfl⟩ := loopInsertEdit_ok passed
  exact .inserted k n body free inside room

theorem editOf_loopEnd {cond : Option Cond} (passed : loopEndEdit cond P = .ok ed) : EditOf P content ed := by
  cases cond with
  | none => cases passed
  | some cond =>
    by_cases depth : P.depth = 0
    · cases (loopEndEdit_notFound depth).symm.trans passed
    · cases innermost : P.loops.getLast? with
      | none => simp [loopEndEdit, depth, innermost] at passed
      | some p =>
        obtain ⟨k, start⟩ := p
        rw [loopEndEdit_open depth innermost] at passed
        split_ifs at passed
        rcases emit_cases P (loopEndInstr cond k (BitVec.ofNat 8 (P.len - start))) with
          ⟨room, emitted⟩ | ⟨-, emitted⟩ <;> rw [emitted] at passed <;> cases passed
        rw [encode_loopEndInstr] at room
        have grown : (appendBytes P (encode (loopEndInstr cond k (BitVec.ofNat 8 (P.len - start))))).buffer =
            { P with len := P.len + 2 } := by rw [encode_loopEndInstr]; rfl
        dsimp only
        rw [grown]
        exact .closed cond k start _ innermost room

theorem editOf_chLoop {c n body : Nat} (passed : chLoopEdit c n body P content = .ok ed) : EditOf P content ed := by
  cases insertion : loopInsertEdit c n body P content with
  | error e => cases (chLoopEdit_insertFails insertion).symm.trans passed
  | ok ins =>
    obtain ⟨k, legal, free, short, inside, -, -⟩ := loopInsertEdit_ok insertion
    by_cases room : P.len + 5 ≤ P.cap
    · cases (chLoopEdit_ok legal free short inside room).symm.trans passed
      exact .wrapped k n body (inside.trans (Nat.sub_le ..)) room
    · cases (chLoopEdit_noSpace legal free short inside (Nat.not_le.1 room)).symm.trans passed

/-- An operand that must name a member of its enumeration does, where the command succeeds (R404). -/
theorem needEnum_ok {α : Type} {x : Option α} {f : α → Except Status Edit} (passed : needEnum x f = .ok ed) :
    ∃ a, f a = .ok ed := by
  cases x with
  | none => cases passed
  | some a => exact ⟨a, passed⟩

/-- Every encoder command that succeeds makes one of the five edits. -/
theorem editOf_encodeOp {op : EncOp} (passed : encodeOp op P content = .ok ed) : EditOf P content ed := by
  cases op with
  | mov | load | store =>
    obtain ⟨_, emitted⟩ := needEnum_ok passed
    exact editOf_emit emitted
  | storeZero | readBarrier | writeBarrier | endProgram | nop | kill => exact editOf_emit passed
  | loopStart => exact editOf_loopStart passed
  | loopInsert => exact editOf_loopInsert passed
  | loopEnd => exact editOf_loopEnd passed
  | chLoop => exact editOf_chLoop passed
  | sendEvent | waitEvent | flushPeriph | go =>
    rw [encodeOp] at passed
    split_ifs at passed
    exact editOf_emit passed
  | waitPeriph =>
    rw [encodeOp] at passed
    split_ifs at passed
    obtain ⟨_, emitted⟩ := needEnum_ok passed
    exact editOf_emit emitted

/-! ## What every edit keeps -/

/-- An edit leaves the buffer's place and capacity, and moves its write position on (R105). -/
theorem EditOf.place (edit : EditOf P content ed) :
    ed.buffer.base = P.base ∧ ed.buffer.cap = P.cap ∧ P.len ≤ ed.buffer.len := by
  cases edit <;> exact ⟨rfl, rfl, Nat.le_add_right ..⟩

/-- An edit keeps the bookkeeping. -/
theorem EditOf.wf (edit : EditOf P content ed) (wf : P.Wf) : ed.buffer.Wf := by
  have starts := wf.inside
  cases edit with
  | append i room => exact wf.grow (Nat.le_add_right ..) room
  | opened k n free room =>
    refine (wf.grow (Nat.le_add_right ..) room).openLoop free (fun x hx => ?_) le_rfl
    exact (starts x hx).trans_lt (by omega)
  | inserted k n body free inside room =>
    refine (wf.grow (Nat.le_add_right ..) room).openLoop free (fun x hx => ?_) ?_
    · have := wf.le_floor x hx
      have := starts x hx
      omega
    · exact Nat.add_le_add_right (Nat.sub_le ..) 2
  | closed cond k start jump innermost room => exact (wf.grow (Nat.le_add_right ..) room).closeLoop innermost
  | wrapped k n body inside room => exact wf.grow (Nat.le_add_right ..) room

end

end Sys2Proof.Machine
end

section
/-! PROOFS. What the engine does to the rest of the machine: whatever it executes, the program buffers and the context are
as before, and memory stays in its canonical form. -/

namespace Sys2Proof.Machine

/-- The engine has moved: it writes memory and its own registers, and nothing of DPES (R200, R201). -/
structure EngineMoved (s t : State) : Prop where
  buffers : t.buffers = s.buffers
  nextHandle : t.nextHandle = s.nextHandle
  ctx : t.ctx = s.ctx
  memory : s.mem.wf = true → t.mem.wf = true

namespace EngineMoved

theorem refl (s : State) : EngineMoved s s := ⟨rfl, rfl, rfl, id⟩

theorem trans {s u t : State} (first : EngineMoved s u) (second : EngineMoved u t) : EngineMoved s t :=
  ⟨second.buffers.trans first.buffers, second.nextHandle.trans first.nextHandle, second.ctx.trans first.ctx,
    second.memory ∘ first.memory⟩

theorem ite {c : Prop} [Decidable c] {s t u : State} (yes : EngineMoved s t) (no : EngineMoved s u) :
    EngineMoved s (if c then t else u) := by
  split
  · exact yes
  · exact no

/-- What moves after some registers have been written has moved before. -/
theorem after {s u t : State} (moved : EngineMoved u t) (buffers : u.buffers = s.buffers)
    (nextHandle : u.nextHandle = s.nextHandle) (ctx : u.ctx = s.ctx) (mem : u.mem = s.mem) : EngineMoved s t :=
  EngineMoved.trans ⟨buffers, nextHandle, ctx, fun wf => mem ▸ wf⟩ moved

/-! ## The operations that instructions share -/

theorem setChan (s : State) (n : Fin 8) (c : Channel) : EngineMoved s (s.setChan n c) := ⟨rfl, rfl, rfl, id⟩

theorem moveOn (s : State) (f : Word → Word) : EngineMoved s (s.moveOn f) := by
  obtain ⟨mem, buffers, ctx, nextHandle, -⟩ := moveOn_frame s f
  exact ⟨buffers, nextHandle, ctx, fun wf => mem ▸ wf⟩

theorem retire (s : State) (k : Nat) : EngineMoved s (s.retire k) := moveOn s _

theorem takeFault (bits : Word) (s : State) : EngineMoved s (takeFault bits s) := by
  obtain ⟨mem, buffers, ctx, nextHandle, -⟩ := takeFault_frame bits s
  exact ⟨buffers, nextHandle, ctx, fun wf => mem ▸ wf⟩

theorem takeFaultBit (bit : Nat) (s : State) : EngineMoved s (takeFaultBit bit s) := takeFault _ s

theorem killThread (t : Thread) (s : State) : EngineMoved s (killThread t s) := by
  obtain ⟨mem, buffers, ctx, nextHandle, -⟩ := killThread_frame t s
  exact ⟨buffers, nextHandle, ctx, fun wf => mem ▸ wf⟩

theorem setThreadStatus (s : State) (t : Thread) (v : BitVec 4) : EngineMoved s (s.setThreadStatus t v) :=
  ⟨setThreadStatus_buffers s t v, setThreadStatus_nextHandle s t v, setThreadStatus_ctx s t v,
    fun wf => setThreadStatus_mem s t v ▸ wf⟩

theorem storeCells (s : State) (n : Fin 8) (cells : List (Word × Byte)) : EngineMoved s (s.storeCells n cells) := by
  rcases storeCells_cases s n cells with ⟨-, stored⟩ | ⟨-, queued⟩
  · rw [stored]
    exact ⟨rfl, rfl, rfl, memWrites_wf⟩
  · rw [queued]
    exact setChan s n _

theorem completeWrites (s : State) (n : Fin 8) : EngineMoved s (s.completeWrites n) :=
  ⟨rfl, rfl, rfl, fun wf => completeWrites_wf wf n⟩

theorem drainWrite (s : State) (n : Fin 8) : EngineMoved s (s.drainWrite n) := by
  refine ⟨?_, ?_, ?_, fun wf => drainWrite_wf wf n⟩
  all_goals
    unfold State.drainWrite
    split <;> rfl

theorem signalEvent (s : State) (ev : Fin 32) : EngineMoved s (s.signalEvent ev) := by
  rcases signalEvent_cases s ev with ⟨-, e⟩ | ⟨-, -, e⟩ | ⟨-, -, e⟩
  all_goals
    rw [e]
    exact ⟨rfl, rfl, rfl, id⟩

theorem waitFor (s : State) (t : Thread) (status : BitVec 4) (k : Fin 32) : EngineMoved s (s.waitFor t status k) := by
  unfold State.waitFor
  split
  · exact refl s
  · cases t <;> exact ⟨rfl, rfl, rfl, id⟩

/-! ## The instructions of a channel thread -/

theorem loadOp (n : Fin 8) (s : State) : EngineMoved s (loadOp n s) := by
  have done (c : Channel) (drawn : Bool) (k : Nat) : EngineMoved s ((if drawn then s.drawn k else s).setChan n c) := by
    cases drawn <;> exact ⟨rfl, rfl, rfl, id⟩
  unfold Machine.loadOp
  dsimp only
  refine ite ?_ (ite ?_ (ite ?_ ?_))
  · exact takeFaultBit _ s
  · exact takeFaultBit _ s
  · exact (done _ _ _).trans (retire _ 1)
  · exact (done _ _ _).trans (takeFaultBit _ _)

theorem writeBurst (n : Fin 8) (bytes : List Byte) (popped free : Bool) (s : State) :
    EngineMoved s (writeBurst n bytes popped free s) := by
  have stored (c : Channel) (k : Nat) (cells : List (Word × Byte)) :
      EngineMoved s (((if free then s.drawn k else s).setChan n c).storeCells n cells) := by
    refine EngineMoved.trans ?_ (storeCells _ n cells)
    cases free <;> exact ⟨rfl, rfl, rfl, id⟩
  unfold Machine.writeBurst
  dsimp only
  split
  · exact (stored _ _ _).trans (retire _ 1)
  · exact (stored _ _ _).trans (takeFaultBit _ _)

theorem storeOp (n : Fin 8) (s : State) : EngineMoved s (storeOp n s) := by
  unfold Machine.storeOp
  dsimp only
  split_ifs
  · exact takeFaultBit _ s
  · exact takeFaultBit _ s
  · exact writeBurst ..

theorem storeZeroOp (n : Fin 8) (s : State) : EngineMoved s (storeZeroOp n s) := by
  unfold Machine.storeZeroOp
  dsimp only
  split
  · exact takeFaultBit _ s
  · exact writeBurst ..

theorem movOp (rd : RegId) (imm : Word) (n : Fin 8) (s : State) : EngineMoved s (movOp rd imm n s) := by
  cases rd with
  | sar | dar => exact (setChan s n _).trans (retire _ 6)
  | ccr =>
    unfold Machine.movOp
    dsimp only
    split
    · exact takeFaultBit _ s
    · exact (setChan s n _).trans (retire _ 6)

theorem loopEndOp (c : LoopCtr) (jump : Byte) (n : Fin 8) (s : State) : EngineMoved s (loopEndOp c jump n s) := by
  unfold Machine.loopEndOp
  dsimp only
  split
  · exact retire s 2
  · exact (setChan s n _).trans (moveOn _ _)

theorem waitPeriphOp (type : WfpType) (p : Fin 32) (n : Fin 8) (s : State) :
    EngineMoved s (waitPeriphOp type p n s) := by
  unfold Machine.waitPeriphOp
  split
  · exact takeFaultBit _ s
  · split
    · exact (retire _ 2).after rfl rfl rfl rfl
    · exact EngineMoved.trans (setChan s n _) (waitFor _ _ _ _)

theorem flushPeriphOp (p : Fin 32) (n : Fin 8) (s : State) : EngineMoved s (flushPeriphOp p n s) := by
  unfold Machine.flushPeriphOp
  split
  · exact takeFaultBit _ s
  · exact (retire _ 2).after rfl rfl rfl rfl

theorem endOp (n : Fin 8) (s : State) : EngineMoved s (endOp n s) := by
  have completed : EngineMoved s (if s.platform.stopImpliesWritesDone then s.completeWrites n else s) := by
    split
    · exact completeWrites s n
    · exact refl s
  unfold Machine.endOp
  refine EngineMoved.trans ?_ (setThreadStatus _ (.channel n) stStopped)
  exact completed.trans (ite (refl _) ⟨rfl, rfl, rfl, id⟩)

/-- A channel instruction, on whatever thread. -/
theorem onChannel {f : Fin 8 → State → State} (moved : ∀ n s, EngineMoved s (f n s)) {s t : State}
    (answer : onChannel f s = .next t) : EngineMoved s t := by
  unfold Machine.onChannel at answer
  split at answer <;> cases answer
  · exact moved _ s
  · exact takeFaultBit _ s

theorem whenCond {f : Fin 8 → State → State} (moved : ∀ n s, EngineMoved s (f n s)) (cond : Cond) (len : Nat)
    (n : Fin 8) (s : State) : EngineMoved s (whenCond cond len f n s) := by
  rcases whenCond_cases cond len f n s with ⟨-, e⟩ | ⟨-, e⟩ <;> rw [e]
  · exact moved n s
  · exact retire s len

/-! ## Every instruction -/

theorem exec_dmawfe {ev : Fin 32} {inv : Bool} {s t : State} (answer : exec (.dmawfe ev inv) s = .next t) :
    EngineMoved s t := by
  have emptied : EngineMoved s (if inv then { s with engine := { s.engine with icache := [] } } else s) := by
    cases inv <;> exact ⟨rfl, rfl, rfl, id⟩
  cases answer
  exact ite (takeFaultBit _ s) (ite (emptied.trans ((retire _ 2).after rfl rfl rfl rfl))
    (emptied.trans (waitFor _ _ _ _)))

theorem exec_dmago {ns : Bool} {cn : Fin 8} {addr : Word} {s t : State}
    (answer : exec (.dmago ns cn addr) s = .next t) : EngineMoved s t := by
  cases answer
  split
  · exact (takeFaultBit _ (s.drawn 1)).after rfl rfl rfl rfl
  · split_ifs
    · exact takeFaultBit _ s
    · exact (setChan s cn _).trans (retire _ 6)
    · exact retire s 6

theorem exec_dmakill {s t : State} (answer : exec .dmakill s = .next t) : EngineMoved s t := by
  cases answer
  split
  · exact killThread _ s
  · exact (takeFault _ (s.drawn 1)).after rfl rfl rfl rfl

theorem exec_dmasev {ev : Fin 32} {s t : State} (answer : exec (.dmasev ev) s = .next t) : EngineMoved s t := by
  cases answer
  split
  · exact (retire s 2).trans (signalEvent _ ev)
  · exact takeFaultBit _ s

theorem exec_dmaend {s t : State} (answer : exec .dmaend s = .next t) : EngineMoved s t := by
  simp only [exec, execDmaend] at answer
  split at answer <;> cases answer
  · exact endOp _ s
  · exact setThreadStatus s .manager stStopped

theorem exec {i : Instr} {s t : State} (answer : exec i s = .next t) : EngineMoved s t := by
  cases i with
  | dmaend => exact exec_dmaend answer
  | dmakill => exact exec_dmakill answer
  | dmald => exact onChannel loadOp answer
  | dmalds | dmaldb => exact onChannel (whenCond loadOp _ _) answer
  | dmast => exact onChannel storeOp answer
  | dmasts | dmastb => exact onChannel (whenCond storeOp _ _) answer
  | dmastz => exact onChannel storeZeroOp answer
  | dmarmb => exact onChannel (fun _ s => retire s 1) answer
  | dmawmb => exact onChannel (fun n s => (completeWrites s n).trans (retire _ 1)) answer
  | dmanop =>
    cases answer
    exact retire s 1
  | dmalp c iter => exact onChannel (fun n s => (setChan s n _).trans (retire _ 2)) answer
  | dmalpend c jump => exact onChannel (loopEndOp c jump) answer
  | dmalpends c jump | dmalpendb c jump => exact onChannel (whenCond (loopEndOp c jump) _ _) answer
  | dmawfpSingle p | dmawfpPeriph p | dmawfpBurst p => exact onChannel (waitPeriphOp _ p) answer
  | dmasev => exact exec_dmasev answer
  | dmaflushp p => exact onChannel (flushPeriphOp p) answer
  | dmawfe => exact exec_dmawfe answer
  | dmago => exact exec_dmago answer
  | dmamov rd imm => exact onChannel (movOp rd imm) answer
  | dmaaddh | dmaadnh | dmaldps | dmaldpb | dmastps | dmastpb | dmalpfe =>
    cases answer
    exact takeFaultBit _ s

/-! ## Threads, the debug interface and the activities -/

theorem runBytes {bs : List Byte} {s t : State} (answer : runBytes bs s = .next t) : EngineMoved s t := by
  unfold Machine.runBytes at answer
  split at answer
  · exact exec answer
  · cases answer
    exact takeFaultBit _ s

theorem afterFetch (s : State) (pc : Word) (bs : List Byte) : EngineMoved s (s.afterFetch pc bs) := by
  unfold State.afterFetch
  split_ifs <;> exact ⟨rfl, rfl, rfl, id⟩

theorem activate (s : State) (t : Thread) : EngineMoved s (s.activate t) := ⟨rfl, rfl, rfl, id⟩

theorem threadStep {th : Thread} {s t : State} (answer : threadStep th s = .next t) : EngineMoved s t := by
  unfold Machine.threadStep at answer
  split at answer
  · cases answer
    exact refl s
  · dsimp only at answer
    split at answer
    · cases answer
      exact (activate s th).trans (takeFaultBit _ _)
    · exact ((afterFetch s _ _).trans (activate _ th)).trans (runBytes answer)

theorem executeDebug {s t : State} (answer : executeDebug s = .next t) : EngineMoved s t :=
  (runBytes answer).after rfl rfl rfl rfl

theorem debugRun {s t : State} (answer : debugRun s = .next t) : EngineMoved s t := by
  unfold Machine.debugRun at answer
  split at answer
  · cases answer
    exact refl s
  · split at answer
    · obtain ⟨u, executed⟩ : ∃ u, Machine.executeDebug s = .next u := runBytes_next _ _
      rw [executed] at answer
      cases answer
      exact (executeDebug executed).trans ⟨rfl, rfl, rfl, id⟩
    · cases answer
      exact ⟨rfl, rfl, rfl, id⟩

theorem triggerDebug (s : State) : EngineMoved s (triggerDebug s) := by
  unfold Machine.triggerDebug
  dsimp only
  split
  · obtain ⟨u, executed⟩ : ∃ u, Machine.executeDebug { s with engine := s.engine.trigger } = .next u :=
      runBytes_next _ _
    rw [executed]
    exact (executeDebug executed).after rfl rfl rfl rfl
  · exact ⟨rfl, rfl, rfl, id⟩

theorem runActivity {a : Activity} {s t : State} (answer : runActivity a s = .next t) : EngineMoved s t := by
  cases a with
  | thread th => exact threadStep answer
  | debugRun => exact debugRun answer
  | asyncFault th bits =>
    cases answer
    unfold asyncFault
    split
    · exact refl s
    · exact (activate s th).trans (takeFault _ _)
  | kill th =>
    cases answer
    exact killThread th s
  | showStatus th v =>
    cases answer
    unfold showStatus
    split
    · exact refl s
    · exact setThreadStatus s th v
  | periphRequest p ty =>
    cases answer
    exact ⟨rfl, rfl, rfl, id⟩
  | peripheral id ty =>
    cases answer
    unfold peripheralRequest
    split <;> exact ⟨rfl, rfl, rfl, fun wf => wf⟩
  | drainWrite n =>
    cases answer
    exact drainWrite s n
  | hostWrite a v =>
    cases answer
    exact ⟨rfl, rfl, rfl, fun wf => memWrite_wf wf a.isLt⟩

theorem runActivities (as : List Activity) (s : State) : EngineMoved s (runActivities as s) := by
  induction as generalizing s with
  | nil => exact refl s
  | cons a as ih =>
    obtain ⟨u, moved⟩ := runActivity_next a s
    have first : leftIn (Machine.runActivity a s) s = u := by rw [moved]; rfl
    have rest := ih u
    rw [← first] at rest
    exact (first ▸ runActivity moved : EngineMoved s (leftIn (Machine.runActivity a s) s)).trans rest

theorem engineStep {s t : State} (answer : engineStep s = .next t) : EngineMoved s t := by
  unfold Machine.engineStep at answer
  split at answer
  · exact debugRun answer
  · split at answer
    · cases answer
      exact refl s
    · exact (threadStep answer).after rfl rfl rfl rfl

/-! ## The register accesses of a command, before which the engine may move (R161) -/

theorem gap (s : State) : EngineMoved s s.gap := by
  unfold State.gap
  split
  · exact refl s
  · exact (runActivities _ _).after rfl rfl rfl rfl

theorem regRead (base : Word) (r : RdReg) (s : State) : EngineMoved s (regRead base r s).1 := gap s

theorem spaceWrite (s : State) (base a v : Word) : EngineMoved s (s.spaceWrite base a v) := by
  unfold State.spaceWrite
  split
  · split
    · exact triggerDebug s
    · exact refl s
  · exact ⟨rfl, rfl, rfl, id⟩
  · exact refl s

theorem regWrite (base : Word) (r : WrReg) (v : Word) (s : State) : EngineMoved s (regWrite base r v s) :=
  (gap s).trans (spaceWrite _ _ _ _)

theorem holdIdle {base : Word} {gaps : List (List Activity)} {s t : State} (held : holdIdle base gaps s = some t) :
    EngineMoved s t := by
  induction gaps generalizing s with
  | nil =>
    unfold Machine.holdIdle at held
    split at held <;> cases held
    exact ⟨rfl, rfl, rfl, id⟩
  | cons g rest ih =>
    have ran : EngineMoved s (Machine.runActivities g { s with gaps := rest }) :=
      (runActivities g _).after rfl rfl rfl rfl
    unfold Machine.holdIdle at held
    dsimp only at held
    split at held
    · exact ran.trans (ih held)
    · cases held
      exact ran

end EngineMoved

end Sys2Proof.Machine
end

section
/-! PROOFS. The invariants that every step keeps, in the terms of lists and channels: the live buffers by handle, the
channel context over them, and what it is to keep them. -/

namespace Sys2Proof.Machine

/-! ## The live buffers (R100; log 8) -/

/-- The handles of the live buffers. -/
def handles (l : List (Nat × Buffer)) : List Nat := l.map Prod.fst

theorem bufGet_isSome_iff (l : List (Nat × Buffer)) (h : Nat) : (bufGet l h).isSome = true ↔ h ∈ handles l := by
  induction l with
  | nil => simp [bufGet, handles]
  | cons p l ih =>
    rw [bufGet, handles, List.map_cons, List.mem_cons, ← handles, ← ih]
    by_cases e : h = p.1 <;> simp [e]

theorem mem_of_bufGet {l : List (Nat × Buffer)} {h : Nat} {b : Buffer} (live : bufGet l h = some b) : (h, b) ∈ l := by
  induction l with
  | nil => cases live
  | cons p l ih =>
    rw [bufGet] at live
    split at live
    · rename_i e
      cases live
      exact e ▸ List.mem_cons_self
    · exact List.mem_cons_of_mem _ (ih live)

theorem handlesOk_iff (next : Nat) (l : List (Nat × Buffer)) :
    handlesOk next l = true ↔ (∀ h ∈ handles l, h < next) ∧ (handles l).Nodup := by
  induction l with
  | nil => simp [handlesOk, handles]
  | cons p l ih =>
    have fresh : (bufGet l p.1).isNone = true ↔ p.1 ∉ handles l := by
      rw [← bufGet_isSome_iff, Option.isNone_iff_eq_none, Option.not_isSome_iff_eq_none]
    rw [handlesOk, Bool.and_eq_true, Bool.and_eq_true, decide_eq_true_eq, fresh, ih]
    simp only [handles, List.map_cons, List.nodup_cons, List.forall_mem_cons]
    tauto

/-- The live buffers are well formed, under distinct handles that have been given out. -/
structure BuffersOk (next : Nat) (l : List (Nat × Buffer)) : Prop where
  given : ∀ h ∈ handles l, h < next
  distinct : (handles l).Nodup
  wf : ∀ p ∈ l, p.2.Wf

theorem buffersWf_iff (s : State) : s.buffersWf = true ↔ BuffersOk s.nextHandle s.buffers := by
  rw [State.buffersWf, Bool.and_eq_true, handlesOk_iff, List.all_eq_true]
  simp only [buffer_wf_iff]
  exact ⟨fun ⟨⟨given, distinct⟩, wf⟩ => ⟨given, distinct, wf⟩, fun ok => ⟨⟨ok.given, ok.distinct⟩, ok.wf⟩⟩

theorem handles_bufSet (l : List (Nat × Buffer)) (h : Nat) (b : Buffer) : handles (bufSet l h b) = handles l := by
  induction l with
  | nil => rfl
  | cons p l ih =>
    rw [bufSet]
    split
    · rfl
    · exact congrArg (p.1 :: ·) ih

theorem mem_bufSet {l : List (Nat × Buffer)} {h : Nat} {b : Buffer} {p : Nat × Buffer} (hp : p ∈ bufSet l h b) :
    p ∈ l ∨ p.2 = b := by
  induction l with
  | nil => cases hp
  | cons q l ih =>
    rw [bufSet] at hp
    split at hp <;> rcases List.mem_cons.1 hp with rfl | hp
    · exact .inr rfl
    · exact .inl (List.mem_cons_of_mem _ hp)
    · exact .inl List.mem_cons_self
    · exact (ih hp).imp_left (List.mem_cons_of_mem _)

theorem bufErase_sublist (l : List (Nat × Buffer)) (h : Nat) : (bufErase l h).Sublist l := by
  induction l with
  | nil => exact .slnil
  | cons p l ih =>
    rw [bufErase]
    split
    · exact List.sublist_cons_self ..
    · exact ih.cons_cons p

namespace BuffersOk

variable {next : Nat} {l l' : List (Nat × Buffer)} {h : Nat} {b : Buffer}

theorem set (ok : BuffersOk next l) (wf : b.Wf) : BuffersOk next (bufSet l h b) where
  given := handles_bufSet l h b ▸ ok.given
  distinct := handles_bufSet l h b ▸ ok.distinct
  wf := fun p hp => (mem_bufSet hp).elim (ok.wf p) fun e => e ▸ wf

theorem sublist (ok : BuffersOk next l) (sub : l'.Sublist l) : BuffersOk next l' where
  given := fun k hk => ok.given k ((sub.map Prod.fst).subset hk)
  distinct := ok.distinct.sublist (sub.map Prod.fst)
  wf := fun p hp => ok.wf p (sub.subset hp)

theorem add (ok : BuffersOk next l) (wf : b.Wf) : BuffersOk (next + 1) ((next, b) :: l) where
  given := List.forall_mem_cons.2 ⟨Nat.lt_succ_self next, fun k hk => Nat.lt_succ_of_lt (ok.given k hk)⟩
  distinct := List.nodup_cons.2 ⟨fun hn => Nat.lt_irrefl next (ok.given next hn), ok.distinct⟩
  wf := List.forall_mem_cons.2 ⟨wf, ok.wf⟩

end BuffersOk

/-! ## The channel context (R122, R666) -/

/-- A field written for one channel. -/
theorem vector_set_get {α : Type} (v : Vector α 8) (ch k : Fin 8) (x : α) :
    (v.set ch x)[k] = if k = ch then x else v[k] := by
  by_cases e : k = ch
  · subst e
    simp
  · have e' : ¬ ch.val = k.val := fun h => e (Fin.ext h.symm)
    simp [e, e']

/-- `Context.inv` channel by channel, over the handles of the live buffers. -/
structure Context.Inv (c : Context) (live : List Nat) : Prop where
  pending : ∀ ch : Fin 8, c.pending[ch] = none ↔ c.chState[ch] = .free
  distinct : ∀ (i j : Fin 8) (h : Nat), c.pending[i] = some h → c.pending[j] = some h → i = j
  fault : ∀ ch : Fin 8, c.chState[ch] = .free → c.lastFault[ch] = 0
  ack : ∀ ch : Fin 8, c.errAck[ch] = true → c.chState[ch] = .error ∨ c.chState[ch] = .aborted
  alive : ∀ (ch : Fin 8) (h : Nat), c.pending[ch] = some h → h ∈ live
  dbgThere : c.initialised = true → c.dbg ≠ none
  dbgCap : ∀ d, c.dbg = some d → d.hdr.cap = Config.debugProgramCapacity

theorem allChannels_all_iff (p : Fin 8 → Bool) : allChannels.all p = true ↔ ∀ ch, p ch = true := by
  simp [List.all_eq_true, mem_allChannels]

theorem context_inv_iff (c : Context) (l : List (Nat × Buffer)) : c.inv l = true ↔ c.Inv (handles l) := by
  have pending : c.pendingOk = true ↔ ∀ ch : Fin 8, c.pending[ch] = none ↔ c.chState[ch] = .free := by
    rw [Context.pendingOk, allChannels_all_iff]
    refine forall_congr' fun ch => ?_
    cases c.pending[ch] <;> simp
  have distinct : c.pendingDistinct = true ↔
      ∀ (i j : Fin 8) (h : Nat), c.pending[i] = some h → c.pending[j] = some h → i = j := by
    simp only [Context.pendingDistinct, allChannels_all_iff, Bool.or_eq_true, beq_iff_eq, bne_iff_ne,
      Option.isNone_iff_eq_none]
    refine forall_congr' fun i => forall_congr' fun j => ⟨fun either h hi hj => ?_, fun same => ?_⟩
    · rcases either with (e | e) | e
      · exact e
      · cases e.symm.trans hi
      · exact absurd (hi.trans hj.symm) e
    · cases hi : c.pending[i] with
      | none => exact .inl (.inr rfl)
      | some h =>
        by_cases hj : c.pending[j] = some h
        · exact .inl (.inl (same h hi hj))
        · exact .inr fun e => hj e.symm
  have faults : c.faultsOk = true ↔ (∀ ch : Fin 8, c.chState[ch] = .free → c.lastFault[ch] = 0) ∧
      ∀ ch : Fin 8, c.errAck[ch] = true → c.chState[ch] = .error ∨ c.chState[ch] = .aborted := by
    rw [Context.faultsOk, allChannels_all_iff, ← forall_and]
    refine forall_congr' fun ch => ?_
    simp only [Bool.and_eq_true, Bool.or_eq_true, bne_iff_ne, beq_iff_eq, Bool.not_eq_true', or_assoc]
    refine and_congr (by tauto) ?_
    cases c.errAck[ch] <;> simp
  have alive : c.pendingLive l = true ↔ ∀ (ch : Fin 8) (h : Nat), c.pending[ch] = some h → h ∈ handles l := by
    rw [Context.pendingLive, allChannels_all_iff]
    refine forall_congr' fun ch => ?_
    cases c.pending[ch] with
    | none => simp
    | some h => simp [bufGet_isSome_iff]
  have dbg : c.dbgOk = true ↔ (c.initialised = true → c.dbg ≠ none) ∧
      ∀ d, c.dbg = some d → d.hdr.cap = Config.debugProgramCapacity := by
    unfold Context.dbgOk
    cases c.dbg <;> simp
  simp only [Context.inv, Bool.and_eq_true, pending, distinct, faults, alive, dbg]
  exact ⟨fun ⟨⟨⟨⟨p, d⟩, f, a⟩, v⟩, t, k⟩ => ⟨p, d, f, a, v, t, k⟩,
    fun i => ⟨⟨⟨⟨i.pending, i.distinct⟩, i.fault, i.ack⟩, i.alive⟩, i.dbgThere, i.dbgCap⟩⟩

theorem ctxInv_iff (s : State) : s.ctxInv = true ↔ ∀ c, s.ctx = some c → c.Inv (handles s.buffers) := by
  unfold State.ctxInv
  split
  · rename_i e
    simp [e]
  · rename_i c e
    simp [e, context_inv_iff]

/-! ## Keeping the invariants -/

/-- The three invariants, from one state to another: memory's canonical form, the live buffers, and the context over
them. -/
structure Keeps (s t : State) : Prop where
  memory : s.mem.wf = true → t.mem.wf = true
  buffers : BuffersOk s.nextHandle s.buffers → BuffersOk t.nextHandle t.buffers
  context : BuffersOk s.nextHandle s.buffers → (∀ c, s.ctx = some c → c.Inv (handles s.buffers)) →
    ∀ c, t.ctx = some c → c.Inv (handles t.buffers)

namespace Keeps

theorem refl (s : State) : Keeps s s := ⟨id, id, fun _ => id⟩

theorem trans {s u t : State} (first : Keeps s u) (second : Keeps u t) : Keeps s t :=
  ⟨second.memory ∘ first.memory, second.buffers ∘ first.buffers,
    fun ok inv => second.context (first.buffers ok) (first.context ok inv)⟩

end Keeps

/-- The state as the context commands work on it, with the context apart. -/
def State.holding (s : State) (c : Context) : State := { s with ctx := some c }

theorem holding_self {s : State} {c : Context} (hc : s.ctx = some c) : s.holding c = s := by
  cases s
  cases hc
  rfl

/-- Whatever the engine does keeps the invariants. -/
theorem EngineMoved.keeps {s t : State} (moved : EngineMoved s t) : Keeps s t where
  memory := moved.memory
  buffers := by rw [moved.buffers, moved.nextHandle]; exact id
  context := by rw [moved.buffers, moved.ctx]; exact fun _ => id

/-- The engine moves and the context changes in a way that keeps its invariant. -/
theorem keeps_of_context {s t : State} {c c' : Context} (moved : EngineMoved s t)
    (inv : ∀ live, c.Inv live → c'.Inv live) : Keeps (s.holding c) (t.holding c') where
  memory := moved.memory
  buffers := moved.keeps.buffers
  context := by
    rintro - old c'' new
    cases new
    have same : handles (t.holding c').buffers = handles s.buffers := congrArg handles moved.buffers
    exact same ▸ inv _ (old c rfl)

/-- The engine moves and the context stays. -/
theorem EngineMoved.keeps_holding {s t : State} (moved : EngineMoved s t) (c : Context) :
    Keeps (s.holding c) (t.holding c) :=
  keeps_of_context moved fun _ => id

end Sys2Proof.Machine
end

section
/-! PROOFS. The commands on buffers keep the invariants (R102, R104, R123, R231): encoder commands, the allocation, and
the synthesizer. -/

namespace Sys2Proof.Machine

/-! ## The live buffers of a context that stays -/

/-- The context's invariant over other live buffers that still hold every pending program. -/
theorem Context.Inv.over {c : Context} {live live' : List Nat} (inv : c.Inv live)
    (alive : ∀ (ch : Fin 8) (h : Nat), c.pending[ch] = some h → h ∈ live') : c.Inv live' :=
  { inv with alive := alive }

/-- A program that is not attached is pending on no channel (R123). -/
theorem not_pending_of_attached {s : State} {c : Context} {h : Nat} (free : s.attached h = false)
    (hc : s.ctx = some c) (ch : Fin 8) : c.pending[ch] ≠ some h := by
  intro pending
  have : s.attached h = true := by
    rw [State.attached, hc]
    exact List.any_eq_true.2 ⟨ch, mem_allChannels ch, by simp [pending]⟩
  rw [free] at this
  cases this

/-- A change of one live buffer's record. -/
theorem keeps_bufSet {s t : State} {h : Nat} {b b' : Buffer} (live : bufGet s.buffers h = some b)
    (wf : b.Wf → b'.Wf) (memory : s.mem.wf = true → t.mem.wf = true) (buffers : t.buffers = bufSet s.buffers h b')
    (nextHandle : t.nextHandle = s.nextHandle) (ctx : t.ctx = s.ctx) : Keeps s t where
  memory := memory
  buffers := fun ok => by
    rw [buffers, nextHandle]
    exact ok.set (wf (ok.wf _ (mem_of_bufGet live)))
  context := by
    rw [buffers, handles_bufSet, ctx]
    exact fun _ => id

/-- A new buffer (R106). -/
theorem keeps_addBuffer {s : State} {b : Buffer} (wf : b.Wf) : Keeps s (s.addBuffer b) where
  memory := id
  buffers := fun ok => ok.add wf
  context := fun _ inv c hc => (inv c hc).over fun ch h pending => List.mem_cons_of_mem _ ((inv c hc).alive ch h pending)

/-- The end of a buffer that no channel has attached (R231, R401). -/
theorem keeps_bufErase {s : State} {h : Nat} (free : s.attached h = false) :
    Keeps s { s with buffers := bufErase s.buffers h } where
  memory := id
  buffers := fun ok => ok.sublist (bufErase_sublist ..)
  context := fun _ inv c hc => (inv c hc).over fun ch k pending => by
    have other : k ≠ h := fun e => not_pending_of_attached free hc ch (e ▸ pending)
    rw [← bufGet_isSome_iff, bufGet_bufErase_ne other, bufGet_isSome_iff]
    exact (inv c hc).alive ch k pending

/-! ## Commands on host buffers (R400..R453) -/

/-- Where the command answers, it has kept the invariants. -/
def Result.KeepsFrom (s : State) (r : Result) : Prop := ∀ t q, r = .next (t, q) → Keeps s t

theorem keepsFrom_reply {s t : State} (keeps : Keeps s t) (st : Status) (v : Word) :
    Result.KeepsFrom s (reply t st v) := by
  rintro _ _ answer
  cases answer
  exact keeps

/-- A command on a live buffer that is not attached. -/
theorem onBuffer_live {s : State} {h : Nat} {b : Buffer} (live : bufGet s.buffers h = some b)
    (free : s.attached h = false) (f : Nat → Buffer → Result) : onBuffer (some h) s f = f h b := by
  unfold onBuffer
  rw [findBuffer_some, live, Option.map_some]
  exact if_neg (Bool.eq_false_iff.1 free)

theorem keepsFrom_onBuffer {p : Handle} {s : State} {f : Nat → Buffer → Result}
    (keeps : ∀ h b, bufGet s.buffers h = some b → s.attached h = false → Result.KeepsFrom s (f h b)) :
    Result.KeepsFrom s (onBuffer p s f) := by
  cases p with
  | none => exact keepsFrom_reply (.refl s) .nullptr 0
  | some h =>
    cases live : bufGet s.buffers h with
    | none =>
      have absent : onBuffer (some h) s f = replyStatus s .nullptr := by
        unfold onBuffer
        rw [findBuffer_some, live]
        rfl
      rw [absent]
      exact keepsFrom_reply (.refl s) .nullptr 0
    | some b =>
      cases free : s.attached h with
      | true =>
        rw [onBuffer_attached live free]
        exact fun _ _ answer => nomatch answer
      | false =>
        rw [onBuffer_live live free]
        exact keeps h b live free

theorem keepsFrom_cmdInst (p : Handle) (op : EncOp) (s : State) : Result.KeepsFrom s (cmdInst p op s) := by
  refine keepsFrom_onBuffer fun h b live _ => ?_
  cases encoded : encodeOp op b (s.bufByte b) with
  | error e => exact keepsFrom_reply (.refl s) _ _
  | ok ed =>
    have keeps : Keeps s (s.applyEdit h b ed) :=
      keeps_bufSet live (editOf_encodeOp encoded).wf applyWrites_wf rfl rfl rfl
    exact keepsFrom_reply keeps _ _

theorem keepsFrom_cmdFreeProgram (p : Handle) (s : State) : Result.KeepsFrom s (cmdFreeProgram p s) :=
  keepsFrom_onBuffer fun _ _ _ free => keepsFrom_reply (keeps_bufErase free) _ _

theorem keepsFrom_cmdSetProgramFlags (p : Handle) (nonSecure autoFree : Bool) (s : State) :
    Result.KeepsFrom s (cmdSetProgramFlags p nonSecure autoFree s) := by
  refine keepsFrom_onBuffer fun h b live _ => keepsFrom_reply ?_ _ _
  exact keeps_bufSet live (fun wf => wf.flags nonSecure autoFree b.loose) id rfl rfl rfl

/-- What the allocation gives: its END sentinel written, and nothing else (R400). -/
theorem allocBuffer_cases (size base : Word) (obtained : Bool) (s : State) :
    (size = 0 ∧ allocBuffer size base obtained s = .error .noSpace) ∨
    (size ≠ 0 ∧ obtained = false ∧ allocBuffer size base obtained s = .error .nullptr) ∨
    (size ≠ 0 ∧ 0 < size.toNat ∧ obtained = true ∧ allocBuffer size base obtained s =
      .ok ({ s with mem := applyWrites (freshBuffer size.toNat base) [(0, 0x00)] s.mem },
        freshBuffer size.toNat base)) := by
  by_cases zero : size = 0
  · subst zero
    exact .inl ⟨rfl, rfl⟩
  · have pos : 0 < size.toNat := Nat.pos_of_ne_zero fun e => zero (BitVec.eq_of_toNat_eq e)
    have size' : ¬ size.toNat < 1 := Nat.not_lt.2 pos
    cases obtained with
    | false => exact .inr (.inl ⟨zero, rfl, if_neg size'⟩)
    | true => exact .inr (.inr ⟨zero, pos, rfl, if_neg size'⟩)

theorem keepsFrom_cmdAllocProgram (size base : Word) (e : Env) (s : State) :
    Result.KeepsFrom s (cmdAllocProgram size base e s) := by
  unfold cmdAllocProgram
  rcases allocBuffer_cases size base e.allocOk s with ⟨-, r⟩ | ⟨-, -, r⟩ | ⟨-, pos, -, r⟩ <;> rw [r]
  · exact keepsFrom_reply (.refl s) _ _
  · exact keepsFrom_reply (.refl s) _ _
  · have written : Keeps s { s with mem := applyWrites (freshBuffer size.toNat base) [(0, 0x00)] s.mem } :=
      ⟨applyWrites_wf, id, fun _ => id⟩
    exact keepsFrom_reply (written.trans (keeps_addBuffer (freshBuffer_wf base pos size.isLt))) _ _

/-! ## The synthesizer (R500..R542) -/

/-- The synthesizer fails with nothing changed, or it answers as its commands end on the new buffer. -/
theorem synthesize_cases (e : Env) (chk : Chunk) (prm : XferParams) (s : State) :
    (∃ st, synthesize e chk prm s = (s, .error st)) ∨
    ∃ lp, checkParams prm = .ok lp ∧ 0 < s.platform.synthCapacity.toNat ∧
      let run := runOps (planOps lp chk.readAddr chk.writeAddr chk.length) (synthBuffer s e) (synthMemory s e)
      synthesize e chk prm s = ({ s with mem := run.1 },
        run.2.map fun P => (P, ccrValues (planOps lp chk.readAddr chk.writeAddr chk.length))) := by
  cases checked : checkParams prm with
  | error st => exact .inl ⟨st, by rw [synthesize, checked]⟩
  | ok lp =>
    cases aligned : misaligned lp (quantities lp chk.readAddr chk.writeAddr chk.length) chk.length with
    | true => exact .inl ⟨_, synthesize_misaligned checked aligned⟩
    | false =>
      by_cases absent : s.platform.synthCapacity.toNat < 1 ∨ e.allocOk = false
      · obtain ⟨st, failed, -⟩ := synthesize_noStorage checked aligned absent
        exact .inl ⟨st, failed⟩
      · rw [not_or, Nat.not_lt, Bool.not_eq_false] at absent
        obtain ⟨size, obtained⟩ := absent
        exact .inr ⟨lp, rfl, size, synthesize_run checked aligned size obtained rfl⟩

/-- The synthesizer changes memory alone, and keeps its canonical form. -/
theorem synthesize_frame {e : Env} {chk : Chunk} {prm : XferParams} {s t : State}
    {r : Except Status (Buffer × List Word)} (answer : synthesize e chk prm s = (t, r)) :
    t = { s with mem := t.mem } ∧ (s.mem.wf = true → t.mem.wf = true) := by
  rcases synthesize_cases e chk prm s with ⟨st, failed⟩ | ⟨lp, -, -, run⟩
  · cases failed.symm.trans answer
    exact ⟨rfl, id⟩
  · cases run.symm.trans answer
    exact ⟨rfl, fun wf => runOps_wf (applyWrites_wf wf)⟩

/-- A program that was synthesized is the new buffer grown by the bytes of R543, within its capacity, and ends in its
END sentinel (R541, R543). -/
theorem synthesize_program {e : Env} {chk : Chunk} {prm : XferParams} {s t : State} {P : Buffer} {ccrs : List Word}
    (answer : synthesize e chk prm s = (t, .ok (P, ccrs))) :
    ∃ len, P = { synthBuffer s e with len := len } ∧ len < P.cap ∧ 0 < P.cap ∧
      (s.mem.wf = true → t.bufByte P len = 0x00) := by
  rcases synthesize_cases e chk prm s with ⟨st, failed⟩ | ⟨lp, checked, size, run⟩
  · cases failed.symm.trans answer
  · have channel := (checkParams_ok checked).2
    obtain ⟨fits, full⟩ := emits_plan (R := chk.readAddr) (W := chk.writeAddr) (L := chk.length) channel
      (synthBuffer s e) (synthMemory s e) (synthBuffer_closed s e) (Nat.zero_le _) size
    rw [run] at answer
    rcases Nat.lt_or_ge ((synthBuffer s e).len + synthLength lp chk.readAddr chk.writeAddr chk.length)
      (synthBuffer s e).cap with room | noRoom
    · obtain ⟨m, emitted⟩ := fits room
      rw [emitted] at answer
      cases answer
      exact ⟨_, rfl, room, size, fun wf => (runOps_plan_ends channel (synthBuffer_closed s e)
        s.platform.synthCapacity.isLt (applyWrites_wf wf) room emitted).2⟩
    · obtain ⟨m, emitted⟩ := full noRoom
      rw [emitted] at answer
      cases answer

/-- A program that was synthesized is well formed (R102, R104). -/
theorem synthesize_wf {e : Env} {chk : Chunk} {prm : XferParams} {s t : State} {P : Buffer} {ccrs : List Word}
    (answer : synthesize e chk prm s = (t, .ok (P, ccrs))) : P.Wf := by
  obtain ⟨len, rfl, fits, pos, -⟩ := synthesize_program answer
  have fresh : (synthBuffer s e).Wf :=
    (freshBuffer_wf e.allocBase pos s.platform.synthCapacity.isLt).flags false true false
  exact fresh.grow (Nat.zero_le _) fits

end Sys2Proof.Machine
end

section
/-! PROOFS. What the shared operations of the context commands can do, said once each: an issue (R700), a start (R615), the
reconciliation of a channel (R621), its release (R640), an attachment (R610); each keeps the invariants. -/

namespace Sys2Proof.Machine

/-! ## One channel's fields of the context -/

/-- The context with the fields of one channel written. -/
def Context.setChannel (c : Context) (ch : Fin 8) (st : ChState) (fault : Word) (pending : Option Nat) (ack : Bool) :
    Context :=
  { c with
    chState := c.chState.set ch st
    lastFault := c.lastFault.set ch fault
    pending := c.pending.set ch pending
    errAck := c.errAck.set ch ack }

/-- Writing back what a vector holds changes nothing. -/
theorem vector_set_self {α : Type} (v : Vector α 8) (ch : Fin 8) : v.set ch v[ch] = v := by
  simp

namespace Context.Inv

variable {c : Context} {live : List Nat} {ch : Fin 8}

/-- The invariant is kept where the channel's new fields agree with one another and its program is live and pending on
no other channel. -/
theorem setChannel (inv : c.Inv live) {st : ChState} {fault : Word} {pending : Option Nat} {ack : Bool}
    (free : pending = none ↔ st = .free) (alive : ∀ h, pending = some h → h ∈ live)
    (elsewhere : ∀ h, pending = some h → ∀ k : Fin 8, k ≠ ch → c.pending[k] ≠ some h)
    (noFault : st = .free → fault = 0) (acked : ack = true → st = .error ∨ st = .aborted) :
    (c.setChannel ch st fault pending ack).Inv live := by
  refine ⟨fun k => ?_, fun i j h hi hj => ?_, fun k => ?_, fun k => ?_, fun k h hk => ?_, inv.dbgThere, inv.dbgCap⟩ <;>
    simp only [Context.setChannel, vector_set_get] at *
  · split
    · exact free
    · exact inv.pending k
  · split at hi <;> split at hj
    · exact Eq.trans ‹_› (Eq.symm ‹_›)
    · exact absurd hj (elsewhere h hi j ‹_›)
    · exact absurd hi (elsewhere h hj i ‹_›)
    · exact inv.distinct i j h hi hj
  · split
    · exact noFault
    · exact inv.fault k
  · split
    · exact acked
    · exact inv.ack k
  · split at hk
    · exact alive h hk
    · exact inv.alive k h hk

/-- A channel that is not Free goes to another such state. -/
theorem setState (inv : c.Inv live) {st : ChState} (old : c.chState[ch] ≠ .free) (new : st ≠ .free)
    (acked : c.errAck[ch] = true → st = .error ∨ st = .aborted) :
    ({ c with chState := c.chState.set ch st } : Context).Inv live := by
  have kept := inv.setChannel (ch := ch) (fault := c.lastFault[ch]) (pending := c.pending[ch])
    (iff_of_false (mt (inv.pending ch).1 old) new) (inv.alive ch) (fun h pending k other elsewhere =>
      other (inv.distinct k ch h elsewhere pending)) (fun e => absurd e new) acked
  simpa only [Context.setChannel, vector_set_self] using kept

/-- A channel that is not Free records a fault (R621). -/
theorem setError (inv : c.Inv live) (word : Word) (old : c.chState[ch] ≠ .free) :
    ({ c with
      lastFault := c.lastFault.set ch word
      errAck := c.errAck.set ch false
      chState := c.chState.set ch .error } : Context).Inv live := by
  have kept := inv.setChannel (ch := ch) (st := .error) (fault := word) (pending := c.pending[ch]) (ack := false)
    (iff_of_false (mt (inv.pending ch).1 old) (by decide)) (inv.alive ch) (fun h pending k other elsewhere =>
      other (inv.distinct k ch h elsewhere pending)) nofun nofun
  simpa only [Context.setChannel, vector_set_self] using kept

/-- A channel takes a live program that is pending nowhere (R610). -/
theorem attach (inv : c.Inv live) {h : Nat} (alive : h ∈ live) (elsewhere : ∀ k : Fin 8, c.pending[k] ≠ some h) :
    (c.attach ch h).Inv live :=
  inv.setChannel (ch := ch) (st := .ready) (fault := 0) (pending := some h) (ack := false)
    (iff_of_false nofun nofun) (by rintro _ ⟨⟩; exact alive) (by rintro _ ⟨⟩ k -; exact elsewhere k) nofun nofun

/-- A channel lets its program go and is Free (R640). -/
theorem release (inv : c.Inv live) : ({ c with
    pending := c.pending.set ch none
    lastFault := c.lastFault.set ch 0
    errAck := c.errAck.set ch false
    chState := c.chState.set ch .free } : Context).Inv live :=
  inv.setChannel (ch := ch) (st := .free) (fault := 0) (pending := none) (ack := false)
    (iff_of_true rfl rfl) nofun nofun (fun _ => rfl) nofun

/-- The debug buffer keeps its capacity. -/
theorem setDbg (inv : c.Inv live) {dbg : Option DebugBuffer}
    (cap : dbg.map (·.hdr.cap) = c.dbg.map (·.hdr.cap)) : ({ c with dbg := dbg } : Context).Inv live where
  pending := inv.pending
  distinct := inv.distinct
  fault := inv.fault
  ack := inv.ack
  alive := inv.alive
  dbgThere := fun ready gone => by
    rw [show dbg = none from gone, Option.map_none, eq_comm, Option.map_eq_none_iff] at cap
    exact inv.dbgThere ready cap
  dbgCap := fun d hd => by
    rw [show dbg = some d from hd, Option.map_some, eq_comm, Option.map_eq_some_iff] at cap
    obtain ⟨d', there, e⟩ := cap
    exact e ▸ inv.dbgCap d' there

end Context.Inv

/-! ## An issue (R700, R706) -/

/-- What issues do, whether they succeed or not: the engine has moved, and of the context the debug buffer's content has
changed (R701, R702). -/
structure Issued (c : Context) (s : State) (c' : Context) (s' : State) : Prop where
  moved : EngineMoved s s'
  context : c' = { c with dbg := c'.dbg }
  cap : c'.dbg.map (·.hdr.cap) = c.dbg.map (·.hdr.cap)

namespace Issued

variable {c c' c'' : Context} {s s' s'' : State}

theorem refl (c : Context) (s : State) : Issued c s c s := ⟨.refl s, rfl, rfl⟩

theorem trans (first : Issued c s c' s') (second : Issued c' s' c'' s'') : Issued c s c'' s'' where
  moved := first.moved.trans second.moved
  context := by rw [second.context, first.context]
  cap := second.cap.trans first.cap

theorem keeps (issued : Issued c s c' s') : Keeps (s.holding c) (s'.holding c') :=
  keeps_of_context issued.moved fun _ inv => by
    rw [issued.context]
    exact inv.setDbg issued.cap

end Issued

theorem issueFailed_issued (c : Context) (s : State) (st : Status) :
    Issued c s (issueFailed c s st).1 (issueFailed c s st).2.1 where
  moved := ⟨rfl, rfl, rfl, id⟩
  context := rfl
  cap := by simp [issueFailed, Function.comp_def]

theorem issueTail_issued (thread : Bool) (ch : Option Nat) (op : EncOp) (c : Context) (s : State) :
    Issued c s (issueTail thread ch op c s).1 (issueTail thread ch op c s).2.1 := by
  unfold issueTail
  dsimp only
  split
  · exact issueFailed_issued ..
  · exact issueFailed_issued ..
  · rename_i d _ there
    split
    · exact issueFailed_issued ..
    · rename_i ed encoded
      have cap : ed.buffer.cap = d.hdr.cap := (editOf_encodeOp encoded).place.2.1
      refine ⟨?_, rfl, by rw [there]; exact congrArg some cap⟩
      dsimp only
      exact ((EngineMoved.regWrite _ .dbginst0 _ s).trans (EngineMoved.regWrite _ .dbginst1 _ _)).trans
        (EngineMoved.regWrite _ .dbgcmd _ _)

theorem issue_issued (thread : Bool) (ch : Option Nat) (op : EncOp) (c : Context) (s : State) :
    Issued c s (issue thread ch op c s).1 (issue thread ch op c s).2.1 := by
  have read : Issued c s c (regRead c.base .dbgstatus s).1 := ⟨EngineMoved.regRead .., rfl, rfl⟩
  unfold issue
  dsimp only
  split
  · exact read.trans (issueFailed_issued ..)
  · exact read.trans (issueTail_issued ..)

theorem issueKillHold_issued {ch : Fin 8} {c c' : Context} {s s' : State} {st : Status}
    (killed : issueKillHold ch c s = some (c', s', st)) : Issued c s c' s' := by
  obtain ⟨u, held, tail⟩ := Option.map_eq_some_iff.1 killed
  have issued := issueTail_issued true (some ch.val) .kill c u
  rw [tail] at issued
  exact Issued.trans ⟨EngineMoved.holdIdle held, rfl, rfl⟩ issued

theorem killAll_issued {chs : List (Fin 8)} {c c' : Context} {s s' : State}
    (killed : killAll chs c s = some (c', s')) : Issued c s c' s' := by
  induction chs generalizing c s with
  | nil =>
    cases killed
    exact .refl _ _
  | cons ch chs ih =>
    rw [killAll] at killed
    split at killed
    · cases killed
    · rename_i first
      exact (issueKillHold_issued first).trans (ih killed)

/-! ## Setup and start (R610, R615) -/

theorem setupCheck_none {ch : Fin 8} {c : Context} :
    setupCheck ch c = none ↔ c.abortPending = false ∧ c.chState[ch] = .free := by
  unfold setupCheck
  split_ifs with pending busy other
  · simp [pending]
  · simp [busy]
  · exact iff_of_false nofun fun free => other free.2
  · simpa [pending] using other

/-- Where a program is attached, the channel was Free and the program live, valid, and pending nowhere. -/
theorem attach_ok {ch : Fin 8} {p : Handle} {c c' : Context} {s : State} (attached : attach ch p c s = .ok c') :
    ∃ h b, p = some h ∧ bufGet s.buffers h = some b ∧ setupCheck ch c = none ∧
      (∀ k : Fin 8, c.pending[k] ≠ some h) ∧ s.structurallyValid b = true ∧ c' = c.attach ch h := by
  unfold attach at attached
  cases p with
  | none => cases attached
  | some h =>
    rw [findBuffer_some] at attached
    cases live : bufGet s.buffers h with
    | none => simp [live] at attached
    | some b =>
      simp only [live, Option.map_some] at attached
      split at attached
      · cases attached
      · rename_i checked
        split_ifs at attached with elsewhere valid
        cases attached
        refine ⟨h, b, rfl, live, checked, fun k pending => elsewhere ?_, by simpa using valid, rfl⟩
        exact List.any_eq_true.2 ⟨k, mem_allChannels k, by simp [pending]⟩

theorem keeps_attach {ch : Fin 8} {p : Handle} {c c' : Context} {s : State} (attached : attach ch p c s = .ok c') :
    Keeps (s.holding c) (s.holding c') := by
  obtain ⟨h, b, -, live, -, elsewhere, -, rfl⟩ := attach_ok attached
  refine ⟨id, id, fun _ inv c' new => ?_⟩
  cases new
  exact (inv c rfl).attach ((bufGet_isSome_iff _ h).1 (by
    show (bufGet s.buffers h).isSome = true
    rw [live]
    rfl)) elsewhere

/-- A start changes nothing, or fails as its issue does, or makes a Ready channel Busy (R615). -/
theorem startCh_cases (ch : Fin 8) (c : Context) (s : State) :
    (∃ st, st ≠ .success ∧ startCh ch c s = (c, s, st)) ∨
    c.chState[ch] = .ready ∧ ∃ h b, c.pending[ch] = some h ∧ bufGet s.buffers h = some b ∧
      let r := issueGo ch b.base b.nonSecure c s
      (r.2.2 ≠ .success ∧ startCh ch c s = r ∨
        r.2.2 = .success ∧
          startCh ch c s = ({ r.1 with chState := r.1.chState.set ch .busy }, r.2.1, .success)) := by
  unfold startCh
  split
  · exact .inl ⟨_, by decide, rfl⟩
  · split
    · exact .inl ⟨_, by decide, rfl⟩
    · rename_i ready
      cases pending : c.pending[ch] with
      | none => exact .inl ⟨_, by decide, rfl⟩
      | some h =>
        cases live : bufGet s.buffers h with
        | none =>
          refine .inl ⟨.nullptr, by decide, ?_⟩
          simp [findBuffer_some, live]
        | some b =>
          refine .inr ⟨by simpa using ready, h, b, rfl, live, ?_⟩
          simp only [findBuffer_some, live, Option.map_some]
          split
          · exact .inr ⟨by assumption, rfl⟩
          · exact .inl ⟨by assumption, rfl⟩

theorem keeps_startCh (ch : Fin 8) (c : Context) (s : State) :
    Keeps (s.holding c) ((startCh ch c s).2.1.holding (startCh ch c s).1) := by
  rcases startCh_cases ch c s with ⟨st, -, r⟩ | ⟨ready, h, b, -, -, ⟨-, r⟩ | ⟨-, r⟩⟩ <;> rw [r]
  · exact .refl _
  · exact (issue_issued ..).keeps
  · have issued : Issued c s (issueGo ch b.base b.nonSecure c s).1 (issueGo ch b.base b.nonSecure c s).2.1 :=
      issue_issued ..
    have same : (issueGo ch b.base b.nonSecure c s).1.chState[ch] = .ready := by rw [issued.context]; exact ready
    have noAck {live : List Nat} (inv : (issueGo ch b.base b.nonSecure c s).1.Inv live) :
        (issueGo ch b.base b.nonSecure c s).1.errAck[ch] = true → ChState.busy = .error ∨ ChState.busy = .aborted := by
      intro set
      rcases inv.ack ch set with e | e <;> cases same.symm.trans e
    exact issued.keeps.trans (keeps_of_context (.refl _) fun _ inv =>
      inv.setState (by rw [same]; decide) (by decide) (noAck inv))

theorem keeps_startAll (chs : List (Fin 8)) (c : Context) (s : State) :
    Keeps (s.holding c) ((startAll chs c s).2.1.holding (startAll chs c s).1) := by
  induction chs generalizing c s with
  | nil => exact .refl _
  | cons ch chs ih =>
    rw [startAll]
    split
    · dsimp only
      split
      · exact (keeps_startCh ch c s).trans (ih _ _)
      · exact keeps_startCh ch c s
    · exact ih c s

/-! ## Reconciliation (R620, R621, R656) -/

/-- The transitions of R601 that R621 names. -/
inductive ReconcileStep (ch : Fin 8) (c : Context) : Context → Prop where
  | same : ReconcileStep ch c c
  | error (busy : c.chState[ch] = .busy) (word : Word) :
    ReconcileStep ch c { c with
      lastFault := c.lastFault.set ch word
      errAck := c.errAck.set ch false
      chState := c.chState.set ch .error }
  | aborted (active : c.chState[ch] ≠ .free ∧ c.chState[ch] ≠ .aborted) (pending : c.abortPending = true) :
    ReconcileStep ch c { c with chState := c.chState.set ch .aborted }
  | done (busy : c.chState[ch] = .busy) (pending : c.abortPending = false) :
    ReconcileStep ch c { c with chState := c.chState.set ch .done }

/-- Whatever the engine does before the register reads. -/
theorem reconcileCh_step (fsrc : Word) (ch : Fin 8) (c : Context) (s : State) :
    ReconcileStep ch c (reconcileCh fsrc ch c s).1 ∧ EngineMoved s (reconcileCh fsrc ch c s).2 := by
  unfold reconcileCh
  dsimp only
  split
  · exact ⟨.same, .refl s⟩
  · rename_i active
    rw [not_or] at active
    split
    · rename_i faults
      exact ⟨.error faults.1 _, EngineMoved.regRead c.base (.ftr ch) s⟩
    · have read := EngineMoved.regRead c.base (.csr ch) s
      split
      · rename_i aborts
        exact ⟨.aborted active (Bool.and_eq_true_iff.1 aborts).1, read⟩
      · rename_i noAbort
        split
        · rename_i ends
          refine ⟨.done ends.1 ?_, read⟩
          rw [ends.2, Bool.and_true, Bool.not_eq_true] at noAbort
          exact noAbort
        · exact ⟨.same, read⟩

theorem ReconcileStep.inv {ch : Fin 8} {c c' : Context} {live : List Nat} (step : ReconcileStep ch c c')
    (inv : c.Inv live) : c'.Inv live := by
  cases step with
  | same => exact inv
  | error busy word => exact inv.setError word (by rw [busy]; decide)
  | aborted active pending => exact inv.setState active.1 (by decide) fun _ => .inr rfl
  | done busy pending =>
    refine inv.setState (by rw [busy]; decide) (by decide) fun set => ?_
    rcases inv.ack ch set with e | e <;> cases busy.symm.trans e

theorem reconcileChs_inv (fsrc : Word) (chs : List (Fin 8)) (c : Context) (s : State) :
    (∀ live, c.Inv live → (reconcileChs fsrc chs c s).1.Inv live) ∧ EngineMoved s (reconcileChs fsrc chs c s).2 := by
  induction chs generalizing c s with
  | nil => exact ⟨fun _ => id, .refl s⟩
  | cons ch chs ih =>
    obtain ⟨step, moved⟩ := reconcileCh_step fsrc ch c s
    obtain ⟨rest, movedOn⟩ := ih (reconcileCh fsrc ch c s).1 (reconcileCh fsrc ch c s).2
    exact ⟨fun live inv => rest live (step.inv inv), moved.trans movedOn⟩

/-- The manager's fault shadow and a pending abort play no part in the invariant. -/
theorem Context.Inv.flags {c : Context} {live : List Nat} (inv : c.Inv live) (mgrFault : Word) (abortPending : Bool) :
    ({ c with mgrFault := mgrFault, abortPending := abortPending } : Context).Inv live :=
  ⟨inv.pending, inv.distinct, inv.fault, inv.ack, inv.alive, inv.dbgThere, inv.dbgCap⟩

/-- Reconciliation with the manager's fault shadow: the register reads, then every channel in turn. -/
theorem reconcile_eq (c : Context) (s : State) :
    ∃ u mgrFault fsrc, EngineMoved s u ∧
      reconcile c s = (clearAbortPending (reconcileChs fsrc allChannels { c with mgrFault := mgrFault } u).1,
        (reconcileChs fsrc allChannels { c with mgrFault := mgrFault } u).2) := by
  have fsrd := EngineMoved.regRead c.base .fsrd s
  have ftrd := EngineMoved.regRead c.base .ftrd (regRead c.base .fsrd s).1
  have fsrc := EngineMoved.regRead c.base .fsrc (regRead c.base .ftrd (regRead c.base .fsrd s).1).1
  exact ⟨_, _, _, (fsrd.trans ftrd).trans fsrc, rfl⟩

theorem reconcile_moved (c : Context) (s : State) : EngineMoved s (reconcile c s).2 := by
  obtain ⟨u, mgrFault, fsrc, moved, r⟩ := reconcile_eq c s
  rw [r]
  dsimp only
  exact moved.trans (reconcileChs_inv fsrc allChannels { c with mgrFault := mgrFault } u).2

theorem keeps_reconcile (c : Context) (s : State) :
    Keeps (s.holding c) ((reconcile c s).2.holding (reconcile c s).1) := by
  refine keeps_of_context (reconcile_moved c s) fun live inv => ?_
  obtain ⟨u, mgrFault, fsrc, -, r⟩ := reconcile_eq c s
  have reconciled := (reconcileChs_inv fsrc allChannels { c with mgrFault := mgrFault } u).1 live
    (inv.flags mgrFault c.abortPending)
  rw [r, clearAbortPending_eq]
  generalize (reconcileChs fsrc allChannels { c with mgrFault := mgrFault } u).1 = c' at reconciled
  exact reconciled.flags c'.mgrFault _

/-! ## Release (R640) -/

theorem keeps_release (ch : Fin 8) (c : Context) (s : State) :
    Keeps (s.holding c) ((release ch c s).2.holding (release ch c s).1) := by
  have letGo : Keeps (s.holding c) (s.holding { c with
      pending := c.pending.set ch none
      lastFault := c.lastFault.set ch 0
      errAck := c.errAck.set ch false
      chState := c.chState.set ch .free }) := keeps_of_context (.refl s) fun _ inv => inv.release
  unfold release
  dsimp only
  split
  · exact letGo
  · rename_i h b found
    split
    · refine ⟨id, fun ok => ok.sublist (bufErase_sublist ..), fun ok inv c' new => ?_⟩
      cases new
      refine (inv c rfl).release.over fun k g pending => ?_
      simp only [vector_set_get] at pending
      split at pending
      · cases pending
      · rename_i other
        have this : c.pending[ch] = some h := by
          unfold State.findBuffer at found
          split at found
          · cases found
          · rename_i g e
            cases live : bufGet s.buffers g <;> rw [live] at found <;> cases found
            exact e
        have differs : g ≠ h := fun e => other ((inv c rfl).distinct k ch h (e ▸ pending) this)
        show g ∈ handles (bufErase s.buffers h)
        rw [← bufGet_isSome_iff, bufGet_bufErase_ne differs, bufGet_isSome_iff]
        exact (inv c rfl).alive k g pending
    · exact letGo

theorem keeps_releaseAll (chs : List (Fin 8)) (c : Context) (s : State) :
    Keeps (s.holding c) ((releaseAll chs c s).2.holding (releaseAll chs c s).1) := by
  induction chs generalizing c s with
  | nil => exact .refl _
  | cons ch chs ih => exact (keeps_release ch c s).trans (ih _ _)

end Sys2Proof.Machine
end

section
/-! PROOFS. Every command and every step of the machine keeps the invariants (R102, R104, R122, R666), and power-on meets
them. -/

namespace Sys2Proof.Machine

/-! ## Context commands -/

/-- Where the context command answers, it has kept the invariants. -/
def CtxResult.KeepsFrom (c : Context) (s : State) (r : CtxResult) : Prop :=
  ∀ c' s' q, r = .next (c', s', q) → Keeps (s.holding c) (s'.holding c')

section
variable {c c' : Context} {s s' : State}

theorem keepsFrom_ctxReply (keeps : Keeps (s.holding c) (s'.holding c')) (st : Status) (v : Word) :
    CtxResult.KeepsFrom c s (ctxReply c' s' st v) := by
  rintro _ _ _ answer
  cases answer
  exact keeps

theorem keepsFrom_ite {p : Prop} [Decidable p] {x y : CtxResult} (yes : CtxResult.KeepsFrom c s x)
    (no : CtxResult.KeepsFrom c s y) : CtxResult.KeepsFrom c s (if p then x else y) := by
  split
  · exact yes
  · exact no

/-- What keeps the invariants on the way to the answer may come first. -/
theorem CtxResult.KeepsFrom.after {r : CtxResult} (rest : CtxResult.KeepsFrom c' s' r)
    (first : Keeps (s.holding c) (s'.holding c')) : CtxResult.KeepsFrom c s r :=
  fun c'' s'' q answer => first.trans (rest c'' s'' q answer)

/-- The checks of R602, then the command. -/
theorem keepsFrom_onContext {cr : CtxRef} {f : Context → CtxResult}
    (keeps : ∀ c, CtxResult.KeepsFrom c s (f c)) : Result.KeepsFrom s (onContext cr s f) := by
  by_cases absent : cr = .null ∨ s.ctx = none
  · rw [onContext_null absent]
    exact keepsFrom_reply (.refl s) _ _
  · rw [not_or] at absent
    obtain rfl : cr = .ctx := by
      cases cr
      · exact absurd rfl absent.1
      · rfl
    obtain ⟨c, hc⟩ := Option.ne_none_iff_exists'.1 absent.2
    cases ready : c.initialised with
    | false =>
      rw [onContext_notReady hc ready]
      exact keepsFrom_reply (.refl s) _ _
    | true =>
      rw [onContext_ready hc ready]
      rintro t q answer
      cases done : f c with
      | next r =>
        rw [done] at answer
        cases answer
        have kept := keeps c _ _ _ done
        rw [holding_self hc] at kept
        exact kept
      | fault r =>
        rw [done] at answer
        cases answer
      | refused r =>
        rw [done] at answer
        cases answer

theorem keepsFrom_onCtxChannel {cr : CtxRef} {ch : Nat} {f : Fin 8 → Context → CtxResult}
    (keeps : ∀ ch c, CtxResult.KeepsFrom c s (f ch c)) : Result.KeepsFrom s (onCtxChannel cr ch s f) := by
  refine keepsFrom_onContext fun c => ?_
  split
  · exact keeps _ c
  · exact keepsFrom_ctxReply (.refl _) _ _

theorem keepsFrom_pollCh {cr : CtxRef} {ch : Nat} {f : Fin 8 → Context → State → CtxResult}
    (keeps : ∀ ch c s, CtxResult.KeepsFrom c s (f ch c s)) : Result.KeepsFrom s (pollCh cr ch s f) :=
  keepsFrom_onCtxChannel fun ch c => (keeps ch _ _).after (keeps_reconcile c s)

theorem keepsFrom_pollAll {cr : CtxRef} {f : Context → State → CtxResult}
    (keeps : ∀ c s, CtxResult.KeepsFrom c s (f c s)) : Result.KeepsFrom s (pollAll cr s f) :=
  keepsFrom_onContext fun c => (keeps _ _).after (keeps_reconcile c s)

/-- A command that has no answer. -/
theorem keepsFrom_fault (f : Fault) : CtxResult.KeepsFrom c s (.fault f) := by
  rintro _ _ _ ⟨⟩

theorem keepsFrom_refused (f : Refusal) : CtxResult.KeepsFrom c s (.refused f) := by
  rintro _ _ _ ⟨⟩

/-- A command that only answers. -/
theorem keepsFrom_same (c : Context) (s : State) (st : Status) (v : Word) :
    CtxResult.KeepsFrom c s (ctxReply c s st v) :=
  keepsFrom_ctxReply (.refl _) st v

end

/-! ## Start and polls (R615, R616, R625..R638) -/

theorem keepsFrom_cmdStartTransferCh (cr : CtxRef) (ch : Nat) (s : State) :
    Result.KeepsFrom s (cmdStartTransferCh cr ch s) :=
  keepsFrom_onCtxChannel fun ch c => keepsFrom_ctxReply (keeps_startCh ch c s) _ _

theorem keepsFrom_cmdStartTransfer (cr : CtxRef) (s : State) : Result.KeepsFrom s (cmdStartTransfer cr s) :=
  keepsFrom_onContext fun c => keepsFrom_ite (keepsFrom_same _ _ _ _)
    (keepsFrom_ctxReply (keeps_startAll allChannels c s) _ _)

theorem keepsFrom_cmdBusyCh (cr : CtxRef) (ch : Nat) (s : State) : Result.KeepsFrom s (cmdBusyCh cr ch s) :=
  keepsFrom_pollCh fun _ _ _ => keepsFrom_ite (keepsFrom_same _ _ _ _) (keepsFrom_same _ _ _ _)

theorem keepsFrom_cmdBusy (cr : CtxRef) (s : State) : Result.KeepsFrom s (cmdBusy cr s) :=
  keepsFrom_pollAll fun _ _ => keepsFrom_same _ _ _ _

theorem keepsFrom_cmdTransferError (cr : CtxRef) (ch : Nat) (s : State) :
    Result.KeepsFrom s (cmdTransferError cr ch s) :=
  keepsFrom_pollCh fun _ _ _ => keepsFrom_ite (keepsFrom_same _ _ _ _) (keepsFrom_same _ _ _ _)

/-- The report of an Error marks the channel (R632). -/
theorem keeps_acknowledge {ch : Fin 8} {c : Context} (s : State) (error : c.chState[ch] = .error) :
    Keeps (s.holding c) (s.holding { c with errAck := c.errAck.set ch true }) := by
  refine keeps_of_context (.refl s) fun live inv => ?_
  refine ⟨inv.pending, inv.distinct, inv.fault, fun k => ?_, inv.alive, inv.dbgThere, inv.dbgCap⟩
  simp only [vector_set_get]
  split
  · rename_i e
    exact fun _ => .inl (e ▸ error)
  · exact inv.ack k

theorem keepsFrom_cmdCheckState (cr : CtxRef) (ch : Nat) (s : State) :
    Result.KeepsFrom s (cmdCheckState cr ch s) := by
  refine keepsFrom_pollCh fun ch c s => ?_
  split
  · exact keepsFrom_ite (keepsFrom_same _ _ _ _) (keepsFrom_ctxReply (keeps_acknowledge s ‹_›) _ _)
  · exact keepsFrom_same _ _ _ _

theorem keepsFrom_cmdManagerError (cr : CtxRef) (s : State) : Result.KeepsFrom s (cmdManagerError cr s) :=
  keepsFrom_pollAll fun _ _ => keepsFrom_ite (keepsFrom_same _ _ _ _) (keepsFrom_same _ _ _ _)

theorem keepsFrom_cmdCompletedCh (cr : CtxRef) (ch : Nat) (s : State) :
    Result.KeepsFrom s (cmdCompletedCh cr ch s) := by
  refine keepsFrom_pollCh fun ch c s => ?_
  cases c.chState[ch] with
  | done => exact keepsFrom_ctxReply (keeps_release ch c s) _ _
  | error | aborted | free | ready | busy => exact keepsFrom_same _ _ _ _

theorem keepsFrom_cmdCompleted (cr : CtxRef) (s : State) : Result.KeepsFrom s (cmdCompleted cr s) :=
  keepsFrom_pollAll fun c s => keepsFrom_ite (keepsFrom_same _ _ _ _) (keepsFrom_ite (keepsFrom_same _ _ _ _)
    (keepsFrom_ite (keepsFrom_same _ _ _ _) (keepsFrom_ctxReply (keeps_releaseAll _ c s) _ _)))

theorem keepsFrom_cmdAbortedCh (cr : CtxRef) (ch : Nat) (s : State) : Result.KeepsFrom s (cmdAbortedCh cr ch s) :=
  keepsFrom_pollCh fun ch c s => keepsFrom_ite (keepsFrom_ctxReply (keeps_release ch c s) _ _) (keepsFrom_same _ _ _ _)

theorem keepsFrom_cmdAborted (cr : CtxRef) (s : State) : Result.KeepsFrom s (cmdAborted cr s) :=
  keepsFrom_pollAll fun c s => keepsFrom_ite (keepsFrom_same _ _ _ _)
    (keepsFrom_ite (keepsFrom_same _ _ _ _) (keepsFrom_ctxReply (keeps_releaseAll _ c s) _ _))

/-! ## Abort and cleanup (R650..R653, R735) -/

theorem keepsFrom_abortSafe (c : Context) (s : State) : CtxResult.KeepsFrom c s (abortSafe c s) := by
  refine keepsFrom_ite (keepsFrom_same _ _ _ _) ?_
  cases killed : killAll (c.channels (· != .free)) { c with abortPending := true } s with
  | none => exact keepsFrom_fault _
  | some r =>
    have pending : Keeps (s.holding c) (s.holding { c with abortPending := true }) :=
      keeps_of_context (.refl s) fun _ inv => inv.flags c.mgrFault true
    exact keepsFrom_ctxReply (pending.trans (killAll_issued killed).keeps) _ _

/-- Forcing every channel that is not Free to Aborted (R653). -/
theorem Context.Inv.abortAll {c : Context} {live : List Nat} (inv : c.Inv live) :
    ({ c with chState := abortStates c.chState, abortPending := false, mgrFault := 0 } : Context).Inv live := by
  refine ⟨fun k => ?_, inv.distinct, fun k free => ?_, fun k set => ?_, inv.alive, inv.dbgThere, inv.dbgCap⟩
  · have pending := inv.pending k
    rw [abortStates_getElem]
    split
    · exact pending.trans (iff_of_true ‹_› rfl)
    · exact pending.trans (iff_of_false ‹_› nofun)
  · rw [abortStates_getElem] at free
    split at free
    · exact inv.fault k ‹_›
    · cases free
  · rw [abortStates_getElem]
    rw [if_neg (fun free => by rcases inv.ack k set with e | e <;> cases free.symm.trans e)]
    exact .inr rfl

theorem resetEngine_moved (s : State) : EngineMoved s (resetRelease (resetAssert s)) := ⟨rfl, rfl, rfl, id⟩

theorem keepsFrom_cmdAbort (cr : CtxRef) (mode : Option AbortMode) (s : State) :
    Result.KeepsFrom s (cmdAbort cr mode s) := by
  refine keepsFrom_onContext fun c => ?_
  split
  · exact keepsFrom_same _ _ _ _
  · exact keepsFrom_abortSafe c s
  · exact keepsFrom_ctxReply (keeps_of_context (resetEngine_moved s) fun _ inv => inv.abortAll) _ _
  · exact keepsFrom_same _ _ _ _

theorem dropPrograms_sublist (c : Context) (k : Nat) (chs : List (Fin 8)) (l : List (Nat × Buffer)) :
    (dropPrograms c k chs l).Sublist l := by
  induction chs generalizing l with
  | nil => exact .refl l
  | cons ch chs ih =>
    rw [dropPrograms]
    split
    · exact ih l
    · split
      · exact ih l
      · exact (ih _).trans (bufErase_sublist ..)

/-- A context with every channel Free and no debug buffer (R904). -/
theorem cleanContext_inv (c : Context) (live : List Nat) : ({ c with
    dbg := none
    chState := Vector.replicate 8 .free
    pending := Vector.replicate 8 none
    lastFault := Vector.replicate 8 0
    errAck := Vector.replicate 8 false
    initialised := false } : Context).Inv live :=
  ⟨by simp, by simp, by simp, by simp, by simp, nofun, nofun⟩

theorem keepsFrom_cmdCleanup (cr : CtxRef) (s : State) : Result.KeepsFrom s (cmdCleanup cr s) := by
  refine keepsFrom_onContext fun c => ?_
  cases killed : killAll (c.channels (· != .free)) c s with
  | none => exact keepsFrom_fault _
  | some r =>
    refine keepsFrom_ctxReply ((killAll_issued killed).keeps.trans ?_) _ _
    refine ⟨id, fun ok => ok.sublist (dropPrograms_sublist ..), fun _ _ c' new => ?_⟩
    cases new
    exact cleanContext_inv _ _

/-! ## Initialise (R730, R900) -/

theorem newContext_inv (base : Word) (wordBytes : Nat) (place : Word) (live : List Nat) :
    (newContext base wordBytes (newDebugBuffer place)).Inv live := by
  refine ⟨by simp [newContext], by simp [newContext], by simp [newContext], by simp [newContext],
    by simp [newContext], nofun, fun d there => ?_⟩
  cases there
  rfl

theorem resetSequence_moved (hwInit : Option HwConfig) (s : State) : EngineMoved s (resetSequence hwInit s) := by
  cases hwInit <;> exact ⟨rfl, rfl, rfl, id⟩

theorem keeps_newContext (s : State) (base : Word) (wordBytes : Nat) (place : Word) :
    Keeps s { s with ctx := some (newContext base wordBytes (newDebugBuffer place)) } where
  memory := id
  buffers := id
  context := by
    rintro - - c new
    cases new
    exact newContext_inv ..

/-- The context that a failed initialise leaves (R730; log 35). -/
theorem keeps_uninitialise (s : State) (e : Engine) (k : Nat) :
    Keeps s (({ s with
      ctx := s.ctx.map fun (c : Context) => { c with initialised := false }
      engine := e } : State).drawn k) where
  memory := id
  buffers := id
  context := by
    rintro - inv c new
    obtain ⟨c₀, hc, rfl⟩ := Option.map_eq_some_iff.1 new
    obtain ⟨p, d, f, a, v, -, cap⟩ := inv c₀ hc
    exact ⟨p, d, f, a, v, nofun, cap⟩

theorem keepsFrom_cmdInitialise (base : Word) (wordBytes : Nat) (hwInit : Option HwConfig) (e : Env) (s : State) :
    Result.KeepsFrom s (cmdInitialise base wordBytes hwInit e s) := by
  have reset := (resetSequence_moved hwInit s).keeps
  unfold cmdInitialise finishInitialise
  split_ifs
  · exact keepsFrom_reply (.refl s) _ _
  · exact keepsFrom_reply (.refl s) _ _
  · exact keepsFrom_reply (.refl s) _ _
  · exact keepsFrom_reply (reset.trans (keeps_newContext _ base wordBytes e.allocBase)) _ _
  · exact keepsFrom_reply (reset.trans (keeps_uninitialise _ _ 1)) _ _

/-! ## Transfer setup (R740, R745) -/

theorem keepsFrom_autoStartCh (ch : Fin 8) (autoStart : Bool) (payload : Word) (record : Option XferParams)
    (c : Context) (s : State) : CtxResult.KeepsFrom c s (autoStartCh ch autoStart payload record c s) := by
  rintro c' s' q answer
  cases autoStart <;> cases answer
  · exact .refl _
  · exact keeps_startCh ch c s

theorem keepsFrom_setupWith (chk : Chunk) (prm : XferParams) (given autoStart : Bool) (e : Env) (c : Context)
    (s : State) : CtxResult.KeepsFrom c s (setupWith chk prm given autoStart e c s) := by
  unfold setupWith
  split
  · dsimp only
    split
    · exact keepsFrom_same _ _ _ _
    · cases program : synthesize e chk prm s with
      | mk t r =>
        obtain ⟨frame, memory⟩ := synthesize_frame program
        have wrote : Keeps (s.holding c) (t.holding c) := by
          rw [frame]
          exact ⟨memory, id, fun _ => id⟩
        cases r with
        | error st => exact keepsFrom_ctxReply wrote _ _
        | ok r =>
          obtain ⟨P, ccrs⟩ := r
          have wf : ({ P with loose := transferLoose chk prm P c } : Buffer).Wf :=
            (synthesize_wf program).flags P.nonSecure P.autoFree _
          have added : Keeps (t.holding c) ((t.addBuffer { P with loose := transferLoose chk prm P c }).holding c) :=
            keeps_addBuffer (s := t.holding c) wf
          dsimp only
          split
          · exact keepsFrom_ctxReply wrote _ _
          · rename_i c' attached
            exact (keepsFrom_autoStartCh _ _ _ _ _ _).after ((wrote.trans added).trans (keeps_attach attached))
  · exact keepsFrom_same _ _ _ _

theorem keeps_bypass {chk : Chunk} {c : Context} {s t : State} (copied : bypass chk s = some t) :
    Keeps (s.holding c) (t.holding c) := by
  unfold bypass at copied
  dsimp only at copied
  split_ifs at copied <;> cases copied <;> exact ⟨memWrites_wf, id, fun _ => id⟩

theorem keepsFrom_cmdSetupTransfer (cr : CtxRef) (chk : Option Chunk) (index : Nat) (autoStart : Bool) (e : Env)
    (s : State) : Result.KeepsFrom s (cmdSetupTransfer cr chk index autoStart e s) := by
  refine keepsFrom_onContext fun c => ?_
  split
  · exact keepsFrom_same _ _ _ _
  · split
    · exact keepsFrom_setupWith _ _ _ _ _ _ _
    · refine keepsFrom_ite ?_ (keepsFrom_setupWith _ _ _ _ _ _ _)
      split
      · exact keepsFrom_refused _
      · exact keepsFrom_ctxReply (keeps_bypass ‹_›) _ _

theorem keepsFrom_cmdSetupTransferProgram (cr : CtxRef) (ch : Nat) (p : Handle) (autoStart : Bool) (s : State) :
    Result.KeepsFrom s (cmdSetupTransferProgram cr ch p autoStart s) := by
  refine keepsFrom_onCtxChannel fun ch c => ?_
  split
  · exact keepsFrom_same _ _ _ _
  · exact (keepsFrom_autoStartCh _ _ _ _ _ _).after (keeps_attach ‹_›)

/-! ## Every command (R803) -/

theorem keepsFrom_cmdIsInitialised (cr : CtxRef) (s : State) : Result.KeepsFrom s (cmdIsInitialised cr s) := by
  unfold cmdIsInitialised
  split <;> exact keepsFrom_reply (.refl s) _ _

theorem keepsFrom_cmdSetShortThreshold (cr : CtxRef) (n : Word) (s : State) :
    Result.KeepsFrom s (cmdSetShortThreshold cr n s) :=
  keepsFrom_onContext fun c => keepsFrom_ctxReply (c := c) (c' := { c with shortThreshold := n })
    (keeps_of_context (.refl s) fun _ inv =>
    ⟨inv.pending, inv.distinct, inv.fault, inv.ack, inv.alive, inv.dbgThere, inv.dbgCap⟩) _ _

theorem keepsFrom_cmdInitParams (cr : CtxRef) (index : Nat) (s : State) :
    Result.KeepsFrom s (cmdInitParams cr index s) := by
  refine keepsFrom_onContext fun c => ?_
  rintro _ _ _ answer
  cases answer
  exact .refl _

theorem keepsFrom_cmdSendEvent (cr : CtxRef) (ev : Nat) (s : State) : Result.KeepsFrom s (cmdSendEvent cr ev s) :=
  keepsFrom_onContext fun c => keepsFrom_ctxReply (issue_issued false none (.sendEvent ev) c s).keeps _ _

theorem keepsFrom_cmdIrqSetEnable (cr : CtxRef) (mask : Word) (enable : Bool) (s : State) :
    Result.KeepsFrom s (cmdIrqSetEnable cr mask enable s) :=
  keepsFrom_onContext fun c => keepsFrom_ctxReply
    (((EngineMoved.regRead c.base .inten s).trans (EngineMoved.regWrite c.base .inten _ _)).keeps_holding c) _ _

theorem keepsFrom_cmdIrqFlags (cr : CtxRef) (mask : Word) (s : State) :
    Result.KeepsFrom s (cmdIrqFlags cr mask s) :=
  keepsFrom_onContext fun c => keepsFrom_ctxReply ((EngineMoved.regRead c.base .intmis s).keeps_holding c) _ _

theorem keepsFrom_cmdIrqClear (cr : CtxRef) (mask : Word) (s : State) :
    Result.KeepsFrom s (cmdIrqClear cr mask s) :=
  keepsFrom_onContext fun c => keepsFrom_ctxReply ((EngineMoved.regWrite c.base .intclr mask s).keeps_holding c) _ _

theorem keepsFrom_command (cmd : Command) (e : Env) (s : State) : Result.KeepsFrom s (command cmd e s) := by
  cases cmd with
  | allocProgram => exact keepsFrom_cmdAllocProgram _ _ _ _
  | freeProgram => exact keepsFrom_cmdFreeProgram _ _
  | setProgramFlags => exact keepsFrom_cmdSetProgramFlags _ _ _ _
  | inst => exact keepsFrom_cmdInst _ _ _
  | initialise => exact keepsFrom_cmdInitialise _ _ _ _ _
  | isInitialised => exact keepsFrom_cmdIsInitialised _ _
  | setShortThreshold => exact keepsFrom_cmdSetShortThreshold _ _ _
  | cleanup => exact keepsFrom_cmdCleanup _ _
  | initParams => exact keepsFrom_cmdInitParams _ _ _
  | setupTransfer => exact keepsFrom_cmdSetupTransfer _ _ _ _ _ _
  | setupTransferProgram => exact keepsFrom_cmdSetupTransferProgram _ _ _ _ _
  | startTransferCh => exact keepsFrom_cmdStartTransferCh _ _ _
  | startTransfer => exact keepsFrom_cmdStartTransfer _ _
  | busyCh => exact keepsFrom_cmdBusyCh _ _ _
  | busy => exact keepsFrom_cmdBusy _ _
  | transferError => exact keepsFrom_cmdTransferError _ _ _
  | checkState => exact keepsFrom_cmdCheckState _ _ _
  | managerError => exact keepsFrom_cmdManagerError _ _
  | completedCh => exact keepsFrom_cmdCompletedCh _ _ _
  | completed => exact keepsFrom_cmdCompleted _ _
  | abortedCh => exact keepsFrom_cmdAbortedCh _ _ _
  | aborted => exact keepsFrom_cmdAborted _ _
  | abort => exact keepsFrom_cmdAbort _ _ _
  | sendEvent => exact keepsFrom_cmdSendEvent _ _ _
  | irqSetEnable => exact keepsFrom_cmdIrqSetEnable _ _ _ _
  | irqFlags => exact keepsFrom_cmdIrqFlags _ _ _
  | irqClear => exact keepsFrom_cmdIrqClear _ _ _

/-! ## The step -/

/-- What the turn itself writes plays no part in the invariants. -/
theorem keeps_agenda (s : State) (agenda : List Turn) : Keeps s { s with agenda := agenda } := ⟨id, id, fun _ => id⟩

theorem keeps_runCommand {cmd : Command} {e : Env} {s t : State} (answer : runCommand cmd e s = .next t) :
    Keeps s t := by
  have before : Keeps s { s with gaps := e.gaps } := ⟨id, id, fun _ => id⟩
  unfold runCommand at answer
  cases done : command cmd e { s with gaps := e.gaps } with
  | next r =>
    rw [done] at answer
    cases answer
    have after : Keeps r.1 { r.1 with gaps := [], response := some r.2 } := ⟨id, id, fun _ => id⟩
    exact before.trans ((keepsFrom_command cmd e _ r.1 r.2 done).trans after)
  | fault f =>
    rw [done] at answer
    cases answer
  | refused f =>
    rw [done] at answer
    cases answer

theorem keeps_step {s t : State} (answer : step s = .next t) : Keeps s t := by
  unfold step at answer
  split at answer
  · exact (keeps_agenda s _).trans (EngineMoved.runActivity answer).keeps
  · exact (keeps_agenda s _).trans (keeps_runCommand answer)
  · exact (EngineMoved.engineStep answer).keeps

/-- Settles O6: memory is written byte by byte, and every write keeps the canonical form. -/
theorem stepKeepsMemoryForm : Obligations.StepKeepsMemoryForm :=
  fun _ _ wf answer => (keeps_step answer).memory wf

/-- Settles O7: only commands change the live buffers, by the edits that keep their bookkeeping, by a fresh buffer under
the next handle, and by removing one. -/
theorem stepKeepsBuffers : Obligations.StepKeepsBuffers := by
  intro s t ok answer
  rw [buffersWf_iff] at ok ⊢
  exact (keeps_step answer).buffers ok

/-- Settles O8: only commands change the context, channel by channel; a program is removed only where no channel, or the
channel that lets it go, has it pending. -/
theorem stepKeepsContext : Obligations.StepKeepsContext := by
  intro s t ok inv answer
  rw [buffersWf_iff] at ok
  rw [ctxInv_iff] at inv ⊢
  exact (keeps_step answer).context ok inv

/-- Settles O9: nothing is stored, no buffer is live and there is no context at power-on. -/
theorem resetMeetsInvariants : Obligations.ResetMeetsInvariants := rfl

end Sys2Proof.Machine
end

section
/-! PROOFS. The claims on the data-movement instructions (R305, R411..R413, R561): loads, stores and the write barrier. -/

namespace Sys2Proof.Machine

/-! ## The three forms of a conditional instruction (R305) -/

theorem whenCond_taken {cond : Cond} {s : State} {n : Fin 8} (holds : condHolds cond (s.chan n).reqType = true)
    (len : Nat) (f : Fin 8 → State → State) : whenCond cond len f n s = f n s := if_pos holds

theorem whenCond_passed {cond : Cond} {s : State} {n : Fin 8} (runs : s.runsOn n)
    (fails : condHolds cond (s.chan n).reqType = false) (len : Nat) (f : Fin 8 → State → State) :
    whenCond cond len f n s = s.wentOn n len (s.chan n) := by
  rw [whenCond, fails, if_neg Bool.false_ne_true, retire_wentOn runs]

/-- A conditional instruction whose condition holds does what its unconditional form does. -/
theorem onChannel_taken {s : State} {n : Fin 8} (runs : s.runsOn n) {cond : Cond} {ty : ReqType}
    (holds : condHolds cond ty = true) (len : Nat) (f : Fin 8 → State → State) (request : (s.chan n).reqType = ty) :
    onChannel (whenCond cond len f) s = .next (f n s) := by
  rw [onChannel_channel (runsOn_thread runs), whenCond_taken (request ▸ holds)]

theorem onChannel_passed {s : State} {n : Fin 8} (runs : s.runsOn n) {cond : Cond} {ty : ReqType}
    (fails : condHolds cond ty = false) (len : Nat) (f : Fin 8 → State → State) (request : (s.chan n).reqType = ty) :
    onChannel (whenCond cond len f) s = .next (s.wentOn n len (s.chan n)) := by
  rw [onChannel_channel (runsOn_thread runs), whenCond_passed runs (request ▸ fails)]

/-- DMALD and its conditional forms where they are executed. -/
theorem exec_load {s t : State} {n : Fin 8} (runs : s.runsOn n) (loaded : loadOp n s = t) :
    exec .dmald s = .next t ∧ ((s.chan n).reqType = .single → exec .dmalds s = .next t) ∧
      ((s.chan n).reqType = .burst → exec .dmaldb s = .next t) := by
  subst loaded
  exact ⟨onChannel_channel (runsOn_thread runs) _, onChannel_taken runs rfl 1 loadOp, onChannel_taken runs rfl 1 loadOp⟩

/-- DMAST and its conditional forms where they are executed. -/
theorem exec_store {s t : State} {n : Fin 8} (runs : s.runsOn n) (stored : storeOp n s = t) :
    exec .dmast s = .next t ∧ ((s.chan n).reqType = .single → exec .dmasts s = .next t) ∧
      ((s.chan n).reqType = .burst → exec .dmastb s = .next t) := by
  subst stored
  exact ⟨onChannel_channel (runsOn_thread runs) _, onChannel_taken runs rfl 1 storeOp,
    onChannel_taken runs rfl 1 storeOp⟩

/-! ## Loads -/

/-- Settles O12: a load that is ready pushes what memory holds at its burst's addresses, which are those from SAR on, or
one beat's again and again. -/
theorem dmaldFillsFifo : Obligations.DmaldFillsFifo := by
  intro s n runs ready
  dsimp only
  have loaded := loadOp_ready runs ready
  rw [after_len] at loaded
  split <;> rename_i mode
  · have inc : (s.chan n).src.inc = true := mode
    rw [addrs_of_inc inc, List.map_map, inc] at loaded
    obtain ⟨always, single, burst⟩ := exec_load runs loaded
    exact ⟨always, single, burst, wentOn_frame .., fun _ => rfl⟩
  · have fixed : (s.chan n).src.inc = false := Bool.eq_false_of_not_eq_true mode
    rw [addrs_of_fixed fixed, List.map_flatten, List.map_replicate, List.map_map, fixed] at loaded
    obtain ⟨always, single, burst⟩ := exec_load runs loaded
    exact ⟨always, single, burst, wentOn_frame .., fun _ => rfl⟩

/-! ## Which bytes a store takes (R207) -/

/-- The group a control word without a reserved ES reverses (R207, R323). -/
theorem swapGroup_eq {ccr : Word} (small : ccrSwap ccr < 5) : swapGroup ccr = 2 ^ ccrSwap ccr := by
  unfold swapGroup
  generalize ccrSwap ccr = es at small ⊢
  interval_cases es <;> rfl

/-- A burst moves no more bytes than memory has addresses. -/
theorem dst_size_le (c : Channel) : c.dst.beat ≤ 2 ^ 32 ∧ c.dst.size ≤ 2 ^ 32 := by
  have beat : c.dst.beat ≤ 2 ^ 7 :=
    Nat.pow_le_pow_right (by decide) (Nat.le_of_lt_succ (c.ccr.extractLsb' 15 3).isLt)
  have len : c.dst.len ≤ 16 := (c.ccr.extractLsb' 18 4).isLt
  have size : c.dst.size ≤ 2 ^ 7 * 16 := Nat.mul_le_mul beat len
  omega

theorem storeBytes_length {s : State} {n : Fin 8} (enough : (s.chan n).dst.size ≤ (s.chan n).fifo.length) :
    (s.storeBytes n).length = (s.chan n).dst.size := by
  unfold State.storeBytes
  dsimp only
  split
  · simp [State.freeByteList]
  · simpa using enough

theorem zeroBytes_length (s : State) (n : Fin 8) : (s.zeroBytes n).length = (s.chan n).dst.size := by
  unfold State.zeroBytes
  split <;> simp [State.freeByteList]

/-- What `storeMapped` says, in parts. -/
theorem storeMapped_iff {s : State} {n : Fin 8} : s.storeMapped n = true ↔
    s.protAllowed n (s.chan n).dstProt = true ∧ (s.chan n).dst.crossesTop = false ∧
      (s.chan n).dst.addrs.all s.mappedAt = true := by
  simp only [State.storeMapped, Bool.and_eq_true, Bool.not_eq_true', and_assoc]

theorem storeReady_iff {s : State} {n : Fin 8} :
    s.storeReady n = true ↔ s.storeMapped n = true ∧ s.storeLoose n = false := by
  simp only [State.storeReady, Bool.and_eq_true, Bool.not_eq_true']

/-- The data of a store are definite where no overlap, reserved ES or odd group leaves them open. -/
theorem storeOpen_of_ready {s : State} {n : Fin 8} (ready : s.storeReady n = true) (small : ccrSwap (s.chan n).ccr < 5)
    (whole : (s.chan n).dst.size % 2 ^ ccrSwap (s.chan n).ccr = 0) : s.storeOpen n = false := by
  obtain ⟨mapped, tight⟩ := storeReady_iff.1 ready
  obtain ⟨-, below, -⟩ := storeMapped_iff.1 mapped
  simp [State.storeOpen, Channel.storeFree, tight, below, swapReserved, swapGroup_eq small, whole, small]

/-- Byte by byte, a store's data are the FIFO's with every group reversed. -/
theorem storeBytes_eq {s : State} {n : Fin 8} (ready : s.storeReady n = true) (small : ccrSwap (s.chan n).ccr < 5)
    (whole : (s.chan n).dst.size % 2 ^ ccrSwap (s.chan n).ccr = 0)
    (enough : (s.chan n).dst.size ≤ (s.chan n).fifo.length) :
    let g := 2 ^ ccrSwap (s.chan n).ccr
    s.storeBytes n =
      (List.range (s.chan n).dst.size).map fun i => (s.chan n).fifo.getD (i / g * g + (g - 1 - i % g)) 0 := by
  rw [State.storeBytes]
  simp only [storeOpen_of_ready ready small whole, Bool.false_eq_true, if_false, reverseGroups, swapGroup_eq small,
    List.length_take, Nat.min_eq_left enough]
  refine List.map_congr_left fun i mem => ?_
  have inside := swapIndex_lt (Nat.two_pow_pos _) whole (List.mem_range.1 mem)
  simp [List.getD_eq_getElem?_getD, inside]

theorem zeroBytes_eq {s : State} {n : Fin 8} (ready : s.storeReady n = true) :
    s.zeroBytes n = List.replicate (s.chan n).dst.size 0 := by
  obtain ⟨mapped, tight⟩ := storeReady_iff.1 ready
  obtain ⟨-, below, -⟩ := storeMapped_iff.1 mapped
  simp [State.zeroBytes, State.zeroOpen, tight, below]

/-! ## What a store does -/

/-- A store with enough bytes comes to its burst. -/
theorem storeOp_enough {s : State} {n : Fin 8} (allowed : s.protAllowed n (s.chan n).dstProt = true)
    (enough : (s.chan n).dst.size ≤ (s.chan n).fifo.length) :
    storeOp n s = writeBurst n (s.storeBytes n) true (s.storeOpen n) s := by
  simp only [storeOp, allowed, Nat.not_lt.2 enough, Bool.not_true, Bool.false_eq_true, if_false]

theorem storeZeroOp_allowed {s : State} {n : Fin 8} (allowed : s.protAllowed n (s.chan n).dstProt = true) :
    storeZeroOp n s = writeBurst n (s.zeroBytes n) false (s.zeroOpen n) s := by
  simp only [storeZeroOp, allowed, Bool.not_true, Bool.false_eq_true, if_false]

theorem exec_storeZero {s t : State} {n : Fin 8} (runs : s.runsOn n) (stored : storeZeroOp n s = t) :
    exec .dmastz s = .next t := stored ▸ onChannel_channel (runsOn_thread runs) _

theorem zeroOpen_of_ready {s : State} {n : Fin 8} (ready : s.storeReady n = true) : s.zeroOpen n = false := by
  obtain ⟨mapped, tight⟩ := storeReady_iff.1 ready
  obtain ⟨-, below, -⟩ := storeMapped_iff.1 mapped
  simp [State.zeroOpen, tight, below]

/-- The state after a burst of definite bytes has been written at once. -/
def State.stored (s : State) (n : Fin 8) (bytes fifo : List Byte) : State :=
  { s with mem := memWrites s.mem ((s.chan n).dst.addrs.zip bytes) }.wentOn n 1 { s.chan n with
    fifo := fifo
    dar := (s.chan n).dst.after (s.chan n).dst.len }

theorem stored_chan (s : State) (n : Fin 8) (bytes fifo : List Byte) :
    (s.stored n bytes fifo).chan n = { s.chan n with
      fifo := fifo
      dar := (s.chan n).dst.after (s.chan n).dst.len
      pc := (s.chan n).pc + 1
      csr := withStatus (s.chan n).csr stExecuting } := setChan_chan_self ..

theorem stored_frame (s : State) (n : Fin 8) (bytes fifo : List Byte) :
    onlyChannelChanges n s (s.stored n bytes fifo) := wentOn_frame { s with mem := _ } n 1 _

theorem stored_byteAt (s : State) (n : Fin 8) (bytes fifo : List Byte) (a : Word) :
    (s.stored n bytes fifo).byteAt a = memRead (memWrites s.mem ((s.chan n).dst.addrs.zip bytes)) a.toNat := rfl

/-- A DMAST whose data are definite, where it is in memory at once. -/
theorem storeOp_ready {s : State} {n : Fin 8} (runs : s.runsOn n) (ready : s.storeReady n = true)
    (atOnce : s.platform.stopImpliesWritesDone = true) (small : ccrSwap (s.chan n).ccr < 5)
    (whole : (s.chan n).dst.size % 2 ^ ccrSwap (s.chan n).ccr = 0)
    (enough : (s.chan n).dst.size ≤ (s.chan n).fifo.length) :
    storeOp n s = s.stored n (s.storeBytes n) ((s.chan n).fifo.drop (s.chan n).dst.size) := by
  obtain ⟨allowed, below, mapped⟩ := storeMapped_iff.1 (storeReady_iff.1 ready).1
  rw [storeOp_enough allowed enough, storeOpen_of_ready ready small whole,
    writeBurst_ready runs true below mapped (storeBytes_length enough) atOnce]
  rfl

/-- A DMASTZ whose data are zeros, where it is in memory at once. -/
theorem storeZeroOp_ready {s : State} {n : Fin 8} (runs : s.runsOn n) (ready : s.storeReady n = true)
    (atOnce : s.platform.stopImpliesWritesDone = true) :
    storeZeroOp n s = s.stored n (List.replicate (s.chan n).dst.size 0) (s.chan n).fifo := by
  obtain ⟨allowed, below, mapped⟩ := storeMapped_iff.1 (storeReady_iff.1 ready).1
  rw [storeZeroOp_allowed allowed, zeroOpen_of_ready ready, zeroBytes_eq ready,
    writeBurst_ready runs false below mapped (by simp) atOnce]
  rfl

/-! ## Memory after a burst -/

/-- Bytes written from an address on, as many as `size`. -/
theorem memRead_from {m : Memory} (wf : m.wf = true) (base : Word) {bs : List Byte} {size : Nat}
    (all : bs.length = size) (fits : size ≤ 2 ^ 32) {i : Nat} (inside : i < size) :
    memRead (memWrites m (((List.range size).map fun i => base + BitVec.ofNat 32 i).zip bs))
      (base + BitVec.ofNat 32 i).toNat = bs[i] := by
  subst all
  exact (memRead_span wf base fits).1 i inside

/-- No byte outside a burst's addresses changes. -/
theorem memRead_outside {m : Memory} {as : List Word} {bs : List Byte} {a : Word} (outside : a ∉ as) :
    memRead (memWrites m (as.zip bs)) a.toNat = memRead m a.toNat := by
  refine memRead_memWrites_notMem fun mem => ?_
  obtain ⟨⟨x, v⟩, written, rfl⟩ := List.mem_map.1 mem
  exact outside (List.of_mem_zip written).1

/-- The bytes at a burst's place that it covers. -/
def Burst.span (b : Burst) : Nat := if b.inc then b.size else b.beat

theorem span_of_inc {b : Burst} (inc : b.inc = true) : b.span = b.size := if_pos inc

theorem span_of_fixed {b : Burst} (fixed : b.inc = false) : b.span = b.beat := by
  rw [Burst.span, fixed, if_neg Bool.false_ne_true]

/-- A burst's addresses lie within its span from its base on. -/
theorem mem_addrs {b : Burst} {a : Word} (mem : a ∈ b.addrs) : ∃ i, i < b.span ∧ a = b.base + BitVec.ofNat 32 i := by
  cases mode : b.inc with
  | true =>
    rw [addrs_of_inc mode, List.mem_map] at mem
    obtain ⟨i, inside, rfl⟩ := mem
    exact ⟨i, by simpa [span_of_inc mode, Burst.size, Nat.mul_comm] using inside, rfl⟩
  | false =>
    rw [addrs_of_fixed mode, List.mem_flatten] at mem
    obtain ⟨beat, repeated, mem⟩ := mem
    rw [List.eq_of_mem_replicate repeated, List.mem_map] at mem
    obtain ⟨i, inside, rfl⟩ := mem
    exact ⟨i, by simpa [span_of_fixed mode] using inside, rfl⟩

/-- An incrementing burst puts its bytes from its base on. -/
theorem memRead_burst_inc {m : Memory} (wf : m.wf = true) {b : Burst} (inc : b.inc = true) {bs : List Byte}
    (all : bs.length = b.size) (fits : b.size ≤ 2 ^ 32) {i : Nat} (inside : i < b.size) :
    memRead (memWrites m (b.addrs.zip bs)) (b.base + BitVec.ofNat 32 i).toNat = bs[i] := by
  rw [addrs_of_inc inc, Nat.mul_comm, ← Burst.size]
  exact memRead_from wf b.base all fits inside

/-- A fixed burst leaves its last beat at its base: the beats before are written over. -/
theorem memRead_burst_fixed {m : Memory} (wf : m.wf = true) {b : Burst} (fixed : b.inc = false) {bs : List Byte}
    {k : Nat} (beats : b.len = k + 1) (all : bs.length = k * b.beat + b.beat) (fits : b.beat ≤ 2 ^ 32) {i : Nat}
    (inside : i < b.beat) :
    memRead (memWrites m (b.addrs.zip bs)) (b.base + BitVec.ofNat 32 i).toNat = bs[k * b.beat + i] := by
  have cells : b.addrs.zip bs =
      (List.replicate k ((List.range b.beat).map fun i => b.base + BitVec.ofNat 32 i)).flatten.zip
          (bs.take (k * b.beat)) ++
        ((List.range b.beat).map fun i => b.base + BitVec.ofNat 32 i).zip (bs.drop (k * b.beat)) := by
    rw [addrs_of_fixed fixed, beats, List.replicate_succ', List.flatten_append, List.flatten_singleton,
      ← List.zip_append (by simp [all]), List.take_append_drop]
  rw [cells, memWrites_append, memRead_from (memWrites_wf wf) b.base (by simp [all]) fits inside, List.getElem_drop]

/-! ## Stores in memory at once -/

/-- Settles O13. -/
theorem dmastIncrementing : Obligations.DmastIncrementing := by
  intro s n runs ready wf mode atOnce c size g enough small whole
  have inc : c.dst.inc = true := mode
  have bytes : size = c.dst.size := Nat.mul_comm ..
  rw [bytes] at enough whole ⊢
  have stored := storeOp_ready runs ready atOnce small whole enough
  obtain ⟨always, single, burst⟩ := exec_store runs stored
  refine ⟨_, always, single, burst, ?_, stored_frame .., fun i inside => ?_, fun a outside => ?_⟩
  · rw [stored_chan, after_len, if_pos inc, Nat.mul_comm]
    rfl
  · rw [stored_byteAt]
    refine (memRead_burst_inc wf inc (storeBytes_length enough) (dst_size_le c).2 inside).trans ?_
    simp only [storeBytes_eq ready small whole enough, List.getElem_map, List.getElem_range]
    rfl
  · refine memRead_outside fun mem => ?_
    obtain ⟨i, inside, place⟩ := mem_addrs mem
    exact outside i (inside.trans_eq (span_of_inc inc)) place

/-- Settles O14: the last beat is written over the ones before it. -/
theorem dmastFixed : Obligations.DmastFixed := by
  intro s n runs ready wf mode atOnce c dn db g enough small whole
  have fixed : c.dst.inc = false := mode
  have bytes : dn * db = c.dst.size := Nat.mul_comm ..
  rw [bytes] at enough whole ⊢
  have stored := storeOp_ready runs ready atOnce small whole enough
  obtain ⟨always, single, burst⟩ := exec_store runs stored
  refine ⟨_, always, single, burst, ?_, stored_frame .., fun k inside => ?_, fun a outside => ?_⟩
  · rw [stored_chan, after_len, if_neg (Bool.not_eq_true _ ▸ fixed)]
    rfl
  · rw [stored_byteAt]
    have all : (s.storeBytes n).length = (dn - 1) * c.dst.beat + c.dst.beat := by
      rw [storeBytes_length enough, ← bytes, ← Nat.succ_mul]
      rfl
    refine (memRead_burst_fixed wf fixed (k := dn - 1) rfl all (dst_size_le c).1 inside).trans ?_
    simp only [storeBytes_eq ready small whole enough, List.getElem_map, List.getElem_range]
    rfl
  · refine memRead_outside fun mem => ?_
    obtain ⟨i, inside, place⟩ := mem_addrs mem
    exact outside i (inside.trans_eq (span_of_fixed fixed)) place

/-- Settles O15. -/
theorem dmastzWritesZeros : Obligations.DmastzWritesZeros := by
  intro s n runs ready wf atOnce c db size
  have span : size = c.dst.span := by
    simp only [size, Burst.span]
    rw [Burst.size, Nat.mul_comm]
    rfl
  have stored := storeZeroOp_ready runs ready atOnce
  refine ⟨_, exec_storeZero runs stored, ?_, stored_frame .., fun i inside => ?_, fun a outside => ?_⟩
  · rw [stored_chan, after_len]
    have advance : (if c.dst.inc then c.dst.base + BitVec.ofNat 32 (c.dst.len * c.dst.beat) else c.dst.base) =
        if c.ccr.getLsbD 14 then c.dar + BitVec.ofNat 32 size else c.dar := by
      refine ite_congr rfl (fun inc => ?_) fun _ => rfl
      simp only [size, if_pos inc]
      rfl
    rw [advance]
  · rw [span] at inside
    rw [stored_byteAt]
    cases mode : c.dst.inc with
    | true =>
      rw [span_of_inc mode] at inside
      exact (memRead_burst_inc wf mode (by simp [c]) (dst_size_le c).2 inside).trans (by simp)
    | false =>
      rw [span_of_fixed mode] at inside
      have all : (List.replicate c.dst.size (0 : Byte)).length = (c.dst.len - 1) * c.dst.beat + c.dst.beat := by
        rw [List.length_replicate, ← Nat.succ_mul, Burst.size, Nat.mul_comm]
        rfl
      exact (memRead_burst_fixed wf mode rfl all (dst_size_le c).1 inside).trans (by simp)
  · refine memRead_outside fun mem => ?_
    obtain ⟨i, inside, place⟩ := mem_addrs mem
    exact outside i (span ▸ inside) place

/-! ## Stores that wait for the barrier (R224, R225) -/

/-- The write barrier. -/
theorem exec_dmawmb {s : State} {n : Fin 8} (runs : s.runsOn n) : exec .dmawmb s = .next
    ({ s with mem := memWrites s.mem (s.chan n).writes }.wentOn n 1 { s.chan n with writes := [] }) := by
  refine (onChannel_channel (runsOn_thread runs) fun n s => (s.completeWrites n).retire 1).trans ?_
  rw [retire_wentOn (n := n) (by exact runs)]
  simp [State.completeWrites, State.wentOn, State.setChan, State.chan]

/-- Settles O16. -/
theorem storesQueueUntilBarrier : Obligations.StoresQueueUntilBarrier := by
  intro s n runs later
  refine ⟨exec_dmawmb runs, fun ready => ?_⟩
  obtain ⟨allowed, below, mapped⟩ := storeMapped_iff.1 (storeReady_iff.1 ready).1
  refine ⟨fun enough small whole => ?_, _, exec_storeZero runs rfl, ?_, ?_⟩
  · have stored := storeOp_enough allowed enough
    rw [storeOpen_of_ready ready small whole,
      writeBurst_queued runs true below mapped (storeBytes_length enough) later,
      storeBytes_eq ready small whole enough] at stored
    obtain ⟨always, single, burst⟩ := exec_store runs stored
    exact ⟨_, always, single, burst, rfl, wentOn_frame .., rfl⟩
  all_goals
    rw [storeZeroOp_allowed allowed, zeroOpen_of_ready ready, zeroBytes_eq ready,
      writeBurst_queued runs false below mapped (by simp) later]
  · rfl
  · exact ⟨wentOn_frame .., rfl⟩

/-- Settles O26: of the writes to a byte the last one stands. -/
theorem dmawmbCompletesWrites : Obligations.DmawmbCompletesWrites := by
  intro s n runs wf
  refine ⟨_, exec_dmawmb runs, setChan_chan_self .., wentOn_frame { s with mem := _ } n 1 _, rfl,
    fun ws a v rest queue last => ?_, fun a unwritten => memRead_memWrites_notMem unwritten⟩
  rw [wentOn_byteAt]
  show memRead (memWrites s.mem (s.chan n).writes) a.toNat = v
  rw [queue, memWrites_append]
  exact (memRead_memWrites_notMem last).trans (memRead_memWrite_self (lo := 0) (memWrites_wf wf))

/-! ## Stores whose data are open (R934, I4, I7) -/

theorem moveOn_drawn (s : State) (k : Nat) (f : Word → Word) : (s.drawn k).moveOn f = (s.moveOn f).drawn k := by
  unfold State.moveOn
  cases origin : s.active.origin with
  | memory => cases thread : s.active.thread <;> simp only [drawn_active, origin, thread] <;> rfl
  | debug => simp only [drawn_active, origin]

theorem storeCells_drawn (s : State) (k : Nat) (n : Fin 8) (cells : List (Word × Byte)) :
    (s.drawn k).storeCells n cells = (s.storeCells n cells).drawn k := by
  unfold State.storeCells
  rw [drawn_platform]
  split <;> rfl

/-- Open data cost free values and nothing else. -/
theorem writeBurst_open {s : State} {n : Fin 8} {bytes : List Byte} (popped free : Bool)
    (below : (s.chan n).dst.crossesTop = false) (mapped : (s.chan n).dst.addrs.all s.mappedAt = true)
    (all : bytes.length = (s.chan n).dst.size) :
    ∃ k, writeBurst n bytes popped free s = (writeBurst n bytes popped false s).drawn k := by
  have whole : (s.dstCells n bytes).length = (s.chan n).dst.size := by
    simp [dstCells_mapped below mapped, addrs_length, all]
  cases free with
  | false => exact ⟨0, rfl⟩
  | true =>
    refine ⟨(s.chan n).dst.size, ?_⟩
    simp only [writeBurst, whole, below, if_true, Bool.false_eq_true, if_false]
    rw [State.retire, State.retire, ← moveOn_drawn, ← storeCells_drawn]
    rfl

/-- A burst of any data, where it is in memory at once, but for the free values it has used up. -/
theorem writeBurst_stored {s : State} {n : Fin 8} (runs : s.runsOn n) (mapped : s.storeMapped n = true)
    {bytes : List Byte} (popped free : Bool) (all : bytes.length = (s.chan n).dst.size)
    (atOnce : s.platform.stopImpliesWritesDone = true) :
    ∃ k, writeBurst n bytes popped free s = (s.stored n bytes
      (if popped then (s.chan n).fifo.drop (s.chan n).dst.size else (s.chan n).fifo)).drawn k := by
  obtain ⟨-, below, mapped⟩ := storeMapped_iff.1 mapped
  obtain ⟨k, drawn⟩ := writeBurst_open popped free below mapped all
  exact ⟨k, drawn.trans (by rw [writeBurst_ready runs popped below mapped all atOnce]; rfl)⟩

/-- Settles O60: whatever bytes a store writes, it writes them at its burst's addresses. -/
theorem storesStayInside : Obligations.StoresStayInside := by
  intro s n runs mapped atOnce
  have allowed := (storeMapped_iff.1 mapped).1
  refine ⟨fun enough => ?_, ?_⟩
  · obtain ⟨k, stored⟩ := writeBurst_stored runs mapped true (s.storeOpen n) (storeBytes_length enough) atOnce
    obtain ⟨always, single, burst⟩ := exec_store runs ((storeOp_enough allowed enough).trans stored)
    exact ⟨_, always, single, burst, stored_chan .., stored_frame .., fun _ => memRead_outside⟩
  · obtain ⟨k, stored⟩ := writeBurst_stored runs mapped false (s.zeroOpen n) (zeroBytes_length s n) atOnce
    exact ⟨_, exec_storeZero runs ((storeZeroOp_allowed allowed).trans stored), stored_chan .., stored_frame ..,
      fun _ => memRead_outside⟩

end Sys2Proof.Machine
end

section
/-! PROOFS. The claims on the other instructions: registers, loops, events and peripherals, control, and the instruction a
thread or the debug interface executes. -/

namespace Sys2Proof.Machine

/-! ## The instruction of a turn (R206, R345, R561) -/

open Laws.LengthByFirstByte in
/-- Every instruction's first byte gives its length (R345). -/
theorem length_by_first_byte : ∀ i : Instr, Laws.LengthByFirstByte.Statement i
  | .dmaend => dmaend
  | .dmakill => dmakill
  | .dmald => dmald
  | .dmalds => dmalds
  | .dmaldb => dmaldb
  | .dmast => dmast
  | .dmasts => dmasts
  | .dmastb => dmastb
  | .dmastz => dmastz
  | .dmarmb => dmarmb
  | .dmawmb => dmawmb
  | .dmanop => dmanop
  | .dmalp c iter => dmalp c iter
  | .dmalpend c jump => dmalpend c jump
  | .dmalpends c jump => dmalpends c jump
  | .dmalpendb c jump => dmalpendb c jump
  | .dmawfpSingle p => dmawfpSingle p
  | .dmawfpPeriph p => dmawfpPeriph p
  | .dmawfpBurst p => dmawfpBurst p
  | .dmasev ev => dmasev ev
  | .dmaflushp p => dmaflushp p
  | .dmawfe ev inv => dmawfe ev inv
  | .dmago ns cn addr => dmago ns cn addr
  | .dmamov rd imm => dmamov rd imm
  | .dmaaddh ra imm => dmaaddh ra imm
  | .dmaadnh ra imm => dmaadnh ra imm
  | .dmaldps p => dmaldps p
  | .dmaldpb p => dmaldpb p
  | .dmastps p => dmastps p
  | .dmastpb p => dmastpb p
  | .dmalpfe c jump => dmalpfe c jump

section
variable {s : State}

/-- A coherent fetch that is not stale reads memory (R230, R232). -/
theorem fetchByte_coherent (coherent : s.platform.fetchCoherent = true) (fresh : s.platform.icacheMayBeStale = false)
    (i : Nat) (a : Word) : s.fetchByte i a = s.byteAt a := by
  simp only [State.fetchByte, coherent, fresh, if_true, Bool.false_eq_true, if_false]

theorem afterFetch_coherent (coherent : s.platform.fetchCoherent = true)
    (fresh : s.platform.icacheMayBeStale = false) (pc : Word) (bs : List Byte) : s.afterFetch pc bs = s := by
  simp only [State.afterFetch, coherent, fresh, if_true, Bool.false_eq_true, if_false]

/-- The fetch of an instruction whose bytes stand at the address. -/
theorem fetch_encoded (coherent : s.platform.fetchCoherent = true) (fresh : s.platform.icacheMayBeStale = false)
    {i : Instr} {pc : Word} (mapped : s.fetchMapped pc (encode i).length = true)
    (bytes : ∀ k, (h : k < (encode i).length) → s.byteAt (pc + BitVec.ofNat 32 k) = (encode i)[k]) :
    s.fetch pc = some (encode i) := by
  obtain ⟨b0, rest, encoding, length⟩ := length_by_first_byte i
  have first : s.fetchByte 0 pc = b0 := by
    have start := bytes 0 (by simp [encoding])
    simp only [encoding, List.getElem_cons_zero] at start
    rw [fetchByte_coherent coherent fresh, ← start]
    simp
  have fetched : s.fetchBytes pc (encode i).length = encode i := by
    refine List.ext_getElem (by simp [State.fetchBytes]) fun k _ inside => ?_
    simp only [State.fetchBytes, List.getElem_map, List.getElem_range, fetchByte_coherent coherent fresh]
    exact bytes k inside
  simp only [State.fetch, first, length, Option.getD_some, mapped, if_true, fetched]

end

/-- The bytes of an instruction do what it does. -/
theorem runBytes_encode {i : Instr} (wf : i.wellFormed = true) (s : State) : runBytes (encode i) s = exec i s := by
  have decoding := decodeEncode i [] wf
  rw [List.append_nil] at decoding
  simp only [runBytes, decoding]

/-- Settles O4: the fetch gives the instruction's bytes, and decoding takes them back. -/
theorem stepRunsDecoded : Obligations.StepRunsDecoded := by
  intro s t rest i turn released canRun coherent fresh wf mapped bytes
  have fetched : State.fetch { s with agenda := rest } (s.threadPc t) = some (encode i) :=
    fetch_encoded (s := { s with agenda := rest }) coherent fresh mapped bytes
  have turnTaken : step s = threadStep t { s with agenda := rest } := by
    rw [step, turn]
    rfl
  have pc : State.threadPc { s with agenda := rest } t = s.threadPc t := rfl
  have status : State.threadStatus { s with agenda := rest } t = s.threadStatus t := rfl
  rw [turnTaken, threadStep]
  simp only [status, released, canRun, pc, fetched, Bool.not_true, Bool.or_self, Bool.false_eq_true, if_false]
  rw [afterFetch_coherent (s := { s with agenda := rest }) coherent fresh, runBytes_encode wf]

/-- Settles O5. -/
theorem debugRunsDecoded : Obligations.DebugRunsDecoded := by
  intro s t i rest released pending decoding answer
  simp only [debugRun, released, Bool.false_eq_true, if_false, pending, if_true, executeDebug, runBytes, decoding]
  rw [answer]
  rfl

/-! ## Registers and loops (R410, R420..R422) -/

/-- A channel's other instructions, where they end by going on after an effect on the channel. -/
theorem exec_setChan_retire {s : State} {n : Fin 8} (runs : s.runsOn n) {f : Fin 8 → State → State} {c : Channel} {k : Nat}
    (effect : f n s = (s.setChan n c).retire k) (pc : c.pc = (s.chan n).pc) (csr : c.csr = (s.chan n).csr) :
    onChannel f s = .next (s.wentOn n k c) := by
  rw [onChannel_channel (runsOn_thread runs), effect, setChan_retire_wentOn runs c k pc csr]

/-- Settles O11. -/
theorem dmamovWritesRegister : Obligations.DmamovWritesRegister := by
  intro s n imm runs
  refine ⟨exec_setChan_retire (f := movOp .sar imm) runs rfl rfl rfl,
    exec_setChan_retire (f := movOp .dar imm) runs rfl rfl rfl, fun allowed => ?_⟩
  refine exec_setChan_retire (f := movOp .ccr imm) runs ?_ rfl rfl
  rw [movOp]
  refine if_neg fun refused => ?_
  obtain ⟨reserved, faults⟩ := Bool.and_eq_true_iff.1 refused
  rcases allowed with small | passes
  · exact absurd (of_decide_eq_true reserved : 5 ≤ ccrSwap imm) (Nat.not_le.2 small)
  · exact absurd (faults.symm.trans passes) Bool.true_eq_false_eq_False

/-- Settles O17. -/
theorem conditionalPassedOver : Obligations.ConditionalPassedOver :=
  fun _ _ k j runs =>
    ⟨fun burst => ⟨onChannel_passed runs rfl 1 loadOp burst, onChannel_passed runs rfl 1 storeOp burst,
      onChannel_passed runs rfl 2 (loopEndOp k j) burst⟩,
    fun single => ⟨onChannel_passed runs rfl 1 loadOp single, onChannel_passed runs rfl 1 storeOp single,
      onChannel_passed runs rfl 2 (loopEndOp k j) single⟩⟩

/-- Settles O18. -/
theorem dmalpLoadsCounter : Obligations.DmalpLoadsCounter :=
  fun _ _ iter runs _ _ => ⟨exec_setChan_retire (f := loopStartOp .lc0 iter) runs rfl rfl rfl,
    exec_setChan_retire (f := loopStartOp .lc1 iter) runs rfl rfl rfl⟩

theorem setLc_pc (c : Channel) (k : LoopCtr) (v : Byte) : (c.setLc k v).pc = c.pc := by cases k <;> rfl

theorem setLc_csr (c : Channel) (k : LoopCtr) (v : Byte) : (c.setLc k v).csr = c.csr := by cases k <;> rfl

/-- A loop end that falls through, or counts down and jumps back. -/
theorem loopEndOp_eq {s : State} {n : Fin 8} (runs : s.runsOn n) (k : LoopCtr) (j : Byte) : loopEndOp k j n s =
    if (s.chan n).lc k = 0 then s.wentOn n 2 (s.chan n)
    else s.setChan n { (s.chan n).setLc k ((s.chan n).lc k - 1) with
      pc := (s.chan n).pc - BitVec.ofNat 32 j.toNat
      csr := withStatus (s.chan n).csr stExecuting } := by
  unfold loopEndOp
  refine ite_congr rfl (fun _ => retire_wentOn runs 2) fun _ => ?_
  rw [moveOn_channel (n := n) (by exact runs), setChan_chan_self, setChan_setChan, setLc_pc, setLc_csr]
  simp only [BitVec.ofNat_toNat]

/-- Settles O19. -/
theorem loopEndCountsDown : Obligations.LoopEndCountsDown := by
  intro s n k j runs
  dsimp only
  rw [← loopEndOp_eq runs]
  refine ⟨onChannel_channel (runsOn_thread runs) _, onChannel_taken runs rfl 2 (loopEndOp k j),
    onChannel_taken runs rfl 2 (loopEndOp k j), ?_⟩
  rw [loopEndOp_eq runs]
  split
  · exact ⟨wentOn_frame .., fun _ => rfl⟩
  · exact ⟨setChan_frame .., fun _ => rfl⟩

/-! ## Barriers and the end of a program (R225, R450, R451) -/

/-- Settles O25. -/
theorem nopAndReadBarrier : Obligations.NopAndReadBarrier :=
  fun _ _ runs => ⟨congrArg _ (retire_wentOn runs 1),
    (onChannel_channel (runsOn_thread runs) fun _ s => s.retire 1).trans (congrArg _ (retire_wentOn runs 1))⟩

/-- Memory after a channel has stopped: its queued writes are complete where a stop implies it (R224). -/
def State.stopMem (s : State) (n : Fin 8) : Memory :=
  if s.platform.stopImpliesWritesDone then memWrites s.mem (s.chan n).writes else s.mem

/-- The writes it still has queued. -/
def State.stopWrites (s : State) (n : Fin 8) : List (Word × Byte) :=
  if s.platform.stopImpliesWritesDone then [] else (s.chan n).writes

theorem completeWrites_at_stop (s : State) (n : Fin 8) :
    (if s.platform.stopImpliesWritesDone then s.completeWrites n else s) =
      { s with mem := s.stopMem n }.setChan n { s.chan n with writes := s.stopWrites n } := by
  unfold State.stopMem State.stopWrites
  split
  · rfl
  · exact (setChan_chan s n).symm

/-- A channel's end: it is Stopped, with some FIFO, its writes completed or queued as before. -/
theorem endOp_eq (s : State) (n : Fin 8) : ∃ q k, ((s.chan n).fifo = [] → q = []) ∧
    endOp n s = ({ s with mem := s.stopMem n }.setChan n { s.chan n with
      fifo := q
      writes := s.stopWrites n
      csr := withStatus (s.chan n).csr stStopped }).drawn k := by
  unfold endOp
  rw [completeWrites_at_stop]
  dsimp only
  rw [setChan_chan_self]
  split
  · rename_i empty
    refine ⟨[], 0, fun _ => rfl, ?_⟩
    rw [setThreadStatus_channel, setChan_chan_self, setChan_setChan, ← (show (s.chan n).fifo = [] from empty)]
    rfl
  · rename_i full
    refine ⟨Config.freeBytes s.draws, 1, fun empty => absurd empty full, ?_⟩
    rw [setThreadStatus_channel, drawn_chan, setChan_chan_self, setChan_setChan]
    exact congrArg (State.drawn · 1) (setChan_setChan ..)

/-- Settles O27. -/
theorem dmaendStops : Obligations.DmaendStops := by
  intro s
  refine ⟨fun n runs => ?_, fun runs => ?_⟩
  · obtain ⟨q, k, empty, ended⟩ := endOp_eq s n
    have answer : exec .dmaend s = .next (endOp n s) := by simp only [exec, execDmaend, runsOn_thread runs]
    rw [ended] at answer
    exact ⟨_, q, answer, setChan_chan_self { s with mem := s.stopMem n } n _, empty,
      setChan_frame { s with mem := s.stopMem n } n _, rfl⟩
  · simp only [exec, execDmaend, show s.active.thread = .manager from congrArg Active.thread runs]
    rfl

/-! ## Events and interrupts (R144..R147, R430, R431) -/

/-- What `signalEvent` does, in the terms of the claims. -/
theorem signalled_signalEvent (s : State) (ev : Fin 32) : s.signalled ev (s.signalEvent ev) := by
  have waits (w : Word) := waitsForEvent_iff w ev
  refine ⟨fun enabled => ?_, fun masked manager channels => ?_, fun masked awaited => ?_⟩
  · rw [State.signalEvent, if_pos enabled]
    rfl
  · rw [State.signalEvent, if_neg (ne_true_of_eq_false masked), if_neg]
    · rfl
    · rw [awaited_iff]
      rintro (waiting | ⟨m, waiting⟩)
      · exact manager ((waits _).1 waiting)
      · exact channels m ((waits _).1 waiting)
  · have awake : s.engine.awaited ev = true :=
      (awaited_iff _ _).2 (awaited.imp (waits _).2 fun ⟨m, waiting⟩ => ⟨m, (waits _).2 waiting⟩)
    rw [State.signalEvent, if_neg (ne_true_of_eq_false masked), if_pos awake]
    refine ⟨rfl, fun waiting => ?_, fun busy => ?_, fun m => ?_⟩
    · have waiting := (waits _).2 waiting
      exact ⟨if_pos waiting, if_pos waiting⟩
    · have busy := mt (waits _).1 busy
      exact ⟨if_neg busy, if_neg busy⟩
    · simp only [State.chan, wake_chan]
      exact ⟨fun waiting => if_pos ((waits _).2 waiting), fun busy => if_neg (mt (waits _).1 busy)⟩

/-- An event the thread may use is signalled once the thread has moved on. -/
theorem exec_dmasev {s : State} {ev : Fin 32} (allowed : s.eventAllowed s.active.thread ev = true) :
    exec (.dmasev ev) s = .next ((s.retire 2).signalEvent ev) := congrArg _ (if_pos allowed)

/-- Settles O20: the thread moves on, or not, and the event is signalled in the state it leaves. -/
theorem dmasevSignals : Obligations.DmasevSignals := by
  intro s ev
  refine ⟨fun n runs allowed => ?_, fun runs allowed => ?_, fun debugs allowed => ?_⟩
  · rw [exec_dmasev (by rwa [runsOn_thread runs]), retire_wentOn runs]
    exact ⟨_, rfl, signalled_signalEvent _ ev⟩
  · rw [exec_dmasev (by rwa [show s.active.thread = .manager from congrArg Active.thread runs]), State.retire,
      moveOn_manager runs]
    exact ⟨_, rfl, signalled_signalEvent _ ev⟩
  · rw [exec_dmasev (by rwa [show s.active.thread = .manager from congrArg Active.thread debugs]), State.retire,
      moveOn_debug (congrArg Active.origin debugs)]
    exact ⟨_, rfl, signalled_signalEvent s ev⟩

/-- Settles O21. -/
theorem interruptRaisedAndCleared : Obligations.InterruptRaisedAndCleared := by
  intro s ev mask enabled
  refine ⟨?_, ?_, rfl⟩
  · rw [State.signalEvent, if_pos enabled]
    have raised : (setBit s.engine.irqs ev.val).getLsbD ev.val = true := by
      rw [show setBit s.engine.irqs ev.val = putBit s.engine.irqs ev.val true from rfl, putBit_bit _ _ _ _ ev.isLt,
        if_pos rfl]
    simp only [Engine.read, Engine.intmis, BitVec.getLsbD_and, raised, enabled, Bool.and_self]
  · simp only [Engine.read, Engine.intmis, Engine.write, BitVec.getLsbD_and, BitVec.getLsbD_not, ev.isLt, decide_true,
      Bool.true_and]
    rw [Bool.and_right_comm]

/-- Settles O22. -/
theorem dmawfeTakesOrWaits : Obligations.DmawfeTakesOrWaits := by
  intro s n ev inv runs allowed e
  have emptied : (if inv then { s with engine := { s.engine with icache := [] } } else s) = { s with engine := e } := by
    cases inv <;> rfl
  refine ⟨fun active => ?_, fun inactive => ⟨withWakeup (withStatus (s.chan n).csr stWaitEvent) ev, ?_, ?_⟩⟩
  · simp only [exec, execDmawfe, emptied, runsOn_thread runs, allowed, active, Bool.not_true, Bool.false_eq_true,
      if_false, if_true]
    rw [retire_wentOn (n := n) (by exact runs)]
    rfl
  · simp only [exec, execDmawfe, emptied, runsOn_thread runs, allowed, inactive, Bool.not_true, Bool.false_eq_true,
      if_false]
    rw [waitFor_channel (by exact runsOn_origin runs)]
    rfl
  · exact waiting_fields ..

/-! ## Peripherals (R432, R433; logs 19, 20) -/

/-- The fields of a marked CSR, whatever is then written below bit 9. -/
theorem wfpMarks_above {csr w : Word} {type : WfpType} (above : ∀ i, 9 ≤ i → w.getLsbD i = (wfpMarks csr type).getLsbD i) :
    w.getLsbD 14 = (type == .burst) ∧ w.getLsbD 15 = (type == .periph) ∧
      w.extractLsb' 9 5 = csr.extractLsb' 9 5 ∧ w.extractLsb' 16 16 = csr.extractLsb' 16 16 := by
  obtain ⟨burst, periph, others⟩ := wfpMarks_fields csr type
  refine ⟨(above 14 (by decide)).trans burst, (above 15 (by decide)).trans periph, ?_, ?_⟩
  all_goals
    refine BitVec.eq_of_getLsbD_eq fun i inside => ?_
    rw [BitVec.getLsbD_extractLsb', BitVec.getLsbD_extractLsb', above _ (by omega), others _ (by omega) (by omega)]

section
variable {s : State} {n : Fin 8} {p : Fin 32} {type : WfpType}

/-- The word a wait that is over leaves in CSR. -/
theorem wfpTaken_fields (csr : Word) (type : WfpType) :
    let w := withStatus (wfpMarks csr type) stExecuting
    statusOf w = 0x1#4 ∧ w.extractLsb' 4 5 = csr.extractLsb' 4 5 ∧
      w.getLsbD 14 = (type == .burst) ∧ w.getLsbD 15 = (type == .periph) ∧
      w.extractLsb' 9 5 = csr.extractLsb' 9 5 ∧ w.extractLsb' 16 16 = csr.extractLsb' 16 16 := by
  refine ⟨statusOf_withStatus .., ?_, wfpMarks_above fun i above => ?_⟩
  · refine BitVec.eq_of_getLsbD_eq fun i inside => ?_
    rw [BitVec.getLsbD_extractLsb', BitVec.getLsbD_extractLsb', withStatus_bit, if_neg (by omega),
      (wfpMarks_fields csr type).2.2 _ (by omega) (by omega)]
  · rw [withStatus_bit, if_neg (by omega)]

/-- The word of a thread that waits for a peripheral. -/
theorem wfpWaiting_fields (csr : Word) (type : WfpType) (p : Fin 32) :
    let w := withWakeup (withStatus (wfpMarks csr type) stWaitPeriph) p
    statusOf w = 0x7#4 ∧ (w.extractLsb' 4 5).toNat = p.val ∧
      w.getLsbD 14 = (type == .burst) ∧ w.getLsbD 15 = (type == .periph) ∧
      w.extractLsb' 9 5 = csr.extractLsb' 9 5 ∧ w.extractLsb' 16 16 = csr.extractLsb' 16 16 := by
  obtain ⟨status, number, -⟩ := waiting_fields (wfpMarks csr type) stWaitPeriph p
  refine ⟨status, number, wfpMarks_above fun i above => ?_⟩
  rw [withWakeup_bit, if_neg (by omega), withStatus_bit, if_neg (by omega)]

/-- A DMAWFP whose peripheral raises a request that fits its form. -/
theorem onChannel_wfp_takes (runs : s.runsOn n) (allowed : s.periphAllowed n p = true) {ty : ReqType}
    (fits : wfpMatch type s.engine.periph[p] = some ty) :
    onChannel (waitPeriphOp type p) s = .next
      ({ s with engine := { s.engine with periph := s.engine.periph.set p none } }.setChan n { s.chan n with
        reqType := ty
        csr := withStatus (wfpMarks (s.chan n).csr type) stExecuting
        pc := (s.chan n).pc + 2 }) := by
  rw [onChannel_channel (runsOn_thread runs), waitPeriphOp_takes runs allowed fits]

theorem onChannel_wfp_waits (runs : s.runsOn n) (allowed : s.periphAllowed n p = true)
    (unfit : wfpMatch type s.engine.periph[p] = none) :
    onChannel (waitPeriphOp type p) s = .next (s.setChan n { s.chan n with
      csr := withWakeup (withStatus (wfpMarks (s.chan n).csr type) stWaitPeriph) p }) := by
  rw [onChannel_channel (runsOn_thread runs), waitPeriphOp_waits runs allowed unfit]

end

/-- Settles O23: which requests fit is decided form by form. -/
theorem dmawfpTakesOrWaits : Obligations.DmawfpTakesOrWaits := by
  intro s n p runs allowed
  have takes (type : WfpType) (ty : ReqType) (fits : wfpMatch type s.engine.periph[p] = some ty) :=
    And.intro (onChannel_wfp_takes runs allowed fits) (wfpTaken_fields (s.chan n).csr type)
  have waits (type : WfpType) (unfit : wfpMatch type s.engine.periph[p] = none) :=
    And.intro (onChannel_wfp_waits runs allowed unfit) (wfpWaiting_fields (s.chan n).csr type p)
  refine ⟨fun request => ⟨⟨_, waits .single ?_⟩, ⟨_, waits .burst ?_⟩, _, waits .periph ?_⟩,
    fun request => ⟨⟨_, takes .single .single ?_⟩, ⟨_, waits .burst ?_⟩, _, takes .periph .single ?_⟩,
    fun request => ⟨⟨_, takes .single .single ?_⟩, ⟨_, takes .burst .burst ?_⟩, _, takes .periph .burst ?_⟩⟩
  all_goals
    rw [request]
    rfl

/-- Settles O24. -/
theorem dmaflushpDropsRequest : Obligations.DmaflushpDropsRequest := by
  intro s n p runs allowed
  refine (onChannel_channel (runsOn_thread runs) (flushPeriphOp p)).trans ?_
  rw [flushPeriphOp, allowed, Bool.not_true, if_neg Bool.false_ne_true, retire_wentOn (n := n) (by exact runs)]
  rfl

end Sys2Proof.Machine
end

section
/-! PROOFS. The claims on threads and faults: DMAGO, DMAKILL, the excluded instructions, and where and how a thread takes
a fault (R150, R151, R340, R711, R712, R820, R821). -/

namespace Sys2Proof.Machine

/-! ## The manager thread -/

theorem runsManager_thread {s : State} (runs : s.runsManager) : s.active.thread = .manager := congrArg Active.thread runs

/-- The fault of one type bit, on the manager thread. -/
theorem takeFaultBit_runsManager {s : State} (runs : s.runsManager) (bit : Nat) :
    takeFaultBit bit s = s.faultedManager (1#32 <<< bit) := by
  rw [takeFaultBit, takeFault_runsManager runs]
  simp [setBit]

/-- An allowed start of a channel that is Stopped. -/
theorem exec_dmago_stopped {s : State} {ns : Bool} {cn : Fin 8} (manager : s.active.thread = .manager)
    (allowed : s.goAllowed ns cn = true) (stopped : statusOf (s.chan cn).csr = stStopped) (addr : Word) :
    exec (.dmago ns cn addr) s = .next ((startThread ns cn addr s).retire 6) := by
  simp only [exec, execDmago, manager, allowed, stopped, Bool.not_true, Bool.false_eq_true, if_false,
    threadStatus_channel, if_true]

/-- One of a channel that is not. -/
theorem exec_dmago_moving {s : State} {ns : Bool} {cn : Fin 8} (manager : s.active.thread = .manager)
    (allowed : s.goAllowed ns cn = true) (moving : statusOf (s.chan cn).csr ≠ stStopped) (addr : Word) :
    exec (.dmago ns cn addr) s = .next (s.retire 6) := by
  simp only [exec, execDmago, manager, allowed, moving, Bool.not_true, Bool.false_eq_true, if_false,
    threadStatus_channel]

/-- Settles O28. -/
theorem dmagoStartsChannel : Obligations.DmagoStartsChannel := by
  intro s ns cn addr allowed u
  have debugEnd {t : State} (debugs : t.debugsManager) : t.retire 6 = t := moveOn_debug (congrArg Active.origin debugs) _
  have memoryEnd {t : State} (runs : t.runsManager) := moveOn_manager runs (· + BitVec.ofNat 32 6)
  refine ⟨fun stopped debugs => ?_, fun stopped runs => ?_, fun moving debugs => ?_, fun moving runs => ?_⟩
  · rw [exec_dmago_stopped (congrArg Active.thread debugs) allowed stopped, debugEnd (by exact debugs)]
    rfl
  · rw [exec_dmago_stopped (runsManager_thread runs) allowed stopped, State.retire, memoryEnd (by exact runs)]
    rfl
  · rw [exec_dmago_moving (congrArg Active.thread debugs) allowed moving, debugEnd debugs]
  · rw [exec_dmago_moving (runsManager_thread runs) allowed moving, State.retire, memoryEnd runs]
    rfl

/-- A DMAKILL that stops its thread, from the debug interface or from memory (I3). -/
theorem exec_dmakill {s : State} (stops : s.active.origin = .debug ∨ s.platform.killFromMemoryStops = true) :
    exec .dmakill s = .next (killThread s.active.thread s) := by
  have stops : (decide (s.active.origin = .debug) || s.platform.killFromMemoryStops) = true := by simpa using stops
  exact congrArg _ (if_pos stops)

theorem killThread_of_stopped {t : Thread} {s : State} (stopped : s.threadStatus t = stStopped) : killThread t s = s :=
  if_pos stopped

/-- Settles O29. -/
theorem dmakillStops : Obligations.DmakillStops := by
  intro s stops
  rw [exec_dmakill stops]
  refine ⟨fun n thread moving => ?_, fun n thread stopped => ?_, fun thread moving => ?_, fun thread stopped => ?_⟩
  · rw [thread, killThread, if_neg (by exact moving)]
    rfl
  · rw [thread, killThread_of_stopped (by exact stopped)]
  · rw [thread, killThread, if_neg (by exact moving)]
    rfl
  · rw [thread, killThread_of_stopped (by exact stopped)]

/-! ## Taking a fault (R340, R820) -/

/-- Settles O30: each of the seven does the same. -/
theorem excludedTakeUndefFault : Obligations.ExcludedTakeUndefFault := by
  intro s i ra imm p k j excluded
  have undefined : exec i s = .next (takeFaultBit fltUndefInstr s) := by
    simp only [List.mem_cons, List.not_mem_nil, or_false] at excluded
    rcases excluded with rfl | rfl | rfl | rfl | rfl | rfl | rfl <;> rfl
  rw [undefined]
  exact ⟨fun n runs => by rw [takeFaultBit_runsOn runs]; rfl, fun runs => by rw [takeFaultBit_runsManager runs]; rfl⟩

/-- Settles O31. -/
theorem faultEntry : Obligations.FaultEntry :=
  fun _ bits => ⟨fun _ thread => takeFault_channel thread bits, fun thread => takeFault_manager thread bits⟩

/-! ## The faults of the data instructions (R151, R561; I20, I23) -/

/-- A burst begins at its address register. -/
theorem addrs_eq_cons {b : Burst} (beats : 0 < b.len) (bytes : 0 < b.beat) : ∃ rest, b.addrs = b.base :: rest := by
  obtain ⟨k, len⟩ := Nat.exists_eq_succ_of_ne_zero beats.ne'
  obtain ⟨j, beat⟩ := Nat.exists_eq_succ_of_ne_zero bytes.ne'
  refine ⟨b.addrs.tail, ?_⟩
  have first : b.after 0 = b.base := by simp [Burst.after]
  simp [Burst.addrs, len, beat, List.range_succ_eq_map, first]

/-- No address of a burst whose first one holds no memory is accessed. -/
theorem takeWhile_unmapped {s : State} {b : Burst} (beats : 0 < b.len) (bytes : 0 < b.beat)
    (unmapped : s.mappedAt b.base = false) : b.addrs.takeWhile s.mappedAt = [] := by
  obtain ⟨rest, addrs⟩ := addrs_eq_cons beats bytes
  simp [addrs, unmapped]

theorem burst_size_pos {b : Burst} (beats : 0 < b.len) (bytes : 0 < b.beat) : 0 < b.size := Nat.mul_pos bytes beats

theorem after_zero (b : Burst) : b.after 0 = b.base := by simp [Burst.after]

section
variable {s : State} {n : Fin 8}

/-- A load whose first address holds no memory moves nothing. -/
theorem loadOp_unmapped (allowed : s.protAllowed n (s.chan n).srcProt = true)
    (room : s.fifoRoom n (s.chan n).src.size = true) (below : (s.chan n).src.crossesTop = false)
    (unmapped : s.mappedAt (s.chan n).sar = false) : loadOp n s = takeFaultBit fltDataReadErr s := by
  have none := takeWhile_unmapped (b := (s.chan n).src) (Nat.succ_pos _) (beat_pos _).1 unmapped
  have some := burst_size_pos (b := (s.chan n).src) (Nat.succ_pos _) (beat_pos _).1
  have same : (s.chan n).src.after 0 = (s.chan n).sar := after_zero _
  simp only [loadOp, allowed, room, below, State.burstAddrs, State.loadBytes, none, addrs_length, Bool.not_true,
    Bool.false_eq_true, if_false, List.length_nil, some.ne, Nat.zero_div, same, List.map_nil, List.append_nil]
  rw [setChan_chan]

theorem storeCells_nil (s : State) (n : Fin 8) : s.storeCells n [] = s := by
  unfold State.storeCells
  split
  · rfl
  · rw [List.append_nil]
    exact setChan_chan s n

/-- A burst of stores whose first address holds no memory writes nothing. -/
theorem writeBurst_unmapped (bytes : List Byte) (popped free : Bool) (below : (s.chan n).dst.crossesTop = false)
    (unmapped : s.mappedAt (s.chan n).dar = false) :
    writeBurst n bytes popped free s = takeFaultBit fltDataWriteErr s := by
  have none : s.dstCells n bytes = [] := by
    obtain ⟨rest, addrs⟩ := addrs_eq_cons (b := (s.chan n).dst) (Nat.succ_pos _) (beat_pos _).2
    have first : s.mappedAt (s.chan n).dst.base = false := unmapped
    cases bytes <;> simp [State.dstCells, State.burstAddrs, below, addrs, first]
  have some := burst_size_pos (b := (s.chan n).dst) (Nat.succ_pos _) (beat_pos _).2
  have same : (s.chan n).dst.after 0 = (s.chan n).dar := after_zero _
  have unmoved : (if popped = true then (s.chan n).fifo.drop 0 else (s.chan n).fifo) = (s.chan n).fifo := by
    cases popped <;> rfl
  have undrawn : (if free = true then s.drawn 0 else s) = s := by cases free <;> rfl
  simp only [writeBurst, none, below, List.length_nil, some.ne, Nat.zero_div, same, unmoved, undrawn,
    Bool.false_eq_true, if_false, storeCells_nil]
  exact congrArg _ (setChan_chan s n)

end

/-- Settles O32. -/
theorem dataFaults : Obligations.DataFaults := by
  intro s n runs c
  have channel := onChannel_channel (runsOn_thread runs)
  refine ⟨fun allowed short => ?_, fun refused => ?_, fun refused => ⟨?_, ?_⟩, fun allowed full => ?_,
    fun allowed room below unmapped => ?_, fun allowed enough below unmapped => ?_, fun allowed below unmapped => ?_⟩
  all_goals
    refine (channel _).trans (congrArg _ (Eq.trans ?_ (takeFaultBit_runsOn runs _)))
  · simp only [storeOp, show s.protAllowed n (s.chan n).dstProt = true from allowed, Bool.not_true, Bool.false_eq_true,
      if_false]
    exact if_pos short
  · exact if_pos (by rw [refused]; rfl)
  · exact if_pos (by rw [refused]; rfl)
  · exact if_pos (by rw [refused]; rfl)
  · simp only [loadOp, show s.protAllowed n (s.chan n).srcProt = true from allowed,
      show s.fifoRoom n (s.chan n).src.size = false from full, Bool.not_true, Bool.not_false, Bool.false_eq_true,
      if_false, if_true]
    rfl
  · exact loadOp_unmapped allowed room below unmapped
  · rw [storeOp_enough allowed enough, writeBurst_unmapped _ _ _ below unmapped]
    rfl
  · rw [storeZeroOp_allowed allowed, writeBurst_unmapped _ _ _ below unmapped]
    rfl

/-! ## The faults of fetched bytes (R312, R340..R342; I20) -/

/-- A reserved operand byte behind an opcode that is not excluded. -/
theorem runBytes_reserved {bs : List Byte} {b0 b1 : Byte} (decoding : decode bs = .error (.reservedOperand b0 b1))
    (included : excludedOpcode b0 = false) (s : State) : runBytes bs s = .next (takeFaultBit fltOperandInvalid s) := by
  simp only [runBytes, decoding, decodeFault, included, Bool.false_eq_true, if_false]

/-- An operand byte of which the named bits are not 0. -/
theorem numInstr_reserved {b1 : Byte} (f : Fin 32 → Instr) (set : b1.extractLsb' 0 3 ≠ 0) : numInstr b1 f = none :=
  if_neg set

/-- The two-byte forms with a number refuse set low bits (R316, R317, R342). -/
theorem decode_num_reserved {b0 b1 : Byte} (form : b0 ∈ [0x30#8, 0x31#8, 0x32#8, 0x34#8, 0x35#8])
    (set : b1.extractLsb' 0 3 ≠ 0#3) (rest : List Byte) :
    decode (b0 :: b1 :: rest) = .error (.reservedOperand b0 b1) ∧ excludedOpcode b0 = false := by
  simp only [List.mem_cons, List.not_mem_nil, or_false] at form
  rcases form with rfl | rfl | rfl | rfl | rfl
  all_goals
    refine ⟨?_, by decide⟩
    exact congrArg (decoded _ b1 · rest) (numInstr_reserved _ set)

/-- DMAWFE's operand byte has two reserved bits (R316, R342). -/
theorem decode_wfe_reserved {b1 : Byte} (set : b1.getLsbD 0 = true ∨ b1.getLsbD 2 = true) (rest : List Byte) :
    decode (0x36#8 :: b1 :: rest) = .error (.reservedOperand 0x36#8 b1) := by
  have refused : ¬ b1 &&& 0x05#8 = 0 := by
    intro clear
    have bit (i : Nat) : (b1 &&& 0x05#8).getLsbD i = false := by rw [clear]; exact BitVec.getLsbD_zero
    have low := bit 0
    have high := bit 2
    rw [BitVec.getLsbD_and] at low high
    rcases set with bit | bit
    · rw [bit] at low
      exact absurd low (by decide)
    · rw [bit] at high
      exact absurd high (by decide)
  exact congrArg (decoded _ b1 · rest) (if_neg refused)

/-- The six-byte forms refuse the set bits above a channel number and the register ids above 2 (R302, R303, R312). -/
theorem decode_long_reserved {b0 b1 : Byte} {rest : List Byte} (long : 4 ≤ rest.length)
    (set : (b0 ∈ [0xA0#8, 0xA2#8] ∧ b1.extractLsb' 3 5 ≠ 0#5) ∨ (b0 = 0xBC#8 ∧ 3 ≤ b1.toNat)) :
    decode (b0 :: b1 :: rest) = .error (.reservedOperand b0 b1) ∧ excludedOpcode b0 = false := by
  obtain ⟨b2, b3, b4, b5, after, rfl⟩ : ∃ b2 b3 b4 b5 after, rest = b2 :: b3 :: b4 :: b5 :: after := by
    match rest, long with
    | b2 :: b3 :: b4 :: b5 :: after, _ => exact ⟨b2, b3, b4, b5, after, rfl⟩
  simp only [List.mem_cons, List.not_mem_nil, or_false] at set
  rcases set with ⟨rfl | rfl, set⟩ | ⟨rfl, large⟩
  · exact ⟨congrArg (decoded _ b1 · after) (if_neg set), by decide⟩
  · exact ⟨congrArg (decoded _ b1 · after) (if_neg set), by decide⟩
  · have unnamed : regOfByte b1 = none := by
      have other {v : Byte} (small : v.toNat < 3) : b1 ≠ v := by
        rintro rfl
        omega
      rw [regOfByte, if_neg (other (by decide)), if_neg (other (by decide)), if_neg (other (by decide))]
    have refused : decodeF6 0xBC#8 b1 (ofLe32 b2 b3 b4 b5) = none := by
      show (regOfByte b1).map _ = none
      rw [unnamed, Option.map_none]
    exact ⟨congrArg (decoded _ b1 · after) refused, by decide⟩

/-- An excluded opcode with a number, whatever its operand byte (R340, I5; log 33). -/
theorem decoded_excluded {b0 b1 : Byte} (excluded : excludedOpcode b0 = true) {f : Fin 32 → Instr}
    (undefined : ∀ p s, exec (f p) s = .next (takeFaultBit fltUndefInstr s)) {bs rest : List Byte}
    (form : decode bs = decoded b0 b1 (numInstr b1 f) rest) (s : State) :
    runBytes bs s = .next (takeFaultBit fltUndefInstr s) := by
  unfold runBytes
  rw [form, numInstr]
  split_ifs
  · exact undefined _ s
  · simp only [decoded, decodeFault, excluded, if_true]

theorem runBytes_excluded {b0 : Byte} (form : b0 ∈ [0x25#8, 0x27#8, 0x28#8, 0x29#8, 0x2B#8, 0x2C#8]) (b1 : Byte)
    (rest : List Byte) (s : State) : runBytes (b0 :: b1 :: rest) s = .next (takeFaultBit fltUndefInstr s) := by
  simp only [List.mem_cons, List.not_mem_nil, or_false] at form
  rcases form with rfl | rfl | rfl | rfl | rfl | rfl
  case inr.inr.inl | inr.inr.inr.inr.inr => rfl
  all_goals exact decoded_excluded (b1 := b1) (rest := rest) (by decide) (fun _ _ => rfl) rfl s

/-- An undefined first byte (R341). -/
theorem runBytes_undefined {b0 : Byte} (undefined : instrLength b0 = none) (bs : List Byte) (s : State) :
    runBytes (b0 :: bs) s = .next (takeFaultBit fltUndefInstr s) := by
  simp only [runBytes, decode, undefined, decodeFault]

/-! ## What a thread may not execute (R150, R151, R821; I3, I4) -/

/-- An event the thread may not use. -/
theorem exec_event_refused {s : State} {ev : Fin 32} (refused : s.eventAllowed s.active.thread ev = false) (inv : Bool) :
    exec (.dmasev ev) s = .next (takeFaultBit fltEvntErr s) ∧
      exec (.dmawfe ev inv) s = .next (takeFaultBit fltEvntErr s) := by
  constructor
  · exact congrArg _ (if_neg (ne_true_of_eq_false refused))
  · exact congrArg _ (if_pos (by rw [refused]; rfl))

/-- A peripheral the channel may not use. -/
theorem exec_periph_refused {s : State} {n : Fin 8} {p : Fin 32} {i : Instr} (runs : s.runsOn n)
    (refused : s.periphAllowed n p = false)
    (uses : i ∈ [Instr.dmawfpSingle p, .dmawfpBurst p, .dmawfpPeriph p, .dmaflushp p]) :
    exec i s = .next (takeFaultBit fltPeriphErr s) := by
  have channel := onChannel_channel (runsOn_thread runs)
  have refused : (!s.periphAllowed n p) = true := by rw [refused]; rfl
  simp only [List.mem_cons, List.not_mem_nil, or_false] at uses
  rcases uses with rfl | rfl | rfl | rfl
  all_goals exact (channel _).trans (congrArg _ (if_pos refused))

/-- Settles O33. -/
theorem instructionFaults : Obligations.InstructionFaults := by
  intro s n
  have faulted (runs : s.runsOn n) := takeFaultBit_runsOn runs
  have faultedManager (runs : s.runsManager) := takeFaultBit_runsManager runs
  refine ⟨fun b0 b1 rest reserved => ?_, fun b0 b1 rest excluded => ?_, fun ev inv runs refused => ?_,
    fun ev inv runs refused => ?_, fun p i runs refused uses => ?_, fun released canRun outside => ?_,
    fun b0 bs runs undefined => ?_, fun ns cn addr runs => ?_, fun imm runs large faults => ?_,
    fun ns cn addr runs refused => ?_⟩
  · have invalid : runBytes (b0 :: b1 :: rest) s = .next (takeFaultBit fltOperandInvalid s) := by
      rcases reserved with ⟨form, set⟩ | ⟨rfl, set⟩ | ⟨long, form, set⟩ | ⟨long, form, large⟩
      · obtain ⟨decoding, included⟩ := decode_num_reserved form set rest
        exact runBytes_reserved decoding included s
      · exact runBytes_reserved (decode_wfe_reserved set rest) (by decide) s
      · obtain ⟨decoding, included⟩ := decode_long_reserved long (.inl ⟨form, set⟩)
        exact runBytes_reserved decoding included s
      · obtain ⟨decoding, included⟩ := decode_long_reserved long (.inr ⟨form, large⟩)
        exact runBytes_reserved decoding included s
    rw [invalid]
    exact ⟨fun runs => congrArg _ (faulted runs _), fun runs => congrArg _ (faultedManager runs _)⟩
  · rw [runBytes_excluded excluded]
    exact ⟨fun runs => congrArg _ (faulted runs _), fun runs => congrArg _ (faultedManager runs _)⟩
  · obtain ⟨signal, wait⟩ := exec_event_refused (s := s) (by rwa [runsOn_thread runs]) inv
    rw [signal, wait, faulted runs]
    exact ⟨rfl, rfl⟩
  · obtain ⟨signal, wait⟩ := exec_event_refused (s := s) (by rwa [runsManager_thread runs]) inv
    rw [signal, wait, faultedManager runs]
    exact ⟨rfl, rfl⟩
  · rw [exec_periph_refused runs refused uses, faulted runs]
    rfl
  · have proceeds : (s.board.resetHeld || !runs (s.threadStatus (.channel n))) = false := by
      rw [threadStatus_channel, canRun, released]
      rfl
    rw [threadStep, if_neg (ne_true_of_eq_false proceeds)]
    simp only [threadPc_channel, outside]
    rw [takeFaultBit_runsOn (activate_runsOn s n)]
    rfl
  · rw [runBytes_undefined undefined, faulted runs]
    rfl
  · have undecided : exec (.dmago ns cn addr) s = .next (takeUndefOrInvalid s) := by
      simp only [exec, execDmago, runsOn_thread runs]
    have runs : (s.drawn 1).runsOn n := runs
    rw [undecided, takeUndefOrInvalid, takeFaultBit_runsOn runs]
    cases Config.freeBool s.draws
    · exact ⟨_, .inr rfl, rfl⟩
    · exact ⟨_, .inl rfl, rfl⟩
  · refine (onChannel_channel (runsOn_thread runs) (movOp .ccr imm)).trans (congrArg _ ?_)
    have refused : (swapReserved imm && s.platform.reservedSwapFaults) = true :=
      Bool.and_eq_true_iff.2 ⟨decide_eq_true large, faults⟩
    exact (if_pos refused).trans (faulted runs _)
  · have refused : exec (.dmago ns cn addr) s = .next (takeFaultBit fltDmagoErr s) := by
      simp only [exec, execDmago, runsManager_thread runs, refused, Bool.not_false, if_true]
    rw [refused, faultedManager runs]
    rfl

end Sys2Proof.Machine
end

section
/-! PROOFS. The claims on encoder commands, allocation and the synthesizer's checks that are left (R102, R106, R400, R404,
R501). -/

namespace Sys2Proof.Machine

/-! ## The order of the checks (R404) -/

/-- A failing check's status is the answer, whatever the buffer holds. -/
theorem cmdInst_failed {s : State} {h : Nat} {b : Buffer} {op : EncOp} {e : Status} (live : bufGet s.buffers h = some b)
    (free : s.attached h = false) (failed : encodeOp op b (s.bufByte b) = .error e) :
    Answers (cmdInst (some h) op s) s e := by
  rw [cmdInst_live live free, failed]
  rfl

/-- Settles O36. -/
theorem encoderCheckOrder : Obligations.EncoderCheckOrder := by
  intro s h b live
  refine ⟨fun held => ⟨fun op => onBuffer_attached live held _, onBuffer_attached live held _,
    fun ns af => onBuffer_attached live held _⟩, fun op => cmdInst_null op s, fun free => ?_⟩
  have fails (op : EncOp) (e : Status) := cmdInst_failed (op := op) (e := e) live free
  refine ⟨fun ev bad => fails _ _ (if_pos ?_), fun ev inv bad => fails _ _ (if_pos bad),
    fun p ty bad => fails _ _ (if_pos bad), fun p legal => fails _ _ (if_neg (Nat.not_lt.2 legal)),
    fun p bad => fails _ _ (if_pos bad), fun cn addr ns bad => fails _ _ (if_pos bad), fun imm => fails _ _ rfl,
    fails _ _ rfl, fails _ _ rfl, fails _ _ rfl, fun op i appended full => fails _ _ ?_⟩
  · exact Bool.or_eq_true_iff.2 (bad.imp decide_eq_true decide_eq_true)
  · rw [encodeOp_append b _ appended, emit_full full]

/-! ## The END sentinel (R102) -/

/-- An append ends in the sentinel. -/
theorem append_sentinel {s t : State} {b : Buffer} {bs : List Byte} (hm : s.mem.wf = true)
    (ht : t.mem = applyWrites b (appendBytes b bs).writes s.mem) {k : Nat} (length : bs.length = k)
    (room : b.len + k + 1 ≤ 2 ^ 32) : t.byteAt (b.addr (b.len + k)) = 0x00 := by
  subst length
  have last := (append_bytes hm room ht).1 bs.length (by simp)
  rwa [List.getElem_concat_length rfl] at last

/-- Every edit leaves END behind the last instruction: it appends one, or moves the one that stands there. -/
theorem EditOf.sentinel {s t : State} {b : Buffer} {ed : Edit} (edit : EditOf b (s.bufByte b) ed)
    (hm : s.mem.wf = true) (cap : b.cap < 2 ^ 32) (ends : s.bufByte b b.len = 0x00)
    (ht : t.mem = applyWrites b ed.writes s.mem) : t.byteAt (b.addr ed.buffer.len) = 0x00 := by
  cases edit with
  | append i room => exact append_sentinel hm ht rfl (by omega)
  | opened k n free room => exact append_sentinel (k := 2) hm ht rfl (by omega)
  | closed cond k start jump innermost room =>
    exact append_sentinel (k := 2) hm ht (by rw [encode_loopEndInstr]; rfl) (by omega)
  | inserted k n body free inside room =>
    have inside : body ≤ b.len := inside.trans (Nat.sub_le ..)
    have moved := (insert_bytes hm inside (by omega) ht).2.1 body le_rfl
    rw [Nat.add_right_comm, Nat.sub_add_cancel inside] at moved
    exact moved.trans ends
  | wrapped k n body inside room =>
    rw [applyWrites_append] at ht
    have finish := (chLoop_bytes (u := { s with mem := applyWrites b (insertEdit k n body b (s.bufByte b)).writes s.mem })
      hm inside (by omega) rfl ht).2.2.1
    exact finish 2 (Nat.lt_succ_self 2)

/-- Settles O41. -/
theorem encoderKeepsSentinel : Obligations.EncoderKeepsSentinel := by
  intro s t h b op r editable ends answer
  obtain ⟨live, free, wf, hm⟩ := editable
  obtain ⟨inside, cap, -⟩ := wf_bounds wf
  rw [cmdInst_live live free] at answer
  cases edited : encodeOp op b (s.bufByte b) with
  | error e =>
    rw [edited] at answer
    cases answer
    exact ⟨b, live, wf, rfl, rfl, le_rfl, inside, ends, free⟩
  | ok ed =>
    rw [edited] at answer
    cases answer
    have edit := editOf_encodeOp edited
    obtain ⟨base, sameCap, grown⟩ := edit.place
    have kept := edit.wf ((buffer_wf_iff b).1 wf)
    have place (i : Nat) : ed.buffer.addr i = b.addr i := by rw [Buffer.addr, base, Buffer.addr]
    refine ⟨ed.buffer, bufGet_bufSet_self live, (buffer_wf_iff _).2 kept, base, sameCap, grown, kept.fits, ?_, free⟩
    rw [State.bufByte, place]
    exact edit.sentinel hm cap ends rfl

/-! ## Allocation (R106, R400) -/

/-- Settles O42. -/
theorem allocProgramFresh : Obligations.AllocProgramFresh := by
  intro s size base e hm
  rcases allocBuffer_cases size base e.allocOk s with ⟨zero, refused⟩ | ⟨some, absent, refused⟩ |
    ⟨some, positive, present, stored⟩
  · refine ⟨fun _ => ?_, fun some => absurd zero some, fun some => absurd zero some⟩
    rw [cmdAllocProgram, refused]
    rfl
  · refine ⟨fun zero => absurd zero some, fun _ _ => ?_, fun _ present => absurd (absent.symm.trans present) nofun⟩
    rw [cmdAllocProgram, refused]
    rfl
  · refine ⟨fun zero => absurd zero some, fun _ absent => absurd (absent.symm.trans present) nofun, fun _ _ => ?_⟩
    let b := freshBuffer size.toNat base
    refine ⟨({ s with mem := applyWrites b [(0, 0x00)] s.mem } : State).addBuffer b, b, ?_, if_pos rfl, rfl, rfl, rfl,
      rfl, rfl, rfl, rfl, rfl, ?_, fun a outside => ?_, fun h other => if_neg other, rfl, rfl⟩
    · rw [cmdAllocProgram, stored]
      rfl
    · exact memRead_applyWrites hm (List.nodup_singleton _) (List.mem_singleton.2 rfl)
        fun w written => List.mem_singleton.1 written ▸ Nat.two_pow_pos 32
    · exact memRead_applyWrites_ne fun w written => List.mem_singleton.1 written ▸ outside 0 positive

/-! ## The synthesizer's parameter checks (R501) -/

theorem synthesize_refused {e : Env} {chk : Chunk} {prm : XferParams} {s : State} {st : Status}
    (refused : checkParams prm = .error st) : synthesize e chk prm s = (s, .error st) := by
  rw [synthesize, refused]

theorem legalWidth_iff {n : Nat} : legalWidth n = true ↔ n ∈ [1, 2, 4, 8] := by
  simp [legalWidth, or_assoc]

section
variable {prm : XferParams} {st : SrcType} {dt : DstType} {sw : Swap}

/-- The kinds of source, destination and swap the synthesizer takes: each named, no peripheral. -/
structure LegalKinds (prm : XferParams) (st : SrcType) (dt : DstType) (sw : Swap) : Prop where
  src : prm.srcType = some st
  dst : prm.dstType = some dt
  swap : prm.swap = some sw
  srcHost : st ≠ .peripheral
  dstHost : dt ≠ .peripheral

theorem checkParams_width (kinds : LegalKinds prm st dt sw) (bad : prm.burstBytes ∉ [1, 2, 4, 8]) :
    checkParams prm = .error .noSupport := by
  have bad : legalWidth prm.burstBytes = false := Bool.eq_false_iff.2 (mt legalWidth_iff.1 bad)
  simp [checkParams, kinds.src, kinds.dst, kinds.swap, kinds.srcHost, kinds.dstHost, bad]

theorem checkParams_channel (kinds : LegalKinds prm st dt sw) (width : prm.burstBytes ∈ [1, 2, 4, 8])
    (bad : 7 < prm.channel) : checkParams prm = .error .range := by
  simp [checkParams, kinds.src, kinds.dst, kinds.swap, kinds.srcHost, kinds.dstHost, legalWidth_iff.2 width, bad]

theorem checkParams_fields (kinds : LegalKinds prm st dt sw) (width : prm.burstBytes ∈ [1, 2, 4, 8])
    (channel : prm.channel ≤ 7) (bad : 7 < prm.srcProt ∨ 7 < prm.srcCache ∨ 7 < prm.dstProt ∨ 7 < prm.dstCache) :
    checkParams prm = .error .range := by
  simp [checkParams, kinds.src, kinds.dst, kinds.swap, kinds.srcHost, kinds.dstHost, legalWidth_iff.2 width,
    Nat.not_lt.2 channel, or_assoc, bad]

theorem checkParams_swap (kinds : LegalKinds prm st dt sw) (width : prm.burstBytes ∈ [1, 2, 4, 8])
    (channel : prm.channel ≤ 7) (srcProt : prm.srcProt ≤ 7) (srcCache : prm.srcCache ≤ 7) (dstProt : prm.dstProt ≤ 7)
    (dstCache : prm.dstCache ≤ 7) (bad : prm.burstBytes < swapBytes sw) : checkParams prm = .error .noSupport := by
  simp [checkParams, kinds.src, kinds.dst, kinds.swap, kinds.srcHost, kinds.dstHost, legalWidth_iff.2 width,
    Nat.not_lt.2, channel, srcProt, srcCache, dstProt, dstCache, bad]

/-- A kind that is not named, or a peripheral. -/
theorem checkParams_kinds (bad : ¬ ∃ st dt sw, LegalKinds prm st dt sw) : checkParams prm = .error .noSupport := by
  unfold checkParams
  split
  · rename_i st dt sw src dst swap
    refine if_pos ?_
    by_contra host
    simp only [Bool.or_eq_true, decide_eq_true_eq, not_or] at host
    exact bad ⟨st, dt, sw, src, dst, swap, host.1, host.2⟩
  · rfl

end

/-- Settles O45. -/
theorem synthesizerChecks : Obligations.SynthesizerChecks := by
  intro s e chk prm kinds
  have legal : kinds ↔ ∃ st dt sw, LegalKinds prm st dt sw :=
    ⟨fun ⟨st, dt, sw, a, b, c, d, f⟩ => ⟨st, dt, sw, a, b, c, d, f⟩,
      fun ⟨st, dt, sw, a, b, c, d, f⟩ => ⟨st, dt, sw, a, b, c, d, f⟩⟩
  rw [legal]
  refine ⟨fun bad => ?_, fun ⟨st, dt, sw, named⟩ bad => ?_, fun ⟨st, dt, sw, named⟩ width bad => ?_,
    fun ⟨st, dt, sw, named⟩ width channel bad => ?_,
    fun ⟨st, dt, sw, named⟩ width channel srcProt srcCache dstProt dstCache sw' swap bad => ?_⟩
  all_goals refine synthesize_refused ?_
  · exact checkParams_kinds bad
  · exact checkParams_width named bad
  · exact checkParams_channel named width bad
  · exact checkParams_fields named width channel bad
  · cases named.swap.symm.trans swap
    exact checkParams_swap named width channel srcProt srcCache dstProt dstCache bad

end Sys2Proof.Machine
end

section
/-! PROOFS. The claims on reconciliation and the polls that consume a state (R621, R632, R635, R637, R640, R646, R656). -/

namespace Sys2Proof.Machine

/-! ## The transitions of reconciliation (R601, R621) -/

/-- The transitions that R621 names, with an abort pending or not. -/
def Transition (abort : Bool) (st st' : ChState) : Prop :=
  st' = st ∨ (st = .busy ∧ st' = .error) ∨ (st = .busy ∧ st' = .done ∧ abort = false) ∨
    (st ∈ [ChState.ready, .busy, .done, .error] ∧ st' = .aborted ∧ abort = true)

/-- A channel that has faulted or is done may still be aborted, and one that is aborted stays so. -/
theorem Transition.trans {abort : Bool} {st₁ st₂ st₃ : ChState} (first : Transition abort st₁ st₂)
    (second : Transition abort st₂ st₃) : Transition abort st₁ st₃ := by
  rcases second with rfl | ⟨rfl, rfl⟩ | ⟨rfl, rfl, rfl⟩ | ⟨active, rfl, rfl⟩
  · exact first
  · rcases first with rfl | ⟨-, e⟩ | ⟨-, e, -⟩ | ⟨-, e, -⟩ <;> try cases e
    exact .inr (.inl ⟨rfl, rfl⟩)
  · rcases first with rfl | ⟨-, e⟩ | ⟨-, e, -⟩ | ⟨-, e, -⟩ <;> try cases e
    exact .inr (.inr (.inl ⟨rfl, rfl, rfl⟩))
  · refine .inr (.inr (.inr ⟨?_, rfl, rfl⟩))
    rcases first with rfl | ⟨rfl, -⟩ | ⟨rfl, -, -⟩ | ⟨active, -, -⟩
    · exact active
    · decide
    · decide
    · exact active

/-- What the reconciliation of some channels leaves of the context. -/
structure Reconciled (c c' : Context) : Prop where
  pending : c'.pending = c.pending
  abortPending : c'.abortPending = c.abortPending
  initialised : c'.initialised = c.initialised
  channels : ∀ k : Fin 8, Transition c.abortPending c.chState[k] c'.chState[k]

theorem Reconciled.trans {c c' c'' : Context} (first : Reconciled c c') (second : Reconciled c' c'') :
    Reconciled c c'' where
  pending := second.pending.trans first.pending
  abortPending := second.abortPending.trans first.abortPending
  initialised := second.initialised.trans first.initialised
  channels k := (first.channels k).trans (first.abortPending ▸ second.channels k)

/-- One channel makes its transition, and the others stay. -/
theorem transition_set {c : Context} {ch : Fin 8} {st : ChState} (moves : Transition c.abortPending c.chState[ch] st)
    (k : Fin 8) : Transition c.abortPending c.chState[k] (c.chState.set ch st)[k] := by
  rw [vector_set_get]
  split
  · rename_i e
    exact e ▸ moves
  · exact .inl rfl

theorem ReconcileStep.reconciled {ch : Fin 8} {c c' : Context} (step : ReconcileStep ch c c') : Reconciled c c' := by
  cases step with
  | same => exact ⟨rfl, rfl, rfl, fun _ => .inl rfl⟩
  | error busy word => exact ⟨rfl, rfl, rfl, transition_set (.inr (.inl ⟨busy, rfl⟩))⟩
  | aborted active pending =>
    refine ⟨rfl, rfl, rfl, transition_set (.inr (.inr (.inr ⟨?_, rfl, pending⟩)))⟩
    obtain ⟨notFree, notAborted⟩ := active
    cases st : c.chState[ch] with
    | free => exact absurd st notFree
    | aborted => exact absurd st notAborted
    | ready | busy | done | error => decide
  | done busy pending => exact ⟨rfl, rfl, rfl, transition_set (.inr (.inr (.inl ⟨busy, rfl, pending⟩)))⟩

theorem reconcileChs_reconciled (fsrc : Word) (chs : List (Fin 8)) (c : Context) (s : State) :
    Reconciled c (reconcileChs fsrc chs c s).1 := by
  induction chs generalizing c s with
  | nil => exact ⟨rfl, rfl, rfl, fun _ => .inl rfl⟩
  | cons ch chs ih => exact (reconcileCh_step fsrc ch c s).1.reconciled.trans (ih _ _)

/-- The whole of reconciliation: the channels' transitions, and then the end of a pending abort. -/
theorem reconcile_reconciled (c : Context) (s : State) :
    ∃ c₁, Reconciled c c₁ ∧ (reconcile c s).1 = clearAbortPending c₁ := by
  obtain ⟨u, mgrFault, fsrc, -, r⟩ := reconcile_eq c s
  have channels := reconcileChs_reconciled fsrc allChannels { c with mgrFault := mgrFault } u
  exact ⟨_, ⟨channels.pending, channels.abortPending, channels.initialised, channels.channels⟩, by rw [r]⟩

/-- Settles O51. -/
theorem reconcileTransitions : Obligations.ReconcileTransitions := by
  intro s c
  obtain ⟨c₁, kept, reconciled⟩ := reconcile_reconciled c s
  have fields := clearAbortPending_eq c₁
  have ends := clearAbortPending_abortPending c₁
  dsimp only
  rw [reconciled]
  refine ⟨by rw [fields]; exact kept.pending, (reconcile_moved c s).buffers, fun pending => ?_, fun ended => ?_,
    fun ch => by rw [fields]; exact kept.channels ch⟩
  · exact kept.abortPending.symm.trans (ends.1 pending).1
  · rw [Bool.eq_false_iff, Ne, ends]
    rintro ⟨-, k, notFree, notAborted⟩
    rw [fields] at ended
    exact (ended k).elim notFree notAborted

/-! ## Polls of one channel with a quiet environment (R620) -/

section
variable {s : State} {c : Context}

theorem reconcile_initialised (c : Context) (s : State) : (reconcile c s).1.initialised = c.initialised := by
  obtain ⟨c₁, kept, reconciled⟩ := reconcile_reconciled c s
  rw [reconciled, clearAbortPending_eq]
  exact kept.initialised

theorem reconcile_abortPending (off : c.abortPending = false) (s : State) : (reconcile c s).1.abortPending = false := by
  have only := (reconcileTransitions s c).2.2.1
  rw [off] at only
  exact Bool.eq_false_iff.2 fun on => absurd (only on) Bool.false_ne_true

/-- A poll of one channel reconciles and answers. -/
theorem pollCh_quiet (quiet : s.quiet c) (ch : Fin 8) (f : Fin 8 → Context → State → CtxResult) :
    pollCh .ctx ch.val s f = andThen (f ch (reconcile c s).1 s) putContext := by
  obtain ⟨hc, hi, idle⟩ := quiet
  rw [pollCh, onCtxChannel_ready hc hi, (reconcileReads s c idle).1]

theorem pollAll_quiet (quiet : s.quiet c) (f : Context → State → CtxResult) :
    pollAll .ctx s f = andThen (f (reconcile c s).1 s) putContext := by
  obtain ⟨hc, hi, idle⟩ := quiet
  rw [pollAll, onContext_ready hc hi, (reconcileReads s c idle).1]

/-- Reconciliation of a channel that is Free, Done, Error or Aborted, without an abort, leaves it. -/
theorem reconcile_settled (idle : s.gaps = []) {ch : Fin 8} (settled : c.chState[ch] ≠ .busy)
    (kept : c.abortPending = false ∨ c.chState[ch] = .free ∨ c.chState[ch] = .aborted) :
    (reconcile c s).1.chState[ch] = c.chState[ch] ∧ (reconcile c s).1.lastFault[ch] = c.lastFault[ch] ∧
      (reconcile c s).1.errAck[ch] = c.errAck[ch] := by
  obtain ⟨state, fault, ack⟩ := (reconcileReads s c idle).2.2.2.2 ch
  refine ⟨?_, fault.trans (if_neg fun faults => settled faults.1), ack.trans (if_neg fun faults => settled faults.1)⟩
  rw [state]
  split_ifs with ended faults aborts ends
  · rfl
  · exact absurd faults.1 settled
  · rcases kept with off | free | aborted
    · exact absurd (off.symm.trans aborts.1) Bool.false_ne_true
    · exact absurd (.inl free) ended
    · exact absurd (.inr aborted) ended
  · exact absurd ends.1 settled
  · rfl

end

/-- Settles O52: the first call gives the report and marks the channel, and the second finds the mark. -/
theorem checkStateReportsOnce : Obligations.CheckStateReportsOnce := by
  intro s c ch quiet off error unreported
  obtain ⟨hc, hi, idle⟩ := id quiet
  obtain ⟨state, fault, ack⟩ := reconcile_settled idle (ch := ch) (by rw [error]; decide) (.inl off)
  have on := reconcile_initialised c s
  have still := reconcile_abortPending off s
  generalize reconciled : (reconcile c s).1 = c₁ at state fault ack on still
  rw [error] at state
  let c₂ : Context := { c₁ with errAck := c₁.errAck.set ch true }
  let t : State := { s with ctx := some c₂ }
  have marked : c₂.errAck[ch] = true := by rw [vector_set_get, if_pos rfl]
  have quiet₂ : t.quiet c₂ := ⟨rfl, on.trans hi, idle⟩
  obtain ⟨state₂, fault₂, ack₂⟩ := reconcile_settled (s := t) (c := c₂) idle (ch := ch)
    (fun busy => by cases state.symm.trans busy) (.inl still)
  refine ⟨t, { t with ctx := some (reconcile c₂ t).1 }, (reconcile c₂ t).1, ?_, ?_, rfl, state₂.trans state,
    fault₂.trans fault⟩
  · have first : c₁.acknowledged ch = false := by
      rw [Context.acknowledged, ack, unreported, Bool.and_false]
    rw [cmdCheckState, pollCh_quiet quiet, reconciled]
    simp only [state, if_true, first, Bool.false_eq_true, if_false, putContext_reply, fault]
    rfl
  · have state₂ : (reconcile c₂ t).1.chState[ch] = .error := state₂.trans state
    have second : (reconcile c₂ t).1.acknowledged ch = true := by
      rw [Context.acknowledged, state₂, ack₂, marked]
      rfl
    rw [cmdCheckState, pollCh_quiet quiet₂]
    simp only [state₂, if_true, second, putContext_reply]
    rfl

/-! ## Release (R635, R637, R640) -/

section
variable {s : State} {c : Context} {ch : Fin 8} {h : Nat} {b : Buffer}

/-- A poll that releases a channel it accepts, and answers ERR_BUSY on a Free one, acknowledges once. -/
theorem acknowledges_once {f : Fin 8 → Context → State → CtxResult} (quiet : s.quiet c) (wf : s.buffersWf = true)
    (held : c.pending[ch] = some h) (live : bufGet s.buffers h = some b)
    (accepts : f ch (reconcile c s).1 s =
      ctxReply (release ch (reconcile c s).1 s).1 (release ch (reconcile c s).1 s).2 .success 0)
    (refuses : ∀ c' s', c'.chState[ch] = .free → f ch c' s' = ctxReply c' s' .busy 0) :
    ∃ t u c', Answers (pollCh .ctx ch.val s f) t .success ∧ Answers (pollCh .ctx ch.val t f) u .busy ∧
      t.ctx = some c' ∧ c'.chState[ch] = .free ∧ c'.pending[ch] = none ∧ c'.lastFault[ch] = 0 ∧
      bufGet t.buffers h = (if b.autoFree then none else some b) ∧
      (∀ h', h' ≠ h → bufGet t.buffers h' = bufGet s.buffers h') ∧ t.mem = s.mem ∧ t.engine = s.engine := by
  have ⟨_, hi, idle⟩ := quiet
  have held₁ : (reconcile c s).1.pending[ch] = some h := by rwa [(reconcileTransitions s c).1]
  have on := reconcile_initialised c s
  obtain ⟨l, released, freed, others⟩ := release_live wf held₁ live
  rw [released] at accepts
  generalize reconciled : (reconcile c s).1 = c₁ at accepts on
  let c₂ : Context := { c₁ with
    pending := c₁.pending.set ch none
    lastFault := c₁.lastFault.set ch 0
    errAck := c₁.errAck.set ch false
    chState := c₁.chState.set ch .free }
  let t : State := { s with buffers := l, ctx := some c₂ }
  have free : c₂.chState[ch] = .free := by rw [vector_set_get, if_pos rfl]
  have quiet₂ : t.quiet c₂ := ⟨rfl, on.trans hi, idle⟩
  have free₂ := (reconcile_settled (s := t) (c := c₂) idle (ch := ch) (by rw [free]; decide) (.inr (.inl free))).1
  refine ⟨t, { t with ctx := some (reconcile c₂ t).1 }, c₂, ?_, ?_, rfl, free, ?_, ?_, freed, others, rfl, rfl⟩
  · rw [pollCh_quiet quiet, reconciled, accepts]
    rfl
  · rw [pollCh_quiet quiet₂, refuses _ _ (free₂.trans free)]
    exact putContext_reply t _ .busy 0
  · rw [vector_set_get, if_pos rfl]
  · rw [vector_set_get, if_pos rfl]

/-- Reconciliation makes a Busy channel Done that has stopped without a fault, and leaves a Done one. -/
theorem reconcile_done (idle : s.gaps = []) (off : c.abortPending = false)
    (ends : c.chState[ch] = .done ∨ (c.chState[ch] = .busy ∧ s.engine.fsrc.getLsbD ch.val = false ∧
      statusOf (s.chan ch).csr = 0x0#4)) : (reconcile c s).1.chState[ch] = .done := by
  rcases ends with done | ⟨busy, healthy, stopped⟩
  · rw [(reconcile_settled idle (by rw [done]; decide) (.inl off)).1, done]
  · rw [((reconcileReads s c idle).2.2.2.2 ch).1]
    simp [busy, healthy, stopped, off]

end

/-- Settles O53. -/
theorem acknowledgedOnce : Obligations.AcknowledgedOnce := by
  intro s c ch h b quiet wf held live
  have ⟨_, _, idle⟩ := quiet
  refine ⟨fun off ends => ?_, fun aborted => ?_⟩
  · have done := reconcile_done idle off ends
    refine acknowledges_once quiet wf held live ?_ fun c' s' free => ?_
    · simp only [done]
    · simp only [free]
  · have aborted : (reconcile c s).1.chState[ch] = .aborted := by
      rw [(reconcile_settled idle (by rw [aborted]; decide) (.inr (.inr aborted))).1, aborted]
    refine acknowledges_once quiet wf held live ?_ fun c' s' free => ?_
    · simp only [aborted, if_true]
    · simp only [free]
      exact if_neg nofun

end Sys2Proof.Machine
end

section
/-! PROOFS. The claims on initialise, cleanup and the short-transfer bypass (R235, R730, R735, R741, R900, R904). -/

namespace Sys2Proof.Machine

/-! ## Initialise (R730, R900) -/

section
variable {s : State} {base : Word} {wb : Nat} {hw : Option HwConfig} {e : Env}

theorem cmdInitialise_misaligned (bad : base.toNat % 4 ≠ 0) : cmdInitialise base wb hw e s = replyStatus s .alignment :=
  if_pos bad

theorem cmdInitialise_width (aligned : base.toNat % Config.regBaseAlign = 0) (bad : wb ∉ [1, 2, 4, 8]) :
    cmdInitialise base wb hw e s = replyStatus s .noSupport := by
  have bad : legalWidth wb = false := Bool.eq_false_iff.2 (mt legalWidth_iff.1 bad)
  rw [cmdInitialise, if_neg (not_not_intro aligned), bad]
  rfl

theorem cmdInitialise_config (aligned : base.toNat % Config.regBaseAlign = 0) (width : wb ∈ [1, 2, 4, 8])
    (bad : hwInitOk s.platform.boardFamily hw = false) : cmdInitialise base wb hw e s = replyStatus s .noSupport := by
  rw [cmdInitialise, if_neg (not_not_intro aligned), legalWidth_iff.2 width, bad]
  rfl

/-- Past its checks, it resets the controller and allocates. -/
theorem cmdInitialise_checked (aligned : base.toNat % Config.regBaseAlign = 0) (width : wb ∈ [1, 2, 4, 8])
    (config : hwInitOk s.platform.boardFamily hw = true) :
    cmdInitialise base wb hw e s = finishInitialise base wb e (resetSequence hw s) := by
  rw [cmdInitialise, if_neg (not_not_intro aligned), legalWidth_iff.2 width, config]
  rfl

end

/-- The context is new, every field at the value of R900. -/
theorem newContext_channels (base : Word) (wb : Nat) (dbg : DebugBuffer) (ch : Fin 8) :
    (newContext base wb dbg).chState[ch] = .free ∧ (newContext base wb dbg).pending[ch] = none ∧
      (newContext base wb dbg).lastFault[ch] = 0 ∧ (newContext base wb dbg).errAck[ch] = false := by
  simp [newContext]

/-- Twice a legal word size is no more than a word holds. -/
theorem newContext_shortThreshold {wb : Nat} (width : wb ∈ [1, 2, 4, 8]) (base : Word) (dbg : DebugBuffer) :
    (newContext base wb dbg).shortThreshold.toNat = 2 * wb := by
  simp only [List.mem_cons, List.not_mem_nil, or_false] at width
  rcases width with rfl | rfl | rfl | rfl <;> rfl

/-- Settles O56. -/
theorem initialiseResets : Obligations.InitialiseResets := by
  intro s base wb hw e r valid applied
  refine ⟨fun bad => ?_, fun aligned bad => ?_, fun aligned width => ?_⟩
  · exact cmdInitialise_misaligned bad
  · exact cmdInitialise_width aligned bad
  have checked : valid = hwInitOk s.platform.boardFamily hw := by cases hw <;> rfl
  have engine : (resetSequence hw s).engine = (resetRelease (resetAssert applied)).engine := by cases hw <;> rfl
  have released : (resetSequence hw s).board.resetHeld = false := rfl
  have config : (resetSequence hw s).board.hwConfig = applied.board.hwConfig := by cases hw <;> rfl
  have moved := resetSequence_moved hw s
  have mem : (resetSequence hw s).mem = s.mem := by cases hw <;> rfl
  split_ifs with bad absent
  · exact cmdInitialise_config aligned width (checked.symm.trans bad)
  all_goals
    have started : r = finishInitialise base wb e (resetSequence hw s) :=
      cmdInitialise_checked aligned width (checked.symm.trans (Bool.eq_true_of_not_eq_false bad))
    rw [started]
    unfold finishInitialise
  · rw [if_neg (ne_true_of_eq_false absent)]
    refine ⟨_, rfl, fun c there => ?_, mem, moved.buffers, released⟩
    obtain ⟨c₀, -, rfl⟩ := Option.map_eq_some_iff.1 there
    rfl
  · rw [if_pos (Bool.eq_true_of_not_eq_false absent)]
    exact ⟨_, _, _, rfl, rfl, rfl, rfl, rfl, rfl, rfl, newContext_shortThreshold width base _, rfl, rfl, rfl, rfl,
      newContext_channels base wb _, engine, released, config, mem,
      moved.buffers⟩

/-! ## Cleanup (R735, R904) -/

/-- Settles O57. -/
theorem cleanupDiscards : Obligations.CleanupDiscards := by
  intro s c hc hi
  rw [cmdCleanup, onContext_ready hc hi]
  refine ⟨fun t r answer => ?_, fun free => ?_⟩
  · cases killed : killAll (c.channels (· != .free)) c s with
    | none =>
      rw [killed] at answer
      cases answer
    | some p =>
      rw [killed] at answer
      cases answer
      exact ⟨rfl, rfl, _, rfl, rfl, rfl, by simp⟩
  · have nothing : c.channels (· != .free) = [] := List.filter_eq_nil_iff.2 fun ch _ => by rw [free ch]; decide
    rw [nothing]
    exact ⟨_, _, rfl⟩

/-! ## The short-transfer bypass (R235, R741) -/

/-- Ranges that are the same, or too far apart, do not overlap at different places. -/
theorem overlaps_eq_false {R W L : Word}
    (apart : R = W ∨ (L.toNat ≤ (W - R).toNat ∧ L.toNat ≤ (R - W).toNat)) : overlaps R W L = false := by
  rcases apart with rfl | ⟨ahead, behind⟩
  · simp [overlaps]
  · rw [overlaps, decide_eq_false (Nat.not_lt.2 ahead), decide_eq_false (Nat.not_lt.2 behind), Bool.or_self,
      Bool.and_false]

/-- The state after the copy. -/
def State.copied (s : State) (k : Chunk) : State :=
  { s with mem := memWrites s.mem ((span k.writeAddr k.length.toNat).zip
    ((span k.readAddr k.length.toNat).map s.byteAt)) }

/-- The bypass of ranges that hold memory and do not overlap. -/
theorem bypass_copies {k : Chunk} {s : State}
    (mapped : ∀ i, i < k.length.toNat → s.mappedAt (k.readAddr + BitVec.ofNat 32 i) = true ∧
      s.mappedAt (k.writeAddr + BitVec.ofNat 32 i) = true)
    (apart : k.readAddr = k.writeAddr ∨ (k.length.toNat ≤ (k.writeAddr - k.readAddr).toNat ∧
      k.length.toNat ≤ (k.readAddr - k.writeAddr).toNat)) :
    bypass k s = some (s.copied k) := by
  have all : (span k.readAddr k.length.toNat ++ span k.writeAddr k.length.toNat).all s.mappedAt = true := by
    simp only [List.all_append, Bool.and_eq_true, span, List.all_map, List.all_eq_true, List.mem_range]
    exact ⟨fun i inside => (mapped i inside).1, fun i inside => (mapped i inside).2⟩
  simp only [bypass, all, overlaps_eq_false apart, Bool.not_true, Bool.false_eq_true, if_false]
  rfl

/-- Settles O58. -/
theorem bypassCopies : Obligations.BypassCopies := by
  intro s c k index e hc hi wf none short mapped apart
  have copies := bypass_copies mapped apart
  refine ⟨s.copied k, ?_, rfl, fun i inside => ?_, fun a outside => ?_⟩
  · have taken : (decide (k.length ≤ c.shortThreshold) && true) = true := by rw [decide_eq_true short]; rfl
    rw [cmdSetupTransfer, onContext_ready hc hi]
    simp only [none, taken, if_true, copies]
    exact putContext_same (s := s.copied k) hc .skipped k.length
  · have bytes : ((span k.readAddr k.length.toNat).map s.byteAt).length = k.length.toNat := by simp [span]
    refine (memRead_from wf k.writeAddr bytes k.length.isLt.le inside).trans ?_
    simp [span]
  · refine memRead_outside fun mem => ?_
    obtain ⟨i, inside, place⟩ := List.mem_map.1 mem
    exact outside i (List.mem_range.1 inside) place.symm

end Sys2Proof.Machine
end

section
/-! PROOFS. One issue with a quiet environment (R700, R711, R712): the debug words, the trigger, and what the engine does
with them; then the claims on starting a channel and on the safe abort. -/

namespace Sys2Proof.Machine

/-! ## The debug words (R157, R158, R330) -/

/-- DBGINST0 for a channel's DMAGO. -/
def goWord (ns : Bool) (ch : Fin 8) : Word :=
  BitVec.ofNat 32 (0x00A00000 + (if ns then 0x00020000 else 0) + 0x01000100 * ch.val)

/-- DBGINST0 for a channel's DMAKILL. -/
def killWord (ch : Fin 8) : Word := BitVec.ofNat 32 (0x00010001 + 0x100 * ch.val)

theorem debugWords_go (ns : Bool) (ch : Fin 8) (addr : Word) :
    debugWords false ch.val (encode (.dmago ns ch addr)) = (goWord ns ch, addr) := by
  refine Prod.ext ?_ (ofLe32_byteOf addr)
  show 0 ||| BitVec.ofNat 32 ch.val <<< 8 ||| ((if ns then 0xA2#8 else 0xA0#8).setWidth 32) <<< 16 |||
    ((BitVec.ofNat 8 ch.val).setWidth 32) <<< 24 = goWord ns ch
  revert ns ch
  decide

theorem debugWords_kill (ch : Fin 8) : debugWords true ch.val (encode .dmakill) = (killWord ch, 0) := by
  revert ch
  decide

/-- The words hold the instruction's bytes (R157, R158). -/
theorem debugBytes_go (ns : Bool) (ch : Fin 8) (addr : Word) :
    debugBytes (goWord ns ch) addr = encode (.dmago ns ch addr) := by
  have head : [byteOf (goWord ns ch) 2, byteOf (goWord ns ch) 3] =
      [if ns then 0xA2 else 0xA0, BitVec.ofNat 8 ch.val] := by
    revert ns ch
    decide
  exact congrArg (· ++ le32 addr) head

theorem debugBytes_kill (ch : Fin 8) : debugBytes (killWord ch) 0 = encode .dmakill ++ [0, 0, 0, 0, 0] := by
  revert ch
  decide

/-- And the thread they are for. -/
theorem debugThread_go : ∀ (ns : Bool) (ch : Fin 8), debugThread (goWord ns ch) = .manager := by decide

theorem debugThread_kill : ∀ ch : Fin 8, debugThread (killWord ch) = .channel ch := by decide

/-! ## The trigger (R156, R216, R617; log 13) -/

/-- The engine executing the triggered instruction on a thread. -/
def State.debugging (s : State) (t : Thread) : State :=
  { s with
    active := { thread := t, origin := .debug }
    engine := { s.engine.trigger with dbgPending := false } }

/-- Where the effect is there at the trigger, it is what the instruction of the words does. -/
theorem triggerDebug_visible {s u : State} (visible : s.platform.goVisibleAtIdle = true) {i : Instr} {rest : List Byte}
    {t : Thread} (decoding : decode (debugBytes s.engine.dbginst0 s.engine.dbginst1) = .ok (i, rest))
    (thread : debugThread s.engine.dbginst0 = t) (answer : exec i (s.debugging t) = .next u) : triggerDebug s = u := by
  subst thread
  have executed : executeDebug { s with engine := s.engine.trigger } = .next u := by
    rw [executeDebug, runBytes]
    show (match decode (debugBytes s.engine.dbginst0 s.engine.dbginst1) with
      | .ok (i, _) => _
      | .error e => _) = _
    rw [decoding]
    exact answer
  rw [triggerDebug, if_pos visible, executed]
  rfl

theorem triggerDebug_hidden {s : State} (hidden : s.platform.goVisibleAtIdle = false) :
    triggerDebug s = { s with engine := s.engine.trigger } := if_neg (ne_true_of_eq_false hidden)

/-- What an issue leaves of everything but the instruction's own effect: the words stand in the registers and the
interface is busy. -/
structure Triggered (s : State) (w : Word × Word) (t : State) : Prop where
  mem : t.mem = s.mem
  buffers : t.buffers = s.buffers
  gaps : t.gaps = s.gaps
  inst0 : t.engine.dbginst0 = w.1
  inst1 : t.engine.dbginst1 = w.2
  busy : t.engine.dbgstatus.getLsbD 0 = true

/-- Both debug words written. -/
def State.commanded (s : State) (w : Word × Word) : State :=
  { s with engine := { s.engine with dbginst0 := w.1, dbginst1 := w.2 } }

theorem setBit_bit (w : Word) (i : Nat) (hi : i < 32) : (setBit w i).getLsbD i = true :=
  (putBit_bit w i true i hi).trans (if_pos rfl)

theorem trigger_triggered (s : State) (w : Word × Word) :
    Triggered s w { s.commanded w with engine := (s.commanded w).engine.trigger } :=
  ⟨rfl, rfl, rfl, rfl, rfl, setBit_bit _ 0 (by decide)⟩

theorem debugging_triggered (s : State) (w : Word × Word) (t : Thread) :
    Triggered s w ((s.commanded w).debugging t) :=
  ⟨rfl, rfl, rfl, rfl, rfl, setBit_bit _ 0 (by decide)⟩

/-- The rest of an instruction's effect lies outside what `Triggered` speaks of. -/
theorem Triggered.after {s t u : State} {w : Word × Word} (triggered : Triggered s w t) (mem : u.mem = t.mem)
    (buffers : u.buffers = t.buffers) (gaps : u.gaps = t.gaps) (inst0 : u.engine.dbginst0 = t.engine.dbginst0)
    (inst1 : u.engine.dbginst1 = t.engine.dbginst1) (status : u.engine.dbgstatus = t.engine.dbgstatus) :
    Triggered s w u :=
  ⟨mem.trans triggered.mem, buffers.trans triggered.buffers, gaps.trans triggered.gaps, inst0.trans triggered.inst0,
    inst1.trans triggered.inst1, by rw [status]; exact triggered.busy⟩

/-! ## The DMAGO of an issue (R711) -/

/-- What a DMAGO of the debug interface does on the manager. -/
def goDebug (ns : Bool) (cn : Fin 8) (addr : Word) (s : State) : State :=
  if !s.goAllowed ns cn then takeFaultBit fltDmagoErr s
  else if s.threadStatus (.channel cn) = stStopped then startThread ns cn addr s
  else s

theorem exec_dmago_debug {s : State} (debugs : s.debugsManager) (ns : Bool) (cn : Fin 8) (addr : Word) :
    exec (.dmago ns cn addr) s = .next (goDebug ns cn addr s) := by
  have thread : s.active.thread = .manager := congrArg Active.thread debugs
  have stays {t : State} (origin : t.active.origin = .debug) : t.retire 6 = t := moveOn_debug origin _
  simp only [exec, execDmago, thread, goDebug]
  rw [stays (t := startThread ns cn addr s) (congrArg Active.origin debugs), stays (congrArg Active.origin debugs)]

section
variable {s : State}

/-- The state a DMAGO leaves once it is triggered. -/
def goTriggered (ns : Bool) (ch : Fin 8) (addr : Word) (s : State) : State :=
  triggerDebug (s.commanded (goWord ns ch, addr))

theorem goTriggered_visible (visible : s.platform.goVisibleAtIdle = true) (ns : Bool) (ch : Fin 8) (addr : Word) :
    goTriggered ns ch addr s = goDebug ns ch addr ((s.commanded (goWord ns ch, addr)).debugging .manager) := by
  have decoding := decodeEncode (.dmago ns ch addr) [] rfl
  rw [List.append_nil, ← debugBytes_go] at decoding
  exact triggerDebug_visible visible decoding (debugThread_go ns ch)
    (exec_dmago_debug (s := (s.commanded (goWord ns ch, addr)).debugging .manager) rfl ns ch addr)

theorem goTriggered_hidden (hidden : s.platform.goVisibleAtIdle = false) (ns : Bool) (ch : Fin 8) (addr : Word) :
    goTriggered ns ch addr s = { s.commanded (goWord ns ch, addr) with
      engine := (s.commanded (goWord ns ch, addr)).engine.trigger } := triggerDebug_hidden hidden

theorem goDebug_triggered {t : State} {w : Word × Word} (triggered : Triggered s w t)
    (manager : t.active.thread = .manager) (ns : Bool) (ch : Fin 8) (addr : Word) :
    Triggered s w (goDebug ns ch addr t) := by
  unfold goDebug
  split_ifs
  · rw [takeFaultBit, takeFault_manager manager]
    exact triggered.after rfl rfl rfl rfl rfl rfl
  · exact triggered.after rfl rfl rfl rfl rfl rfl
  · exact triggered

theorem goTriggered_triggered (ns : Bool) (ch : Fin 8) (addr : Word) :
    Triggered s (goWord ns ch, addr) (goTriggered ns ch addr s) := by
  cases visible : s.platform.goVisibleAtIdle with
  | true =>
    rw [goTriggered_visible visible]
    exact goDebug_triggered (debugging_triggered ..) rfl ns ch addr
  | false =>
    rw [goTriggered_hidden visible]
    exact trigger_triggered ..

/-- The context plays no part in a DMAGO. -/
theorem goTriggered_holding (ns : Bool) (ch : Fin 8) (addr : Word) (c : Context) :
    goTriggered ns ch addr (s.holding c) = (goTriggered ns ch addr s).holding c := by
  cases visible : s.platform.goVisibleAtIdle with
  | true =>
    rw [goTriggered_visible visible, goTriggered_visible (s := s.holding c) visible]
    unfold goDebug
    rw [apply_ite (State.holding · c), apply_ite (State.holding · c)]
    rfl
  | false => rw [goTriggered_hidden visible, goTriggered_hidden (s := s.holding c) visible]; rfl

end

/-! ## The DMAKILL of an issue (R712) -/

theorem killTriggered_visible {s : State} (visible : s.platform.goVisibleAtIdle = true) (ch : Fin 8) :
    triggerDebug (s.commanded (killWord ch, 0)) =
      killThread (.channel ch) ((s.commanded (killWord ch, 0)).debugging (.channel ch)) := by
  have decoding := decodeEncode .dmakill [0, 0, 0, 0, 0] rfl
  rw [← debugBytes_kill ch] at decoding
  exact triggerDebug_visible visible decoding (debugThread_kill ch) (exec_dmakill (.inl rfl))

theorem killThread_triggered {s t : State} {w : Word × Word} (triggered : Triggered s w t) (ch : Fin 8) :
    Triggered s w (killThread (.channel ch) t) := by
  unfold killThread
  split
  · exact triggered
  · exact triggered.after rfl rfl rfl rfl rfl rfl

theorem killTriggered_triggered (s : State) (ch : Fin 8) :
    Triggered s (killWord ch, 0) (triggerDebug (s.commanded (killWord ch, 0))) := by
  cases visible : s.platform.goVisibleAtIdle with
  | true =>
    rw [killTriggered_visible visible]
    exact killThread_triggered (debugging_triggered ..) ch
  | false =>
    rw [triggerDebug_hidden (s := s.commanded (killWord ch, 0)) visible]
    exact trigger_triggered ..

/-! ## The issue (R700) -/

section
variable {thread : Bool} {ch : Fin 8} {op : EncOp} {i : Instr} {c : Context}

/-- The bytes of an append, in order. -/
theorem offsetWrites_snd (start : Nat) (bs : List Byte) : (offsetWrites start bs).map (fun w => w.2) = bs := by
  rw [offsetWrites_eq, List.map_snd_zip (by simp)]

/-- The three register writes of an issue. -/
theorem commanded_trigger {s : State} (quiet : s.gaps = []) (base : Word) (w : Word × Word) :
    regWrite base .dbgcmd 0 (regWrite base .dbginst1 w.2 (regWrite base .dbginst0 w.1 s)) =
      triggerDebug (s.commanded w) := by
  have first : regWrite base .dbginst0 w.1 s = { s with engine := s.engine.write .dbginst0 w.1 } :=
    regWrite_quiet quiet base (by decide) w.1
  have second : regWrite base .dbginst1 w.2 { s with engine := s.engine.write .dbginst0 w.1 } = s.commanded w :=
    regWrite_quiet (s := { s with engine := s.engine.write .dbginst0 w.1 }) quiet base (by decide) w.2
  rw [first, second, regWrite, gap_nil (s := s.commanded w) quiet, spaceWrite_dbgcmd]

/-- An issue on a channel that is not Free, its instruction built in the debug buffer: the two words are written and
triggered. -/
theorem issueTail_issues {d : DebugBuffer} (there : c.dbg = some d) (active : c.chState[ch] ≠ .free)
    (appended : appendedInstr op = some i) (room : (encode i).length + 1 ≤ d.hdr.cap) :
    ∃ d', ∀ s : State, s.gaps = [] → issueTail thread (some ch.val) op c s =
      ({ c with dbg := some d' }, triggerDebug (s.commanded (debugWords thread ch.val (encode i))), .success) := by
  have built : encodeOp op d.cleared (fun _ => 0) = .ok (appendBytes d.cleared (encode i)) := by
    rw [encodeOp_append _ _ appended, emit_room]
    rwa [DebugBuffer.cleared, Nat.zero_add]
  have bytes : ((appendBytes d.cleared (encode i)).writes.map fun w => w.2).take
      (appendBytes d.cleared (encode i)).buffer.len = encode i := by
    show ((offsetWrites 0 (encode i ++ [0x00])).map fun w => w.2).take (0 + (encode i).length) = encode i
    rw [offsetWrites_snd, Nat.zero_add, List.take_left]
  let ed := appendBytes d.cleared (encode i)
  refine ⟨{ hdr := ed.buffer, bytes := ed.writes.map fun w => w.2 }, fun s quiet => ?_⟩
  have written (w : Word × Word) := commanded_trigger quiet c.base w
  unfold issueTail
  simp only [there, built, Config.numChannels, ch.isLt, dif_pos, if_neg (show ¬ c.chState[ch.val] = .free from active),
    bytes, written, Option.getD_some]
  rfl

/-- An issue whose tail fails does so whatever the state is; else it triggers. -/
theorem issueTail_uniform (c : Context) (thread : Bool) (ch : Fin 8) (appended : appendedInstr op = some i) :
    (∃ st, st ≠ .success ∧ ∀ s, issueTail thread (some ch.val) op c s = issueFailed c s st) ∨
    ∃ d', ∀ s : State, s.gaps = [] → issueTail thread (some ch.val) op c s =
      ({ c with dbg := some d' }, triggerDebug (s.commanded (debugWords thread ch.val (encode i))), .success) := by
  by_cases active : c.chState[ch] = .free
  · refine .inl ⟨.skipped, nofun, fun s => ?_⟩
    unfold issueTail
    simp only [Config.numChannels, ch.isLt, dif_pos, if_pos (show c.chState[ch.val] = .free from active)]
  · cases there : c.dbg with
    | none =>
      refine .inl ⟨.nullptr, nofun, fun s => ?_⟩
      unfold issueTail
      simp only [there, Config.numChannels, ch.isLt, dif_pos, if_neg (show ¬ c.chState[ch.val] = .free from active)]
    | some d =>
      by_cases room : (encode i).length + 1 ≤ d.hdr.cap
      · exact .inr (issueTail_issues there active appended room)
      · refine .inl ⟨.noSpace, nofun, fun s => ?_⟩
        have full : encodeOp op d.cleared (fun _ => 0) = .error .noSpace := by
          rw [encodeOp_append _ _ appended, emit_full]
          rw [DebugBuffer.cleared, Nat.zero_add]
          exact Nat.not_le.1 room
        unfold issueTail
        simp only [there, full, Config.numChannels, ch.isLt, dif_pos,
          if_neg (show ¬ c.chState[ch.val] = .free from active)]

variable {s : State}

theorem issue_busy (quiet : s.gaps = []) (busy : s.engine.dbgstatus.getLsbD 0 = true) (c : Context)
    (target : Option Nat) : issue thread target op c s = issueFailed c s .busy := by
  simp only [issue, regRead_quiet quiet, Engine.read, busy, if_true]

theorem issue_idle (quiet : s.gaps = []) (idle : s.engine.dbgstatus.getLsbD 0 = false) (c : Context)
    (target : Option Nat) : issue thread target op c s = issueTail thread target op c s := by
  simp only [issue, regRead_quiet quiet, Engine.read, idle, Bool.false_eq_true, if_false]

theorem appendedInstr_go (ch : Fin 8) (addr : Word) (ns : Bool) :
    appendedInstr (.go ch.val addr ns) = some (.dmago ns ch addr) := dif_pos ch.isLt

/-- The context plays no part in an issue's effect on the rest of the state (R711). -/
theorem issueGo_holding (quiet : s.gaps = []) (ch : Fin 8) (addr : Word) (ns : Bool) (c c₀ : Context) :
    issueGo ch addr ns c (s.holding c₀) =
      ((issueGo ch addr ns c s).1, (issueGo ch addr ns c s).2.1.holding c₀, (issueGo ch addr ns c s).2.2) := by
  unfold issueGo
  cases busy : s.engine.dbgstatus.getLsbD 0 with
  | true =>
    rw [issue_busy quiet busy, issue_busy (s := s.holding c₀) quiet busy]
    rfl
  | false =>
    rw [issue_idle quiet busy, issue_idle (s := s.holding c₀) quiet busy]
    rcases issueTail_uniform c false ch (appendedInstr_go ch addr ns) with ⟨st, -, fails⟩ | ⟨d', issues⟩
    · rw [fails, fails]
      rfl
    · rw [issues s quiet, issues (s.holding c₀) quiet, debugWords_go]
      exact congrArg (Prod.mk _) (congrArg (Prod.mk · _) (goTriggered_holding ns ch addr c₀))

end

end Sys2Proof.Machine
end

section
/-! PROOFS. The claims on starting a channel, setting up a transfer and the safe abort (R610, R615, R638, R651, R656, R740,
R745). -/

namespace Sys2Proof.Machine

/-! ## Starting a channel (R615) -/

section
variable {s : State} {c : Context} {ch : Fin 8} {h : Nat} {b : Buffer}

/-- The command answers as the start ends. -/
theorem cmdStartTransferCh_eq (hc : s.ctx = some c) (hi : c.initialised = true) (ch : Fin 8) :
    cmdStartTransferCh .ctx ch.val s =
      reply ((startCh ch c s).2.1.holding (startCh ch c s).1) (startCh ch c s).2.2 0 :=
  onCtxChannel_ready hc hi ch _

theorem startCh_pending (on : c.abortPending = true) (ch : Fin 8) (s : State) : startCh ch c s = (c, s, .busy) :=
  if_pos on

theorem startCh_notReady (off : c.abortPending = false) (other : c.chState[ch] ≠ .ready) (s : State) :
    startCh ch c s = (c, s, .notReady) := by
  rw [startCh, if_neg (ne_true_of_eq_false off), if_pos other]

/-- The start of a Ready channel is its issue, and then the channel is Busy. -/
theorem startCh_ready (off : c.abortPending = false) (ready : c.chState[ch] = .ready) (held : c.pending[ch] = some h)
    (live : bufGet s.buffers h = some b) : startCh ch c s =
      if (issueGo ch b.base b.nonSecure c s).2.2 = .success then
        ({ (issueGo ch b.base b.nonSecure c s).1 with
          chState := (issueGo ch b.base b.nonSecure c s).1.chState.set ch .busy },
          (issueGo ch b.base b.nonSecure c s).2.1, .success)
      else issueGo ch b.base b.nonSecure c s := by
  simp only [startCh, off, Bool.false_eq_true, if_false, ready, ne_eq, not_true_eq_false, held, findBuffer_some, live,
    Option.map_some]

/-- Where the debug interface is idle the DMAGO is triggered. -/
theorem startCh_idle {d : DebugBuffer} (quiet : s.gaps = []) (there : c.dbg = some d) (cap : d.hdr.cap = 8)
    (off : c.abortPending = false) (ready : c.chState[ch] = .ready) (held : c.pending[ch] = some h)
    (live : bufGet s.buffers h = some b) (idle : s.engine.dbgstatus.getLsbD 0 = false) :
    ∃ d', startCh ch c s = ({ c with dbg := some d', chState := c.chState.set ch .busy },
      goTriggered b.nonSecure ch b.base s, .success) := by
  have active : c.chState[ch] ≠ .free := by rw [ready]; decide
  obtain ⟨d', issues⟩ := issueTail_issues (thread := false) there active (appendedInstr_go ch b.base b.nonSecure)
    (by rw [cap]; exact Nat.le_refl 7 |>.trans (by decide))
  refine ⟨d', ?_⟩
  have issued : issueGo ch b.base b.nonSecure c s = ({ c with dbg := some d' }, goTriggered b.nonSecure ch b.base s,
      .success) := by
    rw [issueGo, issue_idle quiet idle, issues s quiet, debugWords_go]
    rfl
  rw [startCh_ready off ready held live, issued]
  rfl

end

/-- CNS and the status of a channel that a DMAGO has started. -/
theorem started_csr (csr : Word) (ns : Bool) :
    statusOf (putBit (withStatus csr stExecuting) cnsBit ns) = 0x1#4 ∧
      (putBit (withStatus csr stExecuting) cnsBit ns).getLsbD 21 = ns := by
  constructor
  · refine Eq.trans (BitVec.eq_of_getLsbD_eq fun i inside => ?_) (statusOf_withStatus csr stExecuting)
    rw [statusOf, statusOf, BitVec.getLsbD_extractLsb', BitVec.getLsbD_extractLsb', putBit_bit _ _ _ _ (by decide),
      if_neg (by rw [cnsBit]; omega)]
  · exact (putBit_bit _ _ _ _ (by decide)).trans (if_pos rfl)

/-- An allowed DMAGO of a Stopped channel starts it. -/
theorem goDebug_starts {s : State} {ns : Bool} {cn : Fin 8} (allowed : s.goAllowed ns cn = true)
    (stopped : s.threadStatus (.channel cn) = stStopped) (addr : Word) :
    goDebug ns cn addr s = startThread ns cn addr s := by
  rw [goDebug, allowed, if_neg (by decide), if_pos stopped]

/-- Settles O48. -/
theorem startIssuesGo : Obligations.StartIssuesGo := by
  intro s c ch h b d quiet there cap off ready held live idle
  obtain ⟨hc, hi, gaps⟩ := quiet
  obtain ⟨d', started⟩ := startCh_idle gaps there cap off ready held live idle
  have triggered := goTriggered_triggered (s := s) b.nonSecure ch b.base
  have answer := cmdStartTransferCh_eq hc hi ch
  rw [started] at answer
  refine ⟨_, _, answer, rfl, rfl, rfl, rfl, triggered.inst0, triggered.inst1, triggered.busy, triggered.mem,
    triggered.buffers, fun visible allowed stopped => ?_, fun hidden => ?_⟩
  · rw [goTriggered_visible visible, goDebug_starts (by exact allowed) (by exact stopped)]
    have channel : (startThread b.nonSecure ch b.base
        ((s.commanded (goWord b.nonSecure ch, b.base)).debugging .manager)).chan ch = { s.chan ch with
          pc := b.base
          csr := putBit (withStatus (s.chan ch).csr stExecuting) cnsBit b.nonSecure
          fifo := [] } := setChan_chan_self ..
    have fields := started_csr (s.chan ch).csr b.nonSecure
    refine ⟨congrArg Channel.pc channel, ?_, ?_, rfl⟩
    · exact (congrArg (fun c : Channel => statusOf c.csr) channel).trans fields.1
    · exact (congrArg (fun c : Channel => c.csr.getLsbD 21) channel).trans fields.2
  · rw [goTriggered_hidden hidden]
    exact ⟨rfl, rfl⟩

/-- Settles O49. -/
theorem startRefuses : Obligations.StartRefuses := by
  intro s c ch quiet
  obtain ⟨hc, hi, gaps⟩ := quiet
  have answer := cmdStartTransferCh_eq hc hi ch
  refine ⟨fun on => ?_, fun off other => ?_, fun h b off ready held live busy => ?_⟩
  · rw [startCh_pending on] at answer
    rwa [holding_self hc] at answer
  · rw [startCh_notReady off other] at answer
    rwa [holding_self hc] at answer
  · rw [startCh_ready off ready held live, issueGo, issue_busy gaps busy] at answer
    exact ⟨_, _, answer, rfl, rfl, rfl, rfl, rfl⟩

/-! ## The safe abort (R651, R638, R656) -/

section
variable {s : State} {c : Context} {ch : Fin 8} {d : DebugBuffer}

/-- The channels in an accepted state, where one alone is. -/
theorem channels_single {p : ChState → Bool} (only : ∀ k : Fin 8, p c.chState[k] = decide (k = ch)) :
    c.channels p = [ch] := by
  have one : ∀ ch : Fin 8, allChannels.filter (fun k => decide (k = ch)) = [ch] := by decide
  rw [Context.channels, List.filter_congr fun k _ => only k]
  exact one ch

/-- The one DMAKILL of a safe abort. -/
theorem killAll_single (gaps : s.gaps = []) (there : c.dbg = some d) (cap : d.hdr.cap = 8)
    (active : c.chState[ch] ≠ .free) (idle : s.engine.dbgstatus.getLsbD 0 = false) :
    ∃ d', killAll [ch] c s = some ({ c with dbg := some d' }, triggerDebug (s.commanded (killWord ch, 0))) := by
  obtain ⟨d', issues⟩ := issueTail_issues (thread := true) (op := .kill) there active rfl
    (by rw [cap]; exact (by decide : 2 ≤ 8))
  have held : holdIdle c.base s.gaps s = some s := by
    rw [gaps, holdIdle, dbgBusy_eq, idle, if_neg Bool.false_ne_true, ← gaps]
  have issued := issues s gaps
  rw [debugWords_kill] at issued
  refine ⟨d', ?_⟩
  simp only [killAll, issueKillHold, issueHold, held, Option.map_some, issued]

/-- What the kill leaves of a channel that had not faulted without being Stopped: it is Stopped, and shows no fault. -/
theorem killTriggered_channel (visible : s.platform.goVisibleAtIdle = true) (ch : Fin 8) :
    let t := triggerDebug (s.commanded (killWord ch, 0))
    statusOf (t.chan ch).csr = 0x0#4 ∧
      (s.engine.fsrc.getLsbD ch.val = false ∨ statusOf (s.chan ch).csr ≠ 0x0#4 →
        t.engine.fsrc.getLsbD ch.val = false) := by
  dsimp only
  rw [killTriggered_visible visible]
  refine ⟨killThread_stopped (.channel ch) _, fun sound => ?_⟩
  by_cases stopped : statusOf (s.chan ch).csr = 0x0#4
  · rw [killThread_of_stopped (by exact stopped)]
    exact sound.resolve_right (not_not_intro stopped)
  · rw [killThread, if_neg (by exact stopped)]
    exact (clearBit_bit _ _ _ (by omega)).trans (if_pos rfl)

/-- The next poll finds the killed channel Aborted, and ends the abort. -/
theorem reconcile_killed (gaps : s.gaps = []) (pending : c.abortPending = true) (active : c.chState[ch] ≠ .free)
    (others : ∀ k : Fin 8, k ≠ ch → c.chState[k] = .free) (stopped : statusOf (s.chan ch).csr = 0x0#4)
    (healthy : c.chState[ch] = .busy → s.engine.fsrc.getLsbD ch.val = false) :
    (∀ k : Fin 8, (reconcile c s).1.chState[k] = if k = ch then .aborted else .free) ∧
      (reconcile c s).1.abortPending = false := by
  obtain ⟨-, -, -, ends, channels⟩ := reconcileReads s c gaps
  have states (k : Fin 8) : (reconcile c s).1.chState[k] = if k = ch then .aborted else .free := by
    rw [(channels k).1]
    by_cases this : k = ch
    · subst this
      by_cases already : c.chState[k] = .aborted
      · simp only [already, or_true, if_true]
      · have sound : ¬ (c.chState[k] = .busy ∧ s.engine.fsrc.getLsbD k.val = true) :=
          fun ⟨busy, faults⟩ => absurd ((healthy busy).symm.trans faults) Bool.false_ne_true
        simp only [active, already, or_self, if_false, if_neg sound, pending, stopped, and_self, if_true]
    · simp only [others k this, true_or, if_true, if_neg this]
  refine ⟨states, Bool.eq_false_iff.2 fun on => ?_⟩
  obtain ⟨-, k, notFree, notAborted⟩ := ends.1 on
  rw [states] at notFree notAborted
  split at notFree
  · rename_i this
    exact notAborted (if_pos this)
  · exact notFree rfl

/-- The channels after the release of the one Aborted channel. -/
theorem releaseAll_single (states : ∀ k : Fin 8, c.chState[k] = if k = ch then .aborted else .free) (s : State)
    (k : Fin 8) : (releaseAll [ch] c s).1.chState[k] = .free := by
  show (c.chState.set ch .free)[k] = .free
  rw [vector_set_get]
  split
  · rfl
  · rename_i other
    rw [states, if_neg other]

/-- The poll that frees the one Aborted channel. -/
theorem cmdAborted_single (quiet : s.quiet c)
    (states : ∀ k : Fin 8, (reconcile c s).1.chState[k] = if k = ch then .aborted else .free)
    (ended : (reconcile c s).1.abortPending = false) :
    ∃ u c'', cmdAborted .ctx s = .next (u, { status := .success, payload := 1#32 <<< ch.val, record := none }) ∧
      u.ctx = some c'' ∧ (∀ k : Fin 8, c''.chState[k] = .free) ∧ c''.abortPending = false := by
  have mask : ∀ ch : Fin 8, channelMask [ch] = 1#32 <<< ch.val := by decide
  rw [cmdAborted, pollAll_quiet quiet]
  generalize (reconcile c s).1 = c₁ at states ended
  have single : c₁.channels (· == .aborted) = [ch] := by
    refine channels_single fun k => ?_
    rw [states]
    split
    · exact (decide_eq_true ‹_›).symm
    · exact (decide_eq_false ‹_›).symm
  simp only [single, ended, Bool.false_eq_true, if_false, List.cons_ne_nil, mask]
  exact ⟨_, _, putContext_reply .., rfl, releaseAll_single states s, ended⟩

end

/-- Settles O55. -/
theorem safeAbortKills : Obligations.SafeAbortKills := by
  intro s c ch h b d quiet there cap active sound others held live idle
  obtain ⟨hc, hi, gaps⟩ := quiet
  let c₁ : Context := { c with abortPending := true }
  have single : c.channels (· != .free) = [ch] := by
    refine channels_single fun k => ?_
    by_cases this : k = ch
    · subst this
      simpa using active
    · simp [others k this, this]
  obtain ⟨d', killed⟩ := killAll_single (c := c₁) gaps there cap active idle
  have triggered := killTriggered_triggered s ch
  have answer : cmdAbort .ctx (some .safe) s =
      reply ((triggerDebug (s.commanded (killWord ch, 0))).holding { c₁ with dbg := some d' }) .success 0 := by
    rw [cmdAbort_safe hc hi, abortSafe]
    simp only [single, List.cons_ne_nil, if_false]
    rw [show killAll [ch] { c with abortPending := true } s = _ from killed]
    rfl
  refine ⟨_, _, answer, rfl, rfl, rfl, rfl, triggered.inst0, triggered.inst1, fun visible => ?_⟩
  obtain ⟨stopped, healthy⟩ := killTriggered_channel visible ch
  generalize triggerDebug (s.commanded (killWord ch, 0)) = t at triggered stopped healthy
  have gaps₂ : (t.holding { c₁ with dbg := some d' }).gaps = [] := triggered.gaps.trans gaps
  obtain ⟨states, ended⟩ := reconcile_killed (s := t.holding { c₁ with dbg := some d' })
    (c := { c₁ with dbg := some d' }) gaps₂ rfl active others stopped fun busy => healthy (sound busy)
  exact ⟨stopped, cmdAborted_single ⟨rfl, hi, gaps₂⟩ states ended⟩

end Sys2Proof.Machine
end

section
/-! PROOFS. The claim on setting up a transfer (R610, R740, R745): the attachment, the start that may follow it, and the
synthesized program. -/

namespace Sys2Proof.Machine

/-! ## The attachment (R610) -/

section
variable {s : State} {c : Context} {ch : Fin 8} {h : Nat} {b : Buffer}

theorem setupCheck_busy (busy : c.abortPending = true ∨ c.chState[ch] = .busy) : setupCheck ch c = some .busy := by
  unfold setupCheck
  split_ifs with on running other
  · rfl
  · rfl
  · exact absurd (busy.resolve_left on) running
  · exact absurd (busy.resolve_left on) running

theorem setupCheck_inUse (off : c.abortPending = false) (used : c.chState[ch] ∈ [ChState.ready, .done, .error, .aborted]) :
    setupCheck ch c = some .inUse := by
  simp only [List.mem_cons, List.not_mem_nil, or_false] at used
  unfold setupCheck
  rcases used with st | st | st | st <;> simp [off, st]

theorem structurallyValid_iff : s.structurallyValid b = true ↔
    b.len < b.cap ∧ s.bufByte b b.len = 0x00 ∧ b.depth = 0 ∧ b.ctrMask = 0 := by
  simp only [State.structurallyValid, Bool.and_eq_true, decide_eq_true_eq, beq_iff_eq, and_assoc]

theorem attach_refused {st : Status} (live : bufGet s.buffers h = some b) (check : setupCheck ch c = some st) :
    attach ch (some h) c s = .error st := by
  simp only [attach, findBuffer_some, live, Option.map_some, check]

theorem pendingAnywhere_iff : (allChannels.any fun k => c.pending[k] == some h) = true ↔
    ∃ k : Fin 8, c.pending[k] = some h := by
  simp [List.any_eq_true, mem_allChannels]

theorem attach_elsewhere (live : bufGet s.buffers h = some b) (check : setupCheck ch c = none)
    (elsewhere : ∃ k : Fin 8, c.pending[k] = some h) : attach ch (some h) c s = .error .inUse := by
  simp only [attach, findBuffer_some, live, Option.map_some, check, pendingAnywhere_iff.2 elsewhere, if_true]

theorem attach_invalid (live : bufGet s.buffers h = some b) (check : setupCheck ch c = none)
    (nowhere : ¬ ∃ k : Fin 8, c.pending[k] = some h)
    (invalid : ¬ (b.len < b.cap ∧ s.bufByte b b.len = 0x00 ∧ b.depth = 0 ∧ b.ctrMask = 0)) :
    attach ch (some h) c s = .error .invalid := by
  have invalid : s.structurallyValid b = false := Bool.eq_false_iff.2 (mt structurallyValid_iff.1 invalid)
  simp only [attach, findBuffer_some, live, Option.map_some, check, if_neg (mt pendingAnywhere_iff.1 nowhere), invalid,
    Bool.not_false, if_true]

theorem attach_valid (live : bufGet s.buffers h = some b) (check : setupCheck ch c = none)
    (nowhere : ¬ ∃ k : Fin 8, c.pending[k] = some h)
    (valid : b.len < b.cap ∧ s.bufByte b b.len = 0x00 ∧ b.depth = 0 ∧ b.ctrMask = 0) :
    attach ch (some h) c s = .ok (c.attach ch h) := by
  simp only [attach, findBuffer_some, live, Option.map_some, check, if_neg (mt pendingAnywhere_iff.1 nowhere),
    structurallyValid_iff.2 valid, Bool.not_true, Bool.false_eq_true, if_false]

/-! ## The start that may follow (R740, R745) -/

/-- The context plays no part in a start's effect on the rest of the state. -/
theorem startCh_holding (quiet : s.gaps = []) (ch : Fin 8) (c c₀ : Context) : startCh ch c (s.holding c₀) =
    ((startCh ch c s).1, (startCh ch c s).2.1.holding c₀, (startCh ch c s).2.2) := by
  have found : (s.holding c₀).findBuffer c.pending[ch] = s.findBuffer c.pending[ch] := rfl
  unfold startCh
  rw [found]
  split_ifs
  · rfl
  · rfl
  · cases s.findBuffer c.pending[ch] with
    | none => rfl
    | some p =>
      simp only [issueGo_holding quiet]
      split <;> rfl

/-- A command that goes on with a start answers as `startTransferCh` does from there, but for payload and record. -/
theorem autoStartCh_starts (quiet : s.gaps = []) (on : c.initialised = true) (ch : Fin 8) (payload : Word)
    (record : Option XferParams) :
    ∃ u st, cmdStartTransferCh .ctx ch.val (s.holding c) = reply u st 0 ∧
      andThen (autoStartCh ch true payload record c s) putContext = .next (u, {
        status := st
        payload := if st = .success then payload else 0
        record := record }) := by
  refine ⟨(startCh ch c s).2.1.holding (startCh ch c s).1, (startCh ch c s).2.2, ?_, rfl⟩
  rw [cmdStartTransferCh_eq (s := s.holding c) rfl on, startCh_holding quiet]
  rfl

/-! ## A program of the caller's (R745) -/

theorem cmdSetupTransferProgram_refused (hc : s.ctx = some c) (hi : c.initialised = true) {p : Handle} {st : Status}
    (refused : attach ch p c s = .error st) (auto : Bool) :
    Answers (cmdSetupTransferProgram .ctx ch.val p auto s) s st := by
  rw [cmdSetupTransferProgram, onCtxChannel_ready hc hi]
  simp only [refused]
  exact putContext_same hc st 0

theorem cmdSetupTransferProgram_attached (hc : s.ctx = some c) (hi : c.initialised = true) {p : Handle} {c' : Context}
    (attached : attach ch p c s = .ok c') (auto : Bool) :
    cmdSetupTransferProgram .ctx ch.val p auto s = andThen (autoStartCh ch auto 0 none c' s) putContext := by
  rw [cmdSetupTransferProgram, onCtxChannel_ready hc hi]
  simp only [attached]

/-- With autoStart it is the attachment and then `startTransferCh`. -/
theorem cmdSetupTransferProgram_starts (hc : s.ctx = some c) (hi : c.initialised = true) {p : Handle} {c' : Context}
    (attached : attach ch p c s = .ok c') (on : c'.initialised = true) (quiet : s.gaps = []) :
    cmdSetupTransferProgram .ctx ch.val p true s = cmdStartTransferCh .ctx ch.val (s.holding c') := by
  obtain ⟨u, st, started, answer⟩ := autoStartCh_starts quiet on ch 0 none
  rw [cmdSetupTransferProgram_attached hc hi attached, started, answer, ite_self]
  rfl

/-! ## A synthesized program (R740) -/

variable {k : Chunk} {prm : XferParams} {given auto : Bool} {e : Env}

theorem setupWith_refused (names : prm.channel = ch.val) {st : Status} (check : setupCheck ch c = some st) :
    setupWith k prm given auto e c s = ctxReply c s st 0 := by
  obtain ⟨n, lt⟩ := ch
  obtain rfl : prm.channel = n := names
  unfold setupWith
  simp only [dif_pos (show prm.channel < Config.numChannels from lt), check]

theorem setupWith_failed (names : prm.channel = ch.val) (check : setupCheck ch c = none) {t : State} {st : Status}
    (failed : synthesize e k prm s = (t, .error st)) : setupWith k prm given auto e c s = ctxReply c t st 0 := by
  obtain ⟨n, lt⟩ := ch
  obtain rfl : prm.channel = n := names
  unfold setupWith
  simp only [dif_pos (show prm.channel < Config.numChannels from lt), check, failed]

theorem setupWith_attached (names : prm.channel = ch.val) (check : setupCheck ch c = none) {t : State} {P : Buffer}
    {ccrs : List Word} (program : synthesize e k prm s = (t, .ok (P, ccrs))) {c' : Context}
    (attached : attach ch (some t.nextHandle) c (t.addBuffer { P with loose := transferLoose k prm P c }) = .ok c') :
    setupWith k prm given auto e c s = autoStartCh ch auto (BitVec.ofNat 32 ch.val)
      (if given then some { prm with resolved := ccrs } else none) c'
      (t.addBuffer { P with loose := transferLoose k prm P c }) := by
  obtain ⟨n, lt⟩ := ch
  obtain rfl : prm.channel = n := names
  unfold setupWith
  simp only [dif_pos (show prm.channel < Config.numChannels from lt), check, program, attached]

theorem setupWith_range (high : 7 < prm.channel) : setupWith k prm given auto e c s = ctxReply c s .range 0 :=
  dif_neg (Nat.not_lt.2 high)

/-- The handle the next program takes is pending nowhere. -/
theorem nextHandle_nowhere (inv : s.inv = true) (hc : s.ctx = some c) :
    ¬ ∃ k : Fin 8, c.pending[k] = some s.nextHandle := by
  simp only [State.inv, Bool.and_eq_true] at inv
  obtain ⟨⟨-, buffers⟩, ctx⟩ := inv
  rintro ⟨k, held⟩
  have alive := ((ctxInv_iff s).1 ctx c hc).alive k _ held
  exact Nat.lt_irrefl _ (((buffersWf_iff s).1 buffers).given _ alive)

/-- A synthesized program can be attached (R107, R541). -/
theorem attach_synthesized (inv : s.inv = true) (hc : s.ctx = some c) (check : setupCheck ch c = none) {t : State}
    {P : Buffer} {ccrs : List Word} (program : synthesize e k prm s = (t, .ok (P, ccrs))) (mark : Bool) :
    attach ch (some t.nextHandle) c (t.addBuffer { P with loose := mark }) = .ok (c.attach ch s.nextHandle) := by
  have wf : s.mem.wf = true := by
    simp only [State.inv, Bool.and_eq_true] at inv
    exact inv.1.1
  obtain ⟨frame, -⟩ := synthesize_frame program
  have next : t.nextHandle = s.nextHandle := by rw [frame]
  obtain ⟨len, rfl, fits, -, ends⟩ := synthesize_program program
  rw [next]
  exact attach_valid (if_pos next.symm) check (nextHandle_nowhere inv hc) ⟨fits, ends wf, rfl, rfl⟩

/-- `setupTransfer` where the bypass does not apply. -/
theorem cmdSetupTransfer_synthesizes (hc : s.ctx = some c) (hi : c.initialised = true) (index : Nat)
    (noBypass : k.params ≠ none ∨ c.shortThreshold < k.length ∨ auto = false) :
    cmdSetupTransfer .ctx (some k) index auto e s =
      andThen (setupWith k (k.params.getD (defaultParams c index)) k.params.isSome auto e c s) putContext := by
  rw [cmdSetupTransfer, onContext_ready hc hi]
  cases params : k.params with
  | some prm => simp only [params, Option.getD_some, Option.isSome_some]
  | none =>
    have long : (decide (k.length ≤ c.shortThreshold) && auto) = false := by
      rcases noBypass with given | long | manual
      · exact absurd params given
      · rw [decide_eq_false (BitVec.not_le.2 long), Bool.false_and]
      · rw [manual, Bool.and_false]
    simp only [params, long, Bool.false_eq_true, if_false, Option.getD_none, Option.isSome_none]

end

/-! ## The statement -/

section
variable {s : State} {c : Context} {ch : Fin 8} {h : Nat} {b : Buffer}

/-- Attached and started: the channel is Busy and its DMAGO issued, where the debug interface is idle. -/
theorem startTransferCh_attached (hi : c.initialised = true) (off : c.abortPending = false) (gaps : s.gaps = [])
    (live : bufGet s.buffers h = some b) (d : DebugBuffer) (there : c.dbg = some d) (cap : d.hdr.cap = 8)
    (idle : s.engine.dbgstatus.getLsbD 0 = false) :
    ∃ t c', Answers (cmdStartTransferCh .ctx ch.val (s.holding (c.attach ch h))) t .success ∧ t.ctx = some c' ∧
      c'.chState = c.chState.set ch .busy ∧ c'.pending = c.pending.set ch (some h) ∧
      t.engine.dbginst0 = BitVec.ofNat 32
        (0x00A00000 + (if b.nonSecure then 0x00020000 else 0) + 0x01000100 * ch.val) ∧
      t.engine.dbginst1 = b.base := by
  have ready : (c.attach ch h).chState[ch] = .ready := by
    rw [Context.attach, vector_set_get, if_pos rfl]
  have held : (c.attach ch h).pending[ch] = some h := by
    rw [Context.attach, vector_set_get, if_pos rfl]
  obtain ⟨t, c', answer, ctx, states, pending, -, inst0, inst1, -⟩ := startIssuesGo (s.holding (c.attach ch h))
    (c.attach ch h) ch h b d ⟨rfl, hi, gaps⟩ there cap off ready held live idle
  refine ⟨t, c', answer, ctx, states.trans ?_, pending, inst0, inst1⟩
  exact Vector.set_set ..

end

/-- Settles O47: the checks of R610 in their order, then the attachment, and with autoStart the start from there; a
synthesized program always passes the checks of the attachment. -/
theorem setupAttaches : Obligations.SetupAttaches := by
  intro s c ch h b auto hc hi
  refine ⟨fun live => ?_, fun k index e noBypass => ?_⟩
  · have refused {st : Status} := cmdSetupTransferProgram_refused (ch := ch) (p := some h) (st := st) hc hi
    refine ⟨cmdSetupTransferProgram_refused hc hi rfl auto,
      fun busy => refused (attach_refused live (setupCheck_busy busy)) auto,
      fun off used => refused (attach_refused live (setupCheck_inUse off used)) auto, fun off free => ?_⟩
    have check : setupCheck ch c = none := setupCheck_none.2 ⟨off, free⟩
    refine ⟨fun elsewhere => refused (attach_elsewhere live check elsewhere) auto,
      fun nowhere invalid => refused (attach_invalid live check nowhere invalid) auto, fun nowhere valid => ?_⟩
    have attached := attach_valid live check nowhere valid
    refine ⟨fun manual => ?_, fun automatic gaps => ?_⟩
    · subst manual
      exact cmdSetupTransferProgram_attached hc hi attached false
    · subst automatic
      have starts := cmdSetupTransferProgram_starts hc hi attached hi gaps
      refine ⟨starts, fun d there cap idle => ?_⟩
      rw [starts]
      exact startTransferCh_attached hi off gaps live d there cap idle
  · dsimp only
    rw [cmdSetupTransfer_synthesizes hc hi index noBypass]
    refine ⟨fun high => ?_, fun names => ⟨fun busy => ?_, fun off used => ?_, fun off free inv => ?_⟩⟩
    · rw [setupWith_range high]
      exact putContext_same hc .range 0
    · rw [setupWith_refused names (setupCheck_busy busy)]
      exact putContext_same hc .busy 0
    · rw [setupWith_refused names (setupCheck_inUse off used)]
      exact putContext_same hc .inUse 0
    have check : setupCheck ch c = none := setupCheck_none.2 ⟨off, free⟩
    refine ⟨fun t st failed => ?_, fun t P ccrs program => ?_⟩
    · have ctx : t.ctx = some c := by rw [(synthesize_frame failed).1]; exact hc
      rw [setupWith_failed names check failed]
      exact putContext_same ctx st 0
    · obtain ⟨mark, marked⟩ : ∃ mark, mark = transferLoose k (k.params.getD (defaultParams c index)) P c := ⟨_, rfl⟩
      have attached := attach_synthesized inv hc check program mark
      rw [marked] at attached
      have record : (if k.params.isSome then
          some { k.params.getD (defaultParams c index) with resolved := ccrs } else none) =
            k.params.map fun p => { p with resolved := ccrs } := by cases k.params <;> rfl
      rw [setupWith_attached names check program attached, record, ← marked]
      have frame := (synthesize_frame program).1
      have ready : (t.addBuffer { P with loose := mark }).holding (c.attach ch s.nextHandle) = { t with
          buffers := (s.nextHandle, { P with loose := mark }) :: s.buffers
          nextHandle := s.nextHandle + 1
          ctx := some (c.attach ch s.nextHandle) } := by rw [frame]; rfl
      refine ⟨mark, fun manual => ?_, fun automatic gaps => ?_⟩
      · subst manual
        exact congrArg (fun u => Host.Outcome.next (u, _)) ready
      · subst automatic
        have gaps : (t.addBuffer { P with loose := mark }).gaps = [] := by rw [frame]; exact gaps
        obtain ⟨u, st, started, answer⟩ := autoStartCh_starts (c := c.attach ch s.nextHandle) gaps hi ch
          (BitVec.ofNat 32 ch.val) (k.params.map fun p => { p with resolved := ccrs })
        rw [ready] at started
        exact ⟨u, response st 0, started, answer⟩

end Sys2Proof.Machine
end
